-- ==== Sys2Proof/Word.lean ====
section
/-! DEFINITION. The widths of 00_scope.md R21: every value is unsigned. -/

namespace Sys2Proof

/-- `u8`: a character, or a UART register of 8 implemented bits (R21). -/
abbrev Byte := BitVec 8

/-- `u16`: a write-mask register of the GPIO bank or the IOC block (10_state.md R129, R131). -/
abbrev Half := BitVec 16

/-- `u32`: what one transaction moves (R11), and a transaction descriptor (30_encoding.md R300). -/
abbrev Word := BitVec 32

end Sys2Proof
end

