-- ==== Sys2Proof/Config.lean ====
section
/-! DEFINITION. The parameters of 00_scope.md R10, the choices of the scheduler and the environment (44_uart_engines.md
R600), and the free values (R24). The parameters are a record that State carries and no step changes, so that a statement
about every state holds for every value of an OPEN parameter. The free values and the free schedule are opaque: nothing
can be proved of what they are. -/

namespace Sys2Proof

/-- R10 `LAUNCH_STATE` (70_reset_and_hazards.md R1003). -/
inductive LaunchState where
  | reset
  | arbitrary
  deriving DecidableEq, Repr

/-- A UART signal that a mux field of IOC offset 0x02C routes (R10 `PINMUX_A_ROLE`, 45_gpio_iomux.md R709). -/
inductive UartSignal where
  | rx
  | tx
  deriving DecidableEq, Repr

/-- R10, the parameters of the model. `GPIO_BANKS` is the length of `gpioBase`. -/
structure Params where
  uartBase        : Nat
  gpioBase        : List Nat
  iocBase         : Nat
  addrWidth       : Nat
  srcClock        : Nat
  baud            : Nat
  fifoDepth       : Nat
  dlfSize         : Nat
  busyGuard       : Bool
  threModePresent : Bool
  iocRegSet       : List Nat
  launch          : LaunchState
  pollBound       : Option Nat
  pinmuxARole     : UartSignal
  deriving DecidableEq, Repr

/-- R10 `GPIO_BANKS`. -/
def Params.gpioBanks (p : Params) : Nat := p.gpioBase.length

/-- DESIGN CHOICE (log 3), unsafe: the parameters of State.reset. The values R10 names stand as named (24 MHz, 1,500,000,
`BUSY_GUARD` false, `POLL_BOUND` none); the OPEN ones are those of 95_test_vectors.md's conventions, with 0x000, the offset
of the opcode table's own IOC words, in `IOC_REG_SET` beside 0x02C; the bases are invented. -/
def Params.reference : Params where
  uartBase        := 0xFE660000
  gpioBase        := [0xFD8A0000, 0xFEC20000, 0xFEC30000, 0xFEC40000]
  iocBase         := 0xFD5F0000
  addrWidth       := 32
  srcClock        := 24000000
  baud            := 1500000
  fifoDepth       := 16
  dlfSize         := 0
  busyGuard       := false
  threModePresent := false
  iocRegSet       := [0x000, 0x02C]
  launch          := .reset
  pollBound       := none
  pinmuxARole     := .rx

/-- One step of one agent (00_scope.md R8, 44_uart_engines.md R600). -/
inductive AgentStep where
  /-- One transaction or one host-local statement of bus master `h`. -/
  | host (h : Nat)
  /-- R602. -/
  | txLoad
  /-- R603. -/
  | txDone
  /-- R606; the arguments are the environment's. -/
  | rxFrame (d : Byte) (pe fe bi : Bool)
  /-- R610. -/
  | rxTimeout
  /-- R611. -/
  | modemChange (cts dsr ri dcd : Bool)
  deriving DecidableEq, Repr, Inhabited

/-- What happens next: a step of an agent, or the event `HW_RESET` of 70_reset_and_hazards.md R1001. -/
inductive Event where
  | agent (a : AgentStep)
  | hwReset
  deriving DecidableEq, Repr

/-- R24 `draw_N`: the n-th draw is any value; a draw of N bits takes the low N bits of its 32 (log 2). -/
opaque Config.freeValue : Nat → Word

/-- The number that a host expression takes for a procedure's result that is no number: `some b` or `none` of `receive`
(46_driver_procedures.md R805), or `Timeout` (R813; here the outer `none`). The spec gives it none (log 13). -/
opaque Config.numberOf : Option (Option Byte) → Nat

/-- R600: the step chosen at the n-th free choice is any agent's, with any arguments of the environment (log 1). -/
opaque Config.schedule : Nat → AgentStep

end Sys2Proof
end

