-- ==== Sys2Proof/Syntax.lean ====
section
/-! DEFINITION. The transactions of spec/opcode_table.json, one constructor a row. A write carries WDATA (30_encoding.md
R300); a GPIO transaction carries its bank index and an IOC transaction its offset (R302). -/

namespace Sys2Proof

/-- A host transaction, decoded (30_encoding.md R304, R306, R307). -/
inductive Instr where
  | rdRbr
  | wrThr (v : Word)
  | rdDll
  | wrDll (v : Word)
  | rdIer
  | wrIer (v : Word)
  | rdDlh
  | wrDlh (v : Word)
  | rdIir
  | wrFcr (v : Word)
  | rdLcr
  | wrLcr (v : Word)
  | rdMcr
  | wrMcr (v : Word)
  | rdLsr
  | wrLsr (v : Word)
  | rdMsr
  | wrMsr (v : Word)
  | rdScr
  | wrScr (v : Word)
  | rdLpdll
  | wrLpdll (v : Word)
  | rdUsr
  | wrUsr (v : Word)
  | rdSrr
  | wrSrr (v : Word)
  | rdDlf
  | wrDlf (v : Word)
  | rdDrL (bank : BitVec 7)
  | wrDrL (bank : BitVec 7) (v : Word)
  | rdDrH (bank : BitVec 7)
  | wrDrH (bank : BitVec 7) (v : Word)
  | rdDdrL (bank : BitVec 7)
  | wrDdrL (bank : BitVec 7) (v : Word)
  | rdDdrH (bank : BitVec 7)
  | wrDdrH (bank : BitVec 7) (v : Word)
  | rdIoc (off : BitVec 12)
  | wrIoc (off : BitVec 12) (v : Word)
  deriving DecidableEq, Repr

end Sys2Proof
end

