-- ==== Sys2Proof/WellFormed.lean ====
section
/-! DEFINITION. When the parameters are those R10 allows, and when a transaction is one the decoder can give. -/

namespace Sys2Proof

/-- Two block regions of 0x1000 bytes share no address (20_memory.md R203, D47). -/
def disjointBlocks (a b : Nat) : Bool := a + 0x1000 ≤ b || b + 0x1000 ≤ a

/-- No two of the blocks with these bases overlap. -/
def allDisjoint : List Nat → Bool
  | [] => true
  | a :: rest => rest.all (disjointBlocks a) && allDisjoint rest

/-- The bases of all the blocks (60_exceptions.md R941). -/
def Params.bases (p : Params) : List Nat := p.uartBase :: p.iocBase :: p.gpioBase

/-- The offsets are word offsets inside the block, strictly rising. -/
def risingWordOffsets : List Nat → Bool
  | [] => true
  | [a] => a % 4 == 0 && decide (a < 0x1000)
  | a :: b :: rest => a % 4 == 0 && decide (a < b) && risingWordOffsets (b :: rest)

/-- The parameters the model admits. 00_scope.md R10 requires the bounds of FIFO_DEPTH, DLF_SIZE and ADDR_WIDTH, a bank at
least and 0x02C in IOC_REG_SET; 20_memory.md R203 that no blocks overlap. DESIGN CHOICE, of which the spec says nothing: a
POLL_BOUND of 0 is not admitted (log 24), nor are more banks than the 7-bit BANK field can name (log 26), a block base or an
IOC_REG_SET offset that no aligned access of the block reaches (log 34), or a block that ends above 2^ADDR_WIDTH (log 35). -/
def Params.wf (p : Params) : Bool :=
  decide (2 ≤ p.fifoDepth) &&
  decide (p.dlfSize ≤ 8) &&
  decide (1 ≤ p.gpioBanks) && decide (p.gpioBanks ≤ 128) &&
  p.iocRegSet.contains 0x02C && risingWordOffsets p.iocRegSet &&
  (p.addrWidth == 32 || p.addrWidth == 64) &&
  p.bases.all (fun b => b % 4 == 0 && decide (b + 0x1000 ≤ 2 ^ p.addrWidth)) &&
  allDisjoint p.bases &&
  p.pollBound != some 0

/-- The transaction is one that the decoder gives under these parameters and this DLAB (30_encoding.md R303 to R307): the
banked offsets agree with DLAB, the GPIO bank exists, the IOC offset is a register. -/
def Instr.wf (p : Params) (dlab : Bool) : Instr → Bool
  | .rdRbr | .wrThr _ | .rdIer | .wrIer _ => !dlab
  | .rdDll | .wrDll _ | .rdDlh | .wrDlh _ => dlab
  | .rdIir | .wrFcr _ | .rdLcr | .wrLcr _ | .rdMcr | .wrMcr _ | .rdLsr | .wrLsr _ | .rdMsr | .wrMsr _ => true
  | .rdScr | .wrScr _ | .rdLpdll | .wrLpdll _ | .rdUsr | .wrUsr _ | .rdSrr | .wrSrr _ | .rdDlf | .wrDlf _ => true
  | .rdDrL k | .rdDrH k | .rdDdrL k | .rdDdrH k => decide (k.toNat < p.gpioBanks)
  | .wrDrL k _ | .wrDrH k _ | .wrDdrL k _ | .wrDdrH k _ => decide (k.toNat < p.gpioBanks)
  | .rdIoc off | .wrIoc off _ => decide (off.toNat % 4 = 0) && p.iocRegSet.contains off.toNat

end Sys2Proof
end

