-- ==== Sys2Proof/Decode.lean ====
section
/-! DEFINITION. The transaction descriptor (30_encoding.md R300 to R309): its fields, the decoder, total on every
descriptor and rejecting by name, and the encoder. -/

namespace Sys2Proof

/-- Why a descriptor decodes to nothing: reasons 1 to 5 of 60_exceptions.md R900, each with T recorded. -/
inductive DecodeError where
  | unsupportedWidth (t : Word)
  | misaligned (t : Word)
  | reservedDescriptor (t : Word)
  | unmappedAddress (t : Word)
  | notModelledOffset (t : Word)
  deriving DecidableEq, Repr

/-! ### The fields of T (R301) -/

def Word.isWrite (t : Word) : Bool := t.getLsbD 31
def Word.blk (t : Word) : BitVec 2 := t.extractLsb' 29 2
def Word.sz (t : Word) : BitVec 2 := t.extractLsb' 27 2
def Word.bank (t : Word) : BitVec 7 := t.extractLsb' 20 7
def Word.reserved (t : Word) : BitVec 8 := t.extractLsb' 12 8
def Word.off (t : Word) : BitVec 12 := t.extractLsb' 0 12

/-- R301, assembled: W, BLK, SZ, BANK, the reserved zeros, OFF. -/
def descriptorOf (w : Bool) (blk sz : BitVec 2) (bank : BitVec 7) (off : BitVec 12) : Word :=
  BitVec.ofBool w ++ (blk ++ (sz ++ (bank ++ ((0 : BitVec 8) ++ off))))

/-! ### The maps -/

/-- R304, W = 0. -/
def uartReadAt (off : Nat) (dlab : Bool) : Option Instr :=
  match off with
  | 0x000 => some (if dlab then .rdDll else .rdRbr)
  | 0x004 => some (if dlab then .rdDlh else .rdIer)
  | 0x008 => some .rdIir
  | 0x00C => some .rdLcr
  | 0x010 => some .rdMcr
  | 0x014 => some .rdLsr
  | 0x018 => some .rdMsr
  | 0x01C => some .rdScr
  | 0x020 => some .rdLpdll
  | 0x07C => some .rdUsr
  | 0x088 => some .rdSrr
  | 0x0C0 => some .rdDlf
  | _ => none

/-- R304, W = 1. -/
def uartWriteAt (off : Nat) (dlab : Bool) (v : Word) : Option Instr :=
  match off with
  | 0x000 => some (if dlab then .wrDll v else .wrThr v)
  | 0x004 => some (if dlab then .wrDlh v else .wrIer v)
  | 0x008 => some (.wrFcr v)
  | 0x00C => some (.wrLcr v)
  | 0x010 => some (.wrMcr v)
  | 0x014 => some (.wrLsr v)
  | 0x018 => some (.wrMsr v)
  | 0x01C => some (.wrScr v)
  | 0x020 => some (.wrLpdll v)
  | 0x07C => some (.wrUsr v)
  | 0x088 => some (.wrSrr v)
  | 0x0C0 => some (.wrDlf v)
  | _ => none

/-- R304 and R558: an offset with no register is NOT_MODELLED_OFFSET below 0x100 and UNMAPPED_ADDRESS from there on. -/
def uartDecode (t : Word) (dlab : Bool) (wdata : Word) : Except DecodeError Instr :=
  match if t.isWrite then uartWriteAt t.off.toNat dlab wdata else uartReadAt t.off.toNat dlab with
  | some i => .ok i
  | none => if t.off.toNat < 0x100 then .error (.notModelledOffset t) else .error (.unmappedAddress t)

/-- R306, W = 0. -/
def gpioReadAt (off : Nat) (bank : BitVec 7) : Option Instr :=
  match off with
  | 0x0 => some (.rdDrL bank)
  | 0x4 => some (.rdDrH bank)
  | 0x8 => some (.rdDdrL bank)
  | 0xC => some (.rdDdrH bank)
  | _ => none

/-- R306, W = 1. -/
def gpioWriteAt (off : Nat) (bank : BitVec 7) (v : Word) : Option Instr :=
  match off with
  | 0x0 => some (.wrDrL bank v)
  | 0x4 => some (.wrDrH bank v)
  | 0x8 => some (.wrDdrL bank v)
  | 0xC => some (.wrDdrH bank v)
  | _ => none

/-- R306 and 45_gpio_iomux.md R710. -/
def gpioDecode (t : Word) (wdata : Word) : Except DecodeError Instr :=
  match if t.isWrite then gpioWriteAt t.off.toNat t.bank wdata else gpioReadAt t.off.toNat t.bank with
  | some i => .ok i
  | none => .error (.notModelledOffset t)

/-- R307 and 45_gpio_iomux.md R710. -/
def iocDecode (p : Params) (t : Word) (wdata : Word) : Except DecodeError Instr :=
  if p.iocRegSet.contains t.off.toNat then
    .ok (if t.isWrite then .wrIoc t.off wdata else .rdIoc t.off)
  else .error (.notModelledOffset t)

/-- R303, the decoding procedure, its checks in its order. `wdata` is the transaction's WDATA; a read has none and it is
not looked at. -/
def decode (p : Params) (dlab : Bool) (t wdata : Word) : Except DecodeError Instr :=
  if t.sz ≠ 0b10 then .error (.unsupportedWidth t)
  else if t.off.extractLsb' 0 2 ≠ 0 then .error (.misaligned t)
  else if t.blk = 0b11 ∨ t.reserved ≠ 0 then .error (.reservedDescriptor t)
  else if t.blk ≠ 0b01 ∧ t.bank ≠ 0 then .error (.reservedDescriptor t)
  else if t.blk = 0b00 then uartDecode t dlab wdata
  else if t.blk = 0b01 then
    if p.gpioBanks ≤ t.bank.toNat then .error (.unmappedAddress t) else gpioDecode t wdata
  else iocDecode p t wdata

/-- R300 on a list of words: the descriptor, then WDATA if it is a write. The words that follow are given back; `none` says
that the words end where the descriptor, or a write's WDATA, should stand. -/
def decodeWords (p : Params) (dlab : Bool) : List Word → Option (Except DecodeError Instr × List Word)
  | [] => none
  | t :: ws =>
    if t.isWrite then
      match ws with
      | [] => none
      | v :: rest => some (decode p dlab t v, rest)
    else some (decode p dlab t 0, ws)

/-! ### The encoder -/

def uartT (w : Bool) (off : BitVec 12) : Word := descriptorOf w 0b00 0b10 0 off
def gpioT (w : Bool) (bank : BitVec 7) (off : BitVec 12) : Word := descriptorOf w 0b01 0b10 bank off
def iocT (w : Bool) (off : BitVec 12) : Word := descriptorOf w 0b10 0b10 0 off

/-- The descriptor of a transaction (the last column of R304's table, R306, R307). -/
def Instr.descriptor : Instr → Word
  | .rdRbr => uartT false 0x000
  | .wrThr _ => uartT true 0x000
  | .rdDll => uartT false 0x000
  | .wrDll _ => uartT true 0x000
  | .rdIer => uartT false 0x004
  | .wrIer _ => uartT true 0x004
  | .rdDlh => uartT false 0x004
  | .wrDlh _ => uartT true 0x004
  | .rdIir => uartT false 0x008
  | .wrFcr _ => uartT true 0x008
  | .rdLcr => uartT false 0x00C
  | .wrLcr _ => uartT true 0x00C
  | .rdMcr => uartT false 0x010
  | .wrMcr _ => uartT true 0x010
  | .rdLsr => uartT false 0x014
  | .wrLsr _ => uartT true 0x014
  | .rdMsr => uartT false 0x018
  | .wrMsr _ => uartT true 0x018
  | .rdScr => uartT false 0x01C
  | .wrScr _ => uartT true 0x01C
  | .rdLpdll => uartT false 0x020
  | .wrLpdll _ => uartT true 0x020
  | .rdUsr => uartT false 0x07C
  | .wrUsr _ => uartT true 0x07C
  | .rdSrr => uartT false 0x088
  | .wrSrr _ => uartT true 0x088
  | .rdDlf => uartT false 0x0C0
  | .wrDlf _ => uartT true 0x0C0
  | .rdDrL k => gpioT false k 0x000
  | .wrDrL k _ => gpioT true k 0x000
  | .rdDrH k => gpioT false k 0x004
  | .wrDrH k _ => gpioT true k 0x004
  | .rdDdrL k => gpioT false k 0x008
  | .wrDdrL k _ => gpioT true k 0x008
  | .rdDdrH k => gpioT false k 0x00C
  | .wrDdrH k _ => gpioT true k 0x00C
  | .rdIoc off => iocT false off
  | .wrIoc off _ => iocT true off

/-- WDATA of a write; `none` for a read (R300). -/
def Instr.wdata : Instr → Option Word
  | .wrThr v | .wrDll v | .wrIer v | .wrDlh v | .wrFcr v | .wrLcr v | .wrMcr v | .wrLsr v | .wrMsr v | .wrScr v => some v
  | .wrLpdll v | .wrUsr v | .wrSrr v | .wrDlf v => some v
  | .wrDrL _ v | .wrDrH _ v | .wrDdrL _ v | .wrDdrH _ v | .wrIoc _ v => some v
  | .rdRbr | .rdDll | .rdIer | .rdDlh | .rdIir | .rdLcr | .rdMcr | .rdLsr | .rdMsr | .rdScr => none
  | .rdLpdll | .rdUsr | .rdSrr | .rdDlf | .rdDrL _ | .rdDrH _ | .rdDdrL _ | .rdDdrH _ | .rdIoc _ => none

/-- The words of a transaction: T, then WDATA for a write (R300). -/
def encode (i : Instr) : List Word := i.descriptor :: i.wdata.toList

/-- The parameters `decodeTableWord` decodes under: the word's own GPIO bank exists and its own IOC offset is a register, as
OPEN parameters of R10 allow, so that each word of a row with operand bits is read as that row (log 8). -/
def Params.admitting (bank off : Nat) : Params :=
  { Params.reference with gpioBase := List.replicate (bank + 1) 0, iocRegSet := [off] }

/-- The transaction the decoder reads from a row of the opcode table, at the DLAB of reset, 0 (log 8): bits 31..0 of `w`
are T and bits 63..32 WDATA, every bit from `nbits` on being 0. -/
def decodeTableWord (nbits w : Nat) : Option Instr :=
  let bits := w % 2 ^ nbits
  let t : Word := BitVec.ofNat 32 bits
  match decode (Params.admitting t.bank.toNat t.off.toNat) false t (BitVec.ofNat 32 (bits / 2 ^ 32)) with
  | .ok i => some i
  | .error _ => none

end Sys2Proof
end

