-- ==== Sys2Proof/Machine/Program.lean ====
section
/-! DEFINITION. Host programs as plain data: the operands, expressions and statements of 30_encoding.md R310 to R319 and
the calls of the driver procedures of R320. What they do is in Operands.lean, Procedures.lean and Master.lean. -/

namespace Sys2Proof.Machine

/-- A host variable, by number (10_state.md R132). -/
abbrev Var := Nat

/-- A label of a host program, by number (R310). -/
abbrev Label := Nat

/-- The host variable `TIMEOUT` of R315. -/
def timeoutVar : Var := 0

/-- What a host variable holds: a `u32`, a `Nat` (10_state.md R132), the `Option u8` that `receive` returns, or the result
`Timeout` of 46_driver_procedures.md R813. -/
inductive Val where
  | u32 (w : Word)
  | nat (n : Nat)
  | opt (b : Option Byte)
  | timeout
  deriving DecidableEq, Repr

/-- A host expression in `Nat` (00_scope.md R22; `2^e` and `-` as 46_driver_procedures.md R801 uses them, log 25; `trunc e` is
`trunc_32` of R21). -/
inductive NExpr where
  | lit (n : Nat)
  | var (x : Var)
  | add (a b : NExpr)
  | sub (a b : NExpr)
  | mul (a b : NExpr)
  | div (a b : NExpr)
  | mod (a b : NExpr)
  | pow2 (a : NExpr)
  | or (a b : NExpr)
  | and (a b : NExpr)
  | not (a : NExpr)
  | shl (a n : NExpr)
  | shr (a n : NExpr)
  | trunc (a : NExpr)
  deriving DecidableEq, Repr

/-- A host expression in `u32` (00_scope.md R22); `trunc e` is `trunc_32` of R21. -/
inductive UExpr where
  | lit (w : Word)
  | var (x : Var)
  | or (a b : UExpr)
  | and (a b : UExpr)
  | not (a : UExpr)
  | shl (a n : UExpr)
  | shr (a n : UExpr)
  | add (a b : UExpr)
  | mul (a b : UExpr)
  | div (a b : UExpr)
  | mod (a b : UExpr)
  | trunc (e : NExpr)
  deriving DecidableEq, Repr

/-- An address operand (R310), or the absolute address that `target(addr)` maps (46_driver_procedures.md R800). -/
inductive AddrOp where
  | uart (off : BitVec 12)
  | gpio (bank : BitVec 7) (off : BitVec 12)
  | ioc (off : BitVec 12)
  | absolute (addr : Nat)
  deriving DecidableEq, Repr

/-- The driver procedures of R320 with the host values they are called with. DESIGN CHOICE: a `bool` argument, to which no rule
converts a host value, is written `true` or `false` in the call (log 38). -/
inductive Proc where
  | bitRangeMask (high low : NExpr)
  | computeDivisor (srcClock baud : NExpr)
  | initUart (srcClock baud : NExpr)
  | transmit (b : UExpr)
  | receive
  | setInterruptEnable (en : Bool)
  | clearThenSet (addr : NExpr) (clearMask setMask : UExpr)
  | pinMuxRoute (addr : NExpr) (aBits aMask aShift bBits bMask bShift : UExpr)
  | iomuxUart7M2 (base : NExpr)
  | gpioSetOutput (bankBase pin : NExpr) (level : Bool)
  | gpioClearAll (bankBase : NExpr)
  deriving DecidableEq, Repr

/-- What a `ret` gives back (R319; `some(..)`, `none` and `Timeout` as 46_driver_procedures.md R805 and R813 use them). -/
inductive RetArg where
  | nothing
  | word (e : UExpr)
  | natural (e : NExpr)
  | someByte (e : UExpr)
  | noByte
  | timedOut
  | value (x : Var)
  deriving DecidableEq, Repr

/-- A host statement (R313 to R319); a mask is a value operand (R310, log 31). `txn` issues the transaction (T, WDATA) of R300
as it stands (log 10); `call` runs a driver procedure (R320, log 12) and puts what it returns in `dst`. -/
inductive Stmt where
  | rd (t : Var) (a : AddrOp)
  | wr (a : AddrOp) (e : UExpr)
  | poll (t : Var) (a : AddrOp) (m : UExpr)
  | letU (x : Var) (e : UExpr)
  | letN (x : Var) (e : NExpr)
  | bz (t : Var) (m : UExpr) (l : Label)
  | bnz (t : Var) (m : UExpr) (l : Label)
  | jmp (l : Label)
  | ret (r : RetArg)
  | halt
  | txn (t wdata : Word)
  | call (dst : Option Var) (p : Proc)
  deriving DecidableEq, Repr

/-- A statement with the label that may stand before it (R310). -/
structure Line where
  label : Option Label := none
  stmt  : Stmt
  deriving DecidableEq, Repr

/-- The statements of a body that has no label. -/
def unlabelled (l : List Stmt) : List Line := l.map fun s => { stmt := s }

/-- The number of the statement that a label stands before (R310, R311). -/
def labelIndex (l : Label) : List Line → Option Nat
  | [] => none
  | x :: rest => if x.label = some l then some 0 else (labelIndex l rest).map (· + 1)

/-- The labels a statement may transfer control to (R317, R318). -/
def Stmt.targets : Stmt → List Label
  | .bz _ _ l | .bnz _ _ l | .jmp l => [l]
  | .rd _ _ | .wr _ _ | .poll _ _ _ | .letU _ _ | .letN _ _ | .ret _ | .halt | .txn _ _ | .call _ _ => []

/-- A `poll` mask is non-zero (R315); a mask that is no literal is known when it is tested (log 31). -/
def Stmt.maskOk : Stmt → Bool
  | .poll _ _ m => m != .lit 0
  | .rd _ _ | .wr _ _ | .letU _ _ | .letN _ _ | .bz _ _ _ | .bnz _ _ _ | .jmp _ | .ret _ | .halt | .txn _ _ | .call _ _ => true

/-- The first label that a branch of the program names and no statement has. -/
def missingLabel (prog : List Line) : Option Label :=
  (prog.flatMap fun x => x.stmt.targets).find? fun l => labelIndex l prog == none

/-- A program may be formed: every branch has its label and every poll mask is non-zero (R315, R317). DESIGN CHOICE: a label
that stands before two statements, of which the spec says nothing, does not form a program (log 27). -/
def formed (prog : List Line) : Bool :=
  prog.all (fun x => x.stmt.maskOk && x.stmt.targets.all fun l => (labelIndex l prog).isSome) &&
  decide ((prog.filterMap (·.label)).Nodup)

end Sys2Proof.Machine
end

