-- ==== Sys2Proof/Machine/State.lean ====
section
/-! DEFINITION. Every piece of state the spec gives the machine (10_state.md), as plain data, and the state after reset
(70_reset_and_hazards.md R1000, R1001). -/

namespace Sys2Proof.Machine

/-- 44_uart_engines.md R604 `stop`. -/
inductive StopBits where
  | one
  | onePointFive
  | two
  deriving DecidableEq, Repr

/-- 44_uart_engines.md R604 `parity`. -/
inductive Parity where
  | none
  | odd
  | even
  | mark
  | space
  deriving DecidableEq, Repr

/-- A frame format (44_uart_engines.md R604). -/
structure Fmt where
  bits   : Nat
  stop   : StopBits
  parity : Parity
  deriving DecidableEq, Repr

/-- `RxEntry` of 10_state.md R122. -/
structure RxEntry where
  data : Byte
  pe   : Bool
  fe   : Bool
  bi   : Bool
  deriving DecidableEq, Repr

/-- `LineEvent` of 44_uart_engines.md R604. -/
inductive LineEvent where
  | char (data : Byte) (fmt : Fmt)
  | breakStart
  | breakEnd
  deriving DecidableEq, Repr

/-- The registers and the hidden state of the UART (10_state.md R103 to R111, R120 to R125). -/
structure Uart where
  dll       : Byte
  dlh       : Byte
  ier       : Byte
  lcr       : Byte
  mcr       : BitVec 7
  scr       : Byte
  lpdll     : Byte
  dlf       : Byte
  fifoe     : Bool
  dmam      : Bool
  tet       : BitVec 2
  rt        : BitVec 2
  txq       : List Byte
  tsrBusy   : Bool
  tsr       : Byte
  tsrFmt    : Fmt
  rxq       : List RxEntry
  oe        : Bool
  peS       : Bool
  feS       : Bool
  biS       : Bool
  dcts      : Bool
  ddsr      : Bool
  teri      : Bool
  ddcd      : Bool
  threIp    : Bool
  timeoutIp : Bool
  busyIp    : Bool
  deriving DecidableEq, Repr

/-- Four modem input levels, 1 = asserted (10_state.md R126). -/
structure ModemLines where
  cts : Bool
  dsr : Bool
  ri  : Bool
  dcd : Bool
  deriving DecidableEq, Repr

/-- The four registers of a GPIO bank (10_state.md R129). -/
structure GpioBank where
  drL  : Half
  drH  : Half
  ddrL : Half
  ddrH : Half
  deriving DecidableEq, Repr

/-- The block of an HLOG entry. -/
inductive Block where
  | uart
  | gpio (bank : BitVec 7)
  | ioc
  deriving DecidableEq, Repr

/-- The direction of an HLOG entry. -/
inductive Dir where
  | read
  | write
  deriving DecidableEq, Repr

/-- `Txn` of 10_state.md R127: one performed transaction; `value` is RDATA of a read and WDATA of a write. -/
structure Txn where
  agent  : Nat
  block  : Block
  offset : BitVec 12
  dir    : Dir
  value  : Word
  deriving DecidableEq, Repr

/-- A body suspended while a driver procedure it called runs (log 12). -/
structure Caller where
  body : List Line
  pc   : Nat
  vars : List (Nat × Val)
  dst  : Option Var
  deriving DecidableEq, Repr

/-- One bus master (10_state.md R132): the body it runs, `pc`, its variables, the reads the poll under way has made
(R315), the suspended bodies, whether it is halted (30_encoding.md R312), and what a top-level `ret` gave (R319). -/
structure HostCtx where
  body    : List Line
  pc      : Nat
  vars    : List (Nat × Val)
  polls   : Nat
  callers : List Caller
  halted  : Bool
  result  : Option Val
  deriving DecidableEq, Repr

/-- No behaviour of this hardware is a fault (93_implementation_defined.md section 1, 60_exceptions.md R903): nobody raises
one. -/
inductive Fault where
  deriving DecidableEq, Repr

/-- What UNMAPPED_ADDRESS records: T, or the address (60_exceptions.md R900). -/
inductive Place where
  | descriptor (t : Word)
  | address (addr : Nat)
  deriving DecidableEq, Repr

/-- The argument that ARG_OUT_OF_RANGE records (60_exceptions.md R900). -/
inductive ArgError where
  /-- `bit_range_mask` outside `low <= high <= 31` (46_driver_procedures.md R801). -/
  | bitRange (high low : Nat)
  /-- `compute_divisor` with baud = 0 (R802). -/
  | baudZero
  /-- `gpio_set_output` with pin > 31 (R810). -/
  | pin (n : Nat)
  /-- A write-mask procedure whose address argument leads to the UART (R800). -/
  | uartTarget (addr : Nat)
  /-- A host division or remainder by zero (30_encoding.md R316). DESIGN CHOICE: recorded is the dividend (log 41). -/
  | divisionByZero (dividend : Nat)
  deriving DecidableEq, Repr

/-- Why a procedure call is refused before its first transaction (60_exceptions.md R901): an argument, or an address in no
block (46_driver_procedures.md R800). -/
inductive CallError where
  | arg (what : ArgError)
  | unmapped (addr : Nat)
  deriving DecidableEq, Repr

/-- Why a run is refused: the reasons of 60_exceptions.md R900. A refused transaction has no effect (R901). All are safe:
the model stops where the spec gives no meaning. -/
inductive Refusal where
  /-- Raised by an arm of `exec` whose instruction has no meaning yet. Safe. -/
  | notModelled (mnemonic : String)
  /-- Code 1, raised by the decoder. Safe. -/
  | unsupportedWidth (t : Word)
  /-- Code 2, raised by the decoder. Safe. -/
  | misaligned (t : Word)
  /-- Code 3, raised by the decoder. Safe. -/
  | reservedDescriptor (t : Word)
  /-- Code 4, raised by the decoder, a GPIO transaction on a bank that is not there, an absolute address in no block. Safe. -/
  | unmappedAddress (p : Place)
  /-- Code 5, raised by the decoder and by an IOC transaction at an offset that is no register. Safe. -/
  | notModelledOffset (block : Block) (off : BitVec 12)
  /-- Code 6, raised by WR_LSR, WR_MSR and WR_USR. Safe. -/
  | writeReadOnly (off : BitVec 12)
  /-- Code 7, raised by WR_MCR with bit 5 or 6 of WDATA set. Safe. -/
  | valueNotAdmitted (wdata : Word)
  /-- Code 8, raised by a driver procedure's argument check and by a host expression; recorded are the statement (a call names
  its procedure) and the argument. Safe. -/
  | argOutOfRange (stmt : Stmt) (what : ArgError)
  /-- Raised by the load of a program that is not formed, and by a branch to a label its program does not have; recorded is
  the missing label, if that is why (30_encoding.md R317, log 14). Safe. -/
  | unformedProgram (l : Option Label)
  deriving DecidableEq, Repr

/-- The state of the machine. `inputs`, `ticks`, `draws`, `rdata` and `master` are the model's own (logs 1, 2, 10). -/
structure State where
  cfg    : Params
  uart   : Uart
  env    : ModemLines
  gpio   : List GpioBank
  ioc    : List (Nat × Half)
  txlog  : List LineEvent
  hlog   : List Txn
  rdata  : Word
  master : Nat
  hosts  : List HostCtx
  inputs : List Event
  ticks  : Nat
  draws  : Nat
  deriving DecidableEq, Repr

/-- 70_reset_and_hazards.md R1000; TSR and TSR_FMT, which the spec leaves unspecified and nothing reads while the shift
register is idle (10_state.md R121), are DESIGN CHOICE 0x00 and fmt(0x00) (log 7). -/
def Uart.reset : Uart where
  dll := 0
  dlh := 0
  ier := 0
  lcr := 0
  mcr := 0
  scr := 0
  lpdll := 0
  dlf := 0
  fifoe := false
  dmam := false
  tet := 0
  rt := 0
  txq := []
  tsrBusy := false
  tsr := 0
  tsrFmt := { bits := 5, stop := .one, parity := .none }
  rxq := []
  oe := false
  peS := false
  feS := false
  biS := false
  dcts := false
  ddsr := false
  teri := false
  ddcd := false
  threIp := false
  timeoutIp := false
  busyIp := false

/-- A bus master at statement 0 of a program (30_encoding.md R311). -/
def HostCtx.start (prog : List Line) : HostCtx where
  body := prog
  pc := 0
  vars := []
  polls := 0
  callers := []
  halted := false
  result := none

/-- The machine right after reset (70_reset_and_hazards.md R1001, R1003): one bus master with no program loaded (log 9).
DESIGN CHOICE, unsafe: the parameters (log 3), the GPIO and IOC registers (logs 4, 5), the modem inputs (log 6), rdata and
master (log 10), no event chosen yet (log 1), no free value used yet (log 2). -/
def State.reset : State where
  cfg := Params.reference
  uart := Uart.reset
  env := { cts := false, dsr := false, ri := false, dcd := false }
  gpio := List.replicate Params.reference.gpioBanks { drL := 0, drH := 0, ddrL := 0, ddrH := 0 }
  ioc := []
  txlog := []
  hlog := []
  rdata := 0
  master := 0
  hosts := [HostCtx.start []]
  inputs := []
  ticks := 0
  draws := 0

end Sys2Proof.Machine
end

