-- ==== Sys2Proof/Machine/Ops.lean ====
section
/-! DEFINITION. The shared operations over the state: sparse lists, draws, the derived quantities of 10_state.md R119 and
R128, the queues, the modem inputs, the write-mask update, the performed access, and the two reset operations. The hardware
takes no exception and returns from none (60_exceptions.md R921, R922), so there is no such operation here. -/

namespace Sys2Proof.Machine

/-! ### Sparse lists in canonical form: keys strictly rising, no entry equal to the default `d` an unlisted key reads as -/

section Sparse
variable {α : Type}

def sparseGet (d : α) (k : Nat) : List (Nat × α) → α
  | [] => d
  | (k', v) :: rest => if k = k' then v else sparseGet d k rest

def sparseSet [DecidableEq α] (d : α) (k : Nat) (v : α) : List (Nat × α) → List (Nat × α)
  | [] => if v = d then [] else [(k, v)]
  | (k', v') :: rest =>
    if k < k' then (if v = d then (k', v') :: rest else (k, v) :: (k', v') :: rest)
    else if k = k' then (if v = d then rest else (k, v) :: rest)
    else (k', v') :: sparseSet d k v rest

/-- Every key is above `k`. -/
def keysAbove (k : Nat) (m : List (Nat × α)) : Bool := m.all fun x => decide (k < x.1)

def sparseWf [DecidableEq α] (d : α) : List (Nat × α) → Bool
  | [] => true
  | (k, v) :: rest => decide (v ≠ d) && keysAbove k rest && sparseWf d rest

end Sparse

/-! ### Draws (00_scope.md R24, log 2) -/

/-- The `i`-th draw of this step, `n` bits wide. -/
def State.draw (s : State) (i n : Nat) : BitVec n := (Config.freeValue (s.draws + i)).setWidth n

/-- `n` draws have been used. -/
def State.drawn (n : Nat) (s : State) : State := { s with draws := s.draws + n }

/-! ### Derived quantities (10_state.md R119, R128) -/

def Uart.dlab (u : Uart) : Bool := u.lcr.getLsbD 7
def Uart.pen (u : Uart) : Bool := u.lcr.getLsbD 3
def Uart.bc (u : Uart) : Bool := u.lcr.getLsbD 6
def Uart.loop (u : Uart) : Bool := u.mcr.getLsbD 4

/-- `DIV = {DLH, DLL}`. -/
def Uart.div (u : Uart) : BitVec 16 := u.dlh ++ u.dll

/-- `5 + LCR[1:0]`. -/
def dataBitsOf (lcr : Byte) : Nat := 5 + (lcr.extractLsb' 0 2).toNat

/-- `2^n - 1` in 8 bits: DMASK for n = DATA_BITS, and the mask of 44_uart_engines.md R603. -/
def lowMask (n : Nat) : Byte := BitVec.ofNat 8 (2 ^ n - 1)

def Uart.dmask (u : Uart) : Byte := lowMask (dataBitsOf u.lcr)

/-- R119. -/
def txcap (p : Params) (u : Uart) : Nat := if u.fifoe then p.fifoDepth else 1
/-- R119. -/
def rxcap (p : Params) (u : Uart) : Nat := if u.fifoe then p.fifoDepth else 1

/-- `IER_MASK` of 10_state.md R105. -/
def ierMask (p : Params) : Byte := if p.threModePresent then 0x8F else 0x0F

/-- `fmt(lcr)` of 44_uart_engines.md R604. -/
def fmtOf (lcr : Byte) : Fmt where
  bits := dataBitsOf lcr
  stop :=
    if lcr.getLsbD 2 = false then .one
    else if lcr.extractLsb' 0 2 = 0b00 then .onePointFive
    else .two
  parity :=
    if lcr.getLsbD 3 = false then .none
    else if lcr.getLsbD 5 then (if lcr.getLsbD 4 then .space else .mark)
    else (if lcr.getLsbD 4 then .even else .odd)

/-! ### The queues -/

/-- 44_uart_engines.md R608 `head_arrival`. -/
def headArrival (e : RxEntry) (u : Uart) : Uart :=
  { u with peS := u.peS || e.pe, feS := u.feS || e.fe, biS := u.biS || e.bi }

/-- 44_uart_engines.md R606 `push_rx`. -/
def pushRx (p : Params) (e : RxEntry) (u : Uart) : Uart :=
  let u := { u with timeoutIp := false }
  if u.rxq.length < rxcap p u then
    let v := { u with rxq := u.rxq ++ [e] }
    if u.rxq = [] then headArrival e v else v
  else
    let v := { u with oe := true }
    if u.fifoe then v else headArrival e { v with rxq := [e] }

/-- The RX reset of 41_uart_line_control.md R451 and 43_uart_dw_extensions.md R555. -/
def clearRx (u : Uart) : Uart := { u with rxq := [], timeoutIp := false }

/-- The TX reset of the same rules. -/
def clearTx (u : Uart) : Uart := { u with txq := [] }

/-- Decision D38 as R451 and R555 apply it: `old` is the UART before the queues were emptied. -/
def raiseThreIfEmptied (old u : Uart) : Uart :=
  if old.txq ≠ [] ∧ u.txq = [] then { u with threIp := true } else u

/-- The THR write of 40_uart_banked.md R401. -/
def enqueueTx (p : Params) (b : Byte) (u : Uart) : Uart :=
  let u := { u with threIp := false }
  if u.txq.length < txcap p u then { u with txq := u.txq ++ [b] }
  else if u.fifoe then u
  else { u with txq := [b] }

/-- The pop of 40_uart_banked.md R400. -/
def popRx (rest : List RxEntry) (u : Uart) : Uart :=
  let u := { u with rxq := rest, timeoutIp := false }
  match rest with
  | [] => u
  | e :: _ => headArrival e u

/-! ### Modem inputs (44_uart_engines.md R612) -/

def effModem (env : ModemLines) (u : Uart) : ModemLines :=
  if u.loop then
    { cts := u.mcr.getLsbD 1, dsr := u.mcr.getLsbD 0, ri := u.mcr.getLsbD 2, dcd := u.mcr.getLsbD 3 }
  else env

def updateDeltas (o n : ModemLines) (u : Uart) : Uart :=
  { u with
    dcts := u.dcts || (o.cts != n.cts)
    ddsr := u.ddsr || (o.dsr != n.dsr)
    teri := u.teri || (o.ri && !n.ri)
    ddcd := u.ddcd || (o.dcd != n.dcd) }

/-! ### Busy (40_uart_banked.md R408) -/

/-- The transmitter has work (10_state.md R116). -/
def Uart.txBusy (u : Uart) : Bool := u.tsrBusy || !u.txq.isEmpty

/-- `busy_now`; the draw stands for receiver activity. -/
def State.busyNow (s : State) : Bool := s.uart.txBusy || (s.draw 0 1).getLsbD 0

/-- The number of draws `busy_now` uses. -/
def Uart.busyDraws (u : Uart) : Nat := if u.txBusy then 0 else 1

/-! ### Write-mask registers (45_gpio_iomux.md R700) -/

/-- `wm_update(reg, v)`. -/
def wmUpdate (reg : Half) (v : Word) : Half :=
  (reg &&& ~~~(v.extractLsb' 16 16)) ||| (v.extractLsb' 0 16 &&& v.extractLsb' 16 16)

/-! ### The performed access (20_memory.md R208, R212; 00_scope.md R25) -/

/-- Append one performed transaction of the current bus master to HLOG. -/
def State.logTxn (b : Block) (off : BitVec 12) (d : Dir) (v : Word) (s : State) : State :=
  { s with hlog := s.hlog ++ [{ agent := s.master, block := b, offset := off, dir := d, value := v }] }

/-- A read completes with RDATA `v`. -/
def State.readOk (b : Block) (off : BitVec 12) (v : Word) (s : State) : Host.Outcome State Fault Refusal :=
  .next ({ s with rdata := v }.logTxn b off .read v)

/-- A write of WDATA `v` completes. -/
def State.writeOk (b : Block) (off : BitVec 12) (v : Word) (s : State) : Host.Outcome State Fault Refusal :=
  .next (s.logTxn b off .write v)

/-- Replace the UART's registers and hidden state. -/
def State.withUart (u : Uart) (s : State) : State := { s with uart := u }

/-- Append an event to TXLOG (44_uart_engines.md R603, R605). -/
def State.logLine (e : LineEvent) (s : State) : State := { s with txlog := s.txlog ++ [e] }

/-- 44_uart_engines.md R605: the break event of a change of LCR.BC from `old` to `new`. -/
def State.logBreak (old new : Bool) (s : State) : State :=
  match old, new with
  | false, true => s.logLine .breakStart
  | true, false => s.logLine .breakEnd
  | false, false | true, true => s

/-- A read of a stored register of the UART that has no side effect. -/
def State.readStored (off : BitVec 12) (v : Byte) (s : State) : Host.Outcome State Fault Refusal :=
  s.readOk .uart off (v.setWidth 32)

/-- A write that only replaces the UART's state. -/
def State.writeUart (off : BitVec 12) (v : Word) (u : Uart) (s : State) : Host.Outcome State Fault Refusal :=
  (s.withUart u).writeOk .uart off v

/-- A read of a GPIO register: the stored half in bits 15:0, any value above (45_gpio_iomux.md R705 to R708). -/
def State.readGpio (k : BitVec 7) (off : BitVec 12) (reg : GpioBank → Half) (s : State) :
    Host.Outcome State Fault Refusal :=
  match s.gpio[k.toNat]? with
  | some b => (s.drawn 1).readOk (.gpio k) off (s.draw 0 16 ++ reg b)
  | none => .refused (.unmappedAddress (.descriptor (gpioT false k off)))

/-- A write of a GPIO register of bank `k` (R701 to R704). -/
def State.writeGpio (k : BitVec 7) (off : BitVec 12) (v : Word) (upd : GpioBank → GpioBank) (s : State) :
    Host.Outcome State Fault Refusal :=
  match s.gpio[k.toNat]? with
  | some b => { s with gpio := s.gpio.set k.toNat (upd b) }.writeOk (.gpio k) off v
  | none => .refused (.unmappedAddress (.descriptor (gpioT true k off)))

/-- `IOC[off]`. -/
def State.iocReg (s : State) (off : BitVec 12) : Half := sparseGet 0 off.toNat s.ioc

/-- `IOC[off] <- h`. -/
def State.setIocReg (off : BitVec 12) (h : Half) (s : State) : State :=
  { s with ioc := sparseSet 0 off.toNat h s.ioc }

/-! ### Reset (70_reset_and_hazards.md) -/

/-- R1000 `uart_reset()`: every UART element at its reset value, TSR and TSR_FMT at any value (10_state.md R121), and
`BreakEnd` logged if the line was in break. -/
def uartReset (s : State) : State :=
  { s.logBreak s.uart.bc false with
    uart := { Uart.reset with tsr := s.draw 0 8, tsrFmt := fmtOf (s.draw 1 8) }
    draws := s.draws + 2 }

/-- Four draws for the registers of a bank, from the `i`-th on (R1002). -/
def drawnBank (s : State) (i : Nat) : GpioBank :=
  { drL := s.draw i 16, drH := s.draw (i + 1) 16, ddrL := s.draw (i + 2) 16, ddrH := s.draw (i + 3) 16 }

/-- Any values for `n` banks (R1002). -/
def drawnBanks (s : State) (i : Nat) : Nat → List GpioBank
  | 0 => []
  | n + 1 => drawnBank s i :: drawnBanks s (i + 4) n

/-- Any value for each IOC register (R1002). -/
def drawnIoc (s : State) (i : Nat) : List Nat → List (Nat × Half) → List (Nat × Half)
  | [], m => m
  | off :: rest, m => drawnIoc s (i + 1) rest (sparseSet 0 off (s.draw i 16) m)

/-- R1001 `HW_RESET`: `uart_reset()`, then any value in every GPIO and IOC register. -/
def hwReset (s : State) : State :=
  let t := uartReset s
  { t with
    gpio := drawnBanks t 0 t.cfg.gpioBanks
    ioc := drawnIoc t (4 * t.cfg.gpioBanks) t.cfg.iocRegSet []
    draws := t.draws + 4 * t.cfg.gpioBanks + t.cfg.iocRegSet.length }

end Sys2Proof.Machine
end

