-- ==== Sys2Proof/Machine/Flags.lean ====
section
/-! DEFINITION. Every status view, interrupt condition and output, computed from state: IIR, LSR, MSR, USR (10_state.md
R112 to R116), the interrupt identification and request (60_exceptions.md R911 to R917), the modem outputs and the serial
output (44_uart_engines.md R605, R613), the GPIO pins (10_state.md R130), the pin multiplexer (45_gpio_iomux.md R709), and
the informative rates (44_uart_engines.md R601, 70_reset_and_hazards.md R1022). -/

namespace Sys2Proof.Machine

/-- Eight bits, the most significant first (00_scope.md R20). -/
def byteOf (b7 b6 b5 b4 b3 b2 b1 b0 : Bool) : Byte :=
  BitVec.ofBool b7 ++ BitVec.ofBool b6 ++ BitVec.ofBool b5 ++ BitVec.ofBool b4 ++ BitVec.ofBool b3 ++ BitVec.ofBool b2 ++
    BitVec.ofBool b1 ++ BitVec.ofBool b0

/-! ### LSR (10_state.md R114) -/

def Uart.dr (u : Uart) : Bool := !u.rxq.isEmpty

/-- With FIFOE and PTIME set: the TX FIFO is full; else: it is empty. -/
def thre (p : Params) (u : Uart) : Bool :=
  if u.fifoe && u.ier.getLsbD 7 then u.txq.length == txcap p u else u.txq.isEmpty

def Uart.temt (u : Uart) : Bool := u.txq.isEmpty && !u.tsrBusy

def Uart.rfe (u : Uart) : Bool := u.fifoe && u.rxq.any fun e => e.pe || e.fe || e.bi

def lsr (p : Params) (u : Uart) : Byte := byteOf u.rfe u.temt (thre p u) u.biS u.feS u.peS u.oe u.dr

/-! ### MSR (10_state.md R115) -/

def msr (env : ModemLines) (u : Uart) : Byte :=
  let e := effModem env u
  byteOf e.dcd e.ri e.dsr e.cts u.ddcd u.teri u.ddsr u.dcts

/-! ### USR (10_state.md R116) -/

/-- `idleBusy` is what BUSY reads while the transmitter is idle: any value (D41). -/
def usr (p : Params) (u : Uart) (idleBusy : Bool) : Byte :=
  byteOf false false false (u.rxq.length == rxcap p u) (!u.rxq.isEmpty) u.txq.isEmpty (decide (u.txq.length < txcap p u))
    (u.txBusy || idleBusy)

/-! ### Interrupts (60_exceptions.md R911, R916, R917) -/

/-- `trigger(RT)` of R911. -/
def trigger (p : Params) (rt : BitVec 2) : Nat :=
  if rt = 0b00 then 1
  else if rt = 0b01 then max 1 (p.fifoDepth / 4)
  else if rt = 0b10 then max 1 (p.fifoDepth / 2)
  else max 1 (p.fifoDepth - 2)

/-- Receiver line status pending. -/
def Uart.rlsPending (u : Uart) : Bool := u.oe || u.peS || u.feS || u.biS

/-- Received data available pending. -/
def rdaPending (p : Params) (u : Uart) : Bool :=
  if u.fifoe then decide (trigger p u.rt ≤ u.rxq.length) else !u.rxq.isEmpty

/-- Modem status pending. -/
def Uart.msPending (u : Uart) : Bool := u.dcts || u.ddsr || u.teri || u.ddcd

/-- R916 `iid()`. -/
def iid (p : Params) (u : Uart) : BitVec 4 :=
  if u.ier.getLsbD 2 && u.rlsPending then 0b0110
  else if u.ier.getLsbD 0 && rdaPending p u then 0b0100
  else if u.ier.getLsbD 0 && u.fifoe && u.timeoutIp then 0b1100
  else if u.ier.getLsbD 1 && u.threIp then 0b0010
  else if u.ier.getLsbD 3 && u.msPending then 0b0000
  else if u.busyIp then 0b0111
  else 0b0001

/-- R917, the interrupt request output. -/
def State.intr (s : State) : Bool := iid s.cfg s.uart != 0b0001

/-- IIR (10_state.md R112): FIFOSE, 00, IID. -/
def iir (p : Params) (u : Uart) : Byte :=
  (if u.fifoe then (0b11 : BitVec 2) else 0b00) ++ ((0b00 : BitVec 2) ++ iid p u)

/-! ### Outputs -/

/-- The modem output levels (44_uart_engines.md R613). -/
structure ModemOutputs where
  dtr  : Bool
  rts  : Bool
  out1 : Bool
  out2 : Bool
  deriving DecidableEq, Repr

def Uart.outputs (u : Uart) : ModemOutputs where
  dtr := u.mcr.getLsbD 0 && !u.loop
  rts := u.mcr.getLsbD 1 && !u.loop
  out1 := u.mcr.getLsbD 2 && !u.loop
  out2 := u.mcr.getLsbD 3 && !u.loop

/-- The serial output while no character is on it: 0 in break, else 1 (44_uart_engines.md R604, R605; log 16). -/
def Uart.lineIdleLevel (u : Uart) : Bool := !u.bc

/-- The characters of a TXLOG that the remote end receives: those not between `BreakStart` and `BreakEnd` (R605).
`inBreak` says whether the line is in break at the list's start. -/
def heardBy (inBreak : Bool) : List LineEvent → List (Byte × Fmt)
  | [] => []
  | .breakStart :: rest => heardBy true rest
  | .breakEnd :: rest => heardBy false rest
  | .char d f :: rest => if inBreak then heardBy inBreak rest else (d, f) :: heardBy inBreak rest

/-! ### GPIO pins (10_state.md R130) and the pin multiplexer (45_gpio_iomux.md R709) -/

/-- Pin `p` of the bank is an output. -/
def GpioBank.isOutput (b : GpioBank) (p : Nat) : Bool :=
  if p < 16 then b.ddrL.getLsbD p else b.ddrH.getLsbD (p - 16)

/-- The level pin `p` drives; `none` for an input pin, to which the spec gives no value. -/
def GpioBank.drives (b : GpioBank) (p : Nat) : Option Bool :=
  if b.isOutput p then some (if p < 16 then b.drL.getLsbD p else b.drH.getLsbD (p - 16)) else none

/-- The mux selector of a UART signal: field [3:0] of IOC offset 0x02C is the signal PINMUX_A_ROLE names, field [7:4] the
other. -/
def State.selector (s : State) (sig : UartSignal) : BitVec 4 :=
  if sig = s.cfg.pinmuxARole then (s.iocReg 0x02C).extractLsb' 0 4 else (s.iocReg 0x02C).extractLsb' 4 4

/-- Selector value 10 routes the signal to its pin. -/
def State.routed (s : State) (sig : UartSignal) : Bool := s.selector sig == 10

/-! ### Rates, informative: no step reads them -/

/-- The bit rate `SRC_CLOCK / (16 * (DIV + DLF / 2^DLF_SIZE))` (44_uart_engines.md R601); none while DIV = 0. -/
def bitRate (p : Params) (u : Uart) : Option Rat :=
  if u.div = 0 then none
  else some (p.srcClock / (16 * (u.div.toNat + u.dlf.toNat / 2 ^ p.dlfSize)))

def StopBits.bitTimes : StopBits → Rat
  | .one => 1
  | .onePointFive => 3 / 2
  | .two => 2

/-- How long a character of this format lasts, in seconds (70_reset_and_hazards.md R1022). -/
def charTime (p : Params) (u : Uart) (f : Fmt) : Option Rat :=
  (bitRate p u).map fun r => (1 + f.bits + (if f.parity = .none then 0 else 1) + f.stop.bitTimes) / r

end Sys2Proof.Machine
end

