-- ==== Sys2Proof/Machine/Banked.lean ====
section
/-! DEFINITION. Offsets 0x000 and 0x004 (40_uart_banked.md R400 to R408). Which of the two meanings of an offset applies is
the decoder's (10_state.md R101). -/

namespace Sys2Proof.Machine

/-- R400 RD_RBR: pop the head; bits 31:8 are any value, and with no character so are bits 7:0. -/
def execRdRbr (s : State) : Host.Outcome State Fault Refusal :=
  match s.uart.rxq with
  | e :: rest => ((s.withUart (popRx rest s.uart)).drawn 1).readOk .uart 0x000 (s.draw 0 24 ++ e.data)
  | [] => (s.drawn 2).readOk .uart 0x000 (s.draw 0 24 ++ s.draw 1 8)

/-- R401 WR_THR. -/
def execWrThr (v : Word) (s : State) : Host.Outcome State Fault Refusal :=
  s.writeUart 0x000 v (enqueueTx s.cfg (v.setWidth 8) s.uart)

/-- R402 RD_DLL. -/
def execRdDll (s : State) : Host.Outcome State Fault Refusal := s.readStored 0x000 s.uart.dll

/-- The busy guard of R403, R407 and 41_uart_line_control.md R453: whether the write is ignored. -/
def State.guarded (s : State) : Bool := s.cfg.busyGuard && s.busyNow

/-- The draws the busy guard used. -/
def State.guardDraws (s : State) : Nat := if s.cfg.busyGuard then s.uart.busyDraws else 0

/-- R403 WR_DLL. -/
def execWrDll (v : Word) (s : State) : Host.Outcome State Fault Refusal :=
  (s.drawn s.guardDraws).writeUart 0x000 v
    (if s.guarded then s.uart else { s.uart with dll := v.setWidth 8 })

/-- R404 RD_IER. -/
def execRdIer (s : State) : Host.Outcome State Fault Refusal := s.readStored 0x004 s.uart.ier

/-- R405 WR_IER: the whole register is replaced; enabling ETBEI with an empty TXQ sets THRE_IP. -/
def execWrIer (v : Word) (s : State) : Host.Outcome State Fault Refusal :=
  let new := v.setWidth 8 &&& ierMask s.cfg
  s.writeUart 0x004 v
    { s.uart with
      ier := new
      threIp := s.uart.threIp || (!s.uart.ier.getLsbD 1 && new.getLsbD 1 && s.uart.txq.isEmpty) }

/-- R406 RD_DLH. -/
def execRdDlh (s : State) : Host.Outcome State Fault Refusal := s.readStored 0x004 s.uart.dlh

/-- R407 WR_DLH. -/
def execWrDlh (v : Word) (s : State) : Host.Outcome State Fault Refusal :=
  (s.drawn s.guardDraws).writeUart 0x004 v
    (if s.guarded then s.uart else { s.uart with dlh := v.setWidth 8 })

end Sys2Proof.Machine
end

