-- ==== Sys2Proof/Machine/Extensions.lean ====
section
/-! DEFINITION. The DesignWare registers (43_uart_dw_extensions.md R550 to R557). -/

namespace Sys2Proof.Machine

/-- R550 RD_LPDLL. -/
def execRdLpdll (s : State) : Host.Outcome State Fault Refusal := s.readStored 0x020 s.uart.lpdll

/-- R551 WR_LPDLL. -/
def execWrLpdll (v : Word) (s : State) : Host.Outcome State Fault Refusal :=
  s.writeUart 0x020 v { s.uart with lpdll := v.setWidth 8 }

/-- R552 RD_USR: BUSY is a draw while the transmitter is idle; BUSY_IP is cleared. -/
def execRdUsr (s : State) : Host.Outcome State Fault Refusal :=
  ((s.withUart { s.uart with busyIp := false }).drawn s.uart.busyDraws).readStored 0x07C
    (usr s.cfg s.uart ((s.draw 0 1).getLsbD 0))

/-- R553 WR_USR: refused. -/
def execWrUsr (_v : Word) (_s : State) : Host.Outcome State Fault Refusal := .refused (.writeReadOnly 0x07C)

/-- R554 RD_SRR. -/
def execRdSrr (s : State) : Host.Outcome State Fault Refusal := s.readStored 0x088 0

/-- R555, UR = 0: the FIFO resets. -/
def softFifoReset (v : Word) (u : Uart) : Uart :=
  let u1 := if v.getLsbD 1 then clearRx u else u
  if v.getLsbD 2 then clearTx u1 else u1

/-- R555 WR_SRR. -/
def execWrSrr (v : Word) (s : State) : Host.Outcome State Fault Refusal :=
  if v.getLsbD 0 then (uartReset s).writeOk .uart 0x088 v
  else s.writeUart 0x088 v (raiseThreIfEmptied s.uart (softFifoReset v s.uart))

/-- R556 RD_DLF. -/
def execRdDlf (s : State) : Host.Outcome State Fault Refusal := s.readStored 0x0C0 s.uart.dlf

/-- R557 WR_DLF: the DLF_SIZE implemented bits. -/
def execWrDlf (v : Word) (s : State) : Host.Outcome State Fault Refusal :=
  s.writeUart 0x0C0 v { s.uart with dlf := v.setWidth 8 &&& lowMask s.cfg.dlfSize }

end Sys2Proof.Machine
end

