-- ==== Sys2Proof/Machine/Gpio.lean ====
section
/-! DEFINITION. The GPIO banks and the IOC block (45_gpio_iomux.md R700 to R712). -/

namespace Sys2Proof.Machine

/-- R705 RD_DR_L. -/
def execRdDrL (bank : BitVec 7) (s : State) : Host.Outcome State Fault Refusal := s.readGpio bank 0x000 (·.drL)

/-- R701 WR_DR_L. -/
def execWrDrL (bank : BitVec 7) (v : Word) (s : State) : Host.Outcome State Fault Refusal :=
  s.writeGpio bank 0x000 v fun b => { b with drL := wmUpdate b.drL v }

/-- R706 RD_DR_H. -/
def execRdDrH (bank : BitVec 7) (s : State) : Host.Outcome State Fault Refusal := s.readGpio bank 0x004 (·.drH)

/-- R702 WR_DR_H. -/
def execWrDrH (bank : BitVec 7) (v : Word) (s : State) : Host.Outcome State Fault Refusal :=
  s.writeGpio bank 0x004 v fun b => { b with drH := wmUpdate b.drH v }

/-- R707 RD_DDR_L. -/
def execRdDdrL (bank : BitVec 7) (s : State) : Host.Outcome State Fault Refusal := s.readGpio bank 0x008 (·.ddrL)

/-- R703 WR_DDR_L. -/
def execWrDdrL (bank : BitVec 7) (v : Word) (s : State) : Host.Outcome State Fault Refusal :=
  s.writeGpio bank 0x008 v fun b => { b with ddrL := wmUpdate b.ddrL v }

/-- R708 RD_DDR_H. -/
def execRdDdrH (bank : BitVec 7) (s : State) : Host.Outcome State Fault Refusal := s.readGpio bank 0x00C (·.ddrH)

/-- R704 WR_DDR_H. -/
def execWrDdrH (bank : BitVec 7) (v : Word) (s : State) : Host.Outcome State Fault Refusal :=
  s.writeGpio bank 0x00C v fun b => { b with ddrH := wmUpdate b.ddrH v }

/-- R712 RD_IOC; an offset that is no register is NOT_MODELLED_OFFSET (R710). -/
def execRdIoc (off : BitVec 12) (s : State) : Host.Outcome State Fault Refusal :=
  if s.cfg.iocRegSet.contains off.toNat then (s.drawn 1).readOk .ioc off (s.draw 0 16 ++ s.iocReg off)
  else .refused (.notModelledOffset .ioc off)

/-- R711 WR_IOC. -/
def execWrIoc (off : BitVec 12) (v : Word) (s : State) : Host.Outcome State Fault Refusal :=
  if s.cfg.iocRegSet.contains off.toNat then
    (s.setIocReg off (wmUpdate (s.iocReg off) v)).writeOk .ioc off v
  else .refused (.notModelledOffset .ioc off)

end Sys2Proof.Machine
end

