-- ==== Sys2Proof/Machine/LineControl.lean ====
section
/-! DEFINITION. Offsets 0x008 and 0x00C (41_uart_line_control.md R450 to R453). -/

namespace Sys2Proof.Machine

/-- R450 RD_IIR: a read that reports the THR-empty interrupt clears THRE_IP. -/
def execRdIir (s : State) : Host.Outcome State Fault Refusal :=
  let u := if iid s.cfg s.uart = 0b0010 then { s.uart with threIp := false } else s.uart
  (s.withUart u).readStored 0x008 (iir s.cfg s.uart)

/-- R451: the FIFO mode, the two queue resets and the stored fields of an FCR write. -/
def writeFcr (v : Word) (u : Uart) : Uart :=
  let u1 := if v.getLsbD 0 ≠ u.fifoe then clearTx (clearRx u) else u
  let u2 := { u1 with fifoe := v.getLsbD 0 }
  let u3 := if v.getLsbD 1 then clearRx u2 else u2
  let u4 := if v.getLsbD 2 then clearTx u3 else u3
  { u4 with dmam := v.getLsbD 3, tet := v.extractLsb' 4 2, rt := v.extractLsb' 6 2 }

/-- R451 WR_FCR. -/
def execWrFcr (v : Word) (s : State) : Host.Outcome State Fault Refusal :=
  s.writeUart 0x008 v (raiseThreIfEmptied s.uart (writeFcr v s.uart))

/-- R452 RD_LCR. -/
def execRdLcr (s : State) : Host.Outcome State Fault Refusal := s.readStored 0x00C s.uart.lcr

/-- R453 WR_LCR, with the break event of 44_uart_engines.md R605 when bit 6 changes. A guarded write is ignored and raises
BUSY_IP. -/
def execWrLcr (v : Word) (s : State) : Host.Outcome State Fault Refusal :=
  if s.guarded then (s.drawn s.guardDraws).writeUart 0x00C v { s.uart with busyIp := true }
  else
    ((s.drawn s.guardDraws).logBreak s.uart.bc (v.getLsbD 6)).writeUart 0x00C v
      { s.uart with lcr := v.setWidth 8 }

end Sys2Proof.Machine
end

