-- ==== Sys2Proof/Machine/Modem.lean ====
section
/-! DEFINITION. Offsets 0x010 to 0x01C (42_uart_modem_status.md R500 to R507). -/

namespace Sys2Proof.Machine

/-- R500 RD_MCR. -/
def execRdMcr (s : State) : Host.Outcome State Fault Refusal := s.readStored 0x010 (s.uart.mcr.setWidth 8)

/-- R501 WR_MCR: bits 5 and 6 are not admitted; the deltas follow the effective modem inputs. -/
def execWrMcr (v : Word) (s : State) : Host.Outcome State Fault Refusal :=
  if v.getLsbD 5 || v.getLsbD 6 then .refused (.valueNotAdmitted v)
  else
    let u := { s.uart with mcr := v.setWidth 7 }
    s.writeUart 0x010 v (updateDeltas (effModem s.env s.uart) (effModem s.env u) u)

/-- R502 RD_LSR: the four error bits are cleared. -/
def execRdLsr (s : State) : Host.Outcome State Fault Refusal :=
  (s.withUart { s.uart with oe := false, peS := false, feS := false, biS := false }).readStored 0x014
    (lsr s.cfg s.uart)

/-- R503 WR_LSR: refused. -/
def execWrLsr (_v : Word) (_s : State) : Host.Outcome State Fault Refusal := .refused (.writeReadOnly 0x014)

/-- R504 RD_MSR: the four delta bits are cleared. -/
def execRdMsr (s : State) : Host.Outcome State Fault Refusal :=
  (s.withUart { s.uart with dcts := false, ddsr := false, teri := false, ddcd := false }).readStored 0x018
    (msr s.env s.uart)

/-- R505 WR_MSR: refused. -/
def execWrMsr (_v : Word) (_s : State) : Host.Outcome State Fault Refusal := .refused (.writeReadOnly 0x018)

/-- R506 RD_SCR. -/
def execRdScr (s : State) : Host.Outcome State Fault Refusal := s.readStored 0x01C s.uart.scr

/-- R507 WR_SCR. -/
def execWrScr (v : Word) (s : State) : Host.Outcome State Fault Refusal :=
  s.writeUart 0x01C v { s.uart with scr := v.setWidth 8 }

end Sys2Proof.Machine
end

