-- ==== Sys2Proof/Machine/Dispatch.lean ====
section
/-! DEFINITION. What each transaction does: one arm an instruction. -/

namespace Sys2Proof.Machine

def exec (i : Instr) (s : State) : Host.Outcome State Fault Refusal :=
  match i with
  | .rdRbr => Sys2Proof.Machine.execRdRbr s
  | .wrThr v => Sys2Proof.Machine.execWrThr v s
  | .rdDll => Sys2Proof.Machine.execRdDll s
  | .wrDll v => Sys2Proof.Machine.execWrDll v s
  | .rdIer => Sys2Proof.Machine.execRdIer s
  | .wrIer v => Sys2Proof.Machine.execWrIer v s
  | .rdDlh => Sys2Proof.Machine.execRdDlh s
  | .wrDlh v => Sys2Proof.Machine.execWrDlh v s
  | .rdIir => Sys2Proof.Machine.execRdIir s
  | .wrFcr v => Sys2Proof.Machine.execWrFcr v s
  | .rdLcr => Sys2Proof.Machine.execRdLcr s
  | .wrLcr v => Sys2Proof.Machine.execWrLcr v s
  | .rdMcr => Sys2Proof.Machine.execRdMcr s
  | .wrMcr v => Sys2Proof.Machine.execWrMcr v s
  | .rdLsr => Sys2Proof.Machine.execRdLsr s
  | .wrLsr v => Sys2Proof.Machine.execWrLsr v s
  | .rdMsr => Sys2Proof.Machine.execRdMsr s
  | .wrMsr v => Sys2Proof.Machine.execWrMsr v s
  | .rdScr => Sys2Proof.Machine.execRdScr s
  | .wrScr v => Sys2Proof.Machine.execWrScr v s
  | .rdLpdll => Sys2Proof.Machine.execRdLpdll s
  | .wrLpdll v => Sys2Proof.Machine.execWrLpdll v s
  | .rdUsr => Sys2Proof.Machine.execRdUsr s
  | .wrUsr v => Sys2Proof.Machine.execWrUsr v s
  | .rdSrr => Sys2Proof.Machine.execRdSrr s
  | .wrSrr v => Sys2Proof.Machine.execWrSrr v s
  | .rdDlf => Sys2Proof.Machine.execRdDlf s
  | .wrDlf v => Sys2Proof.Machine.execWrDlf v s
  | .rdDrL bank => Sys2Proof.Machine.execRdDrL bank s
  | .wrDrL bank v => Sys2Proof.Machine.execWrDrL bank v s
  | .rdDrH bank => Sys2Proof.Machine.execRdDrH bank s
  | .wrDrH bank v => Sys2Proof.Machine.execWrDrH bank v s
  | .rdDdrL bank => Sys2Proof.Machine.execRdDdrL bank s
  | .wrDdrL bank v => Sys2Proof.Machine.execWrDdrL bank v s
  | .rdDdrH bank => Sys2Proof.Machine.execRdDdrH bank s
  | .wrDdrH bank v => Sys2Proof.Machine.execWrDdrH bank v s
  | .rdIoc off => Sys2Proof.Machine.execRdIoc off s
  | .wrIoc off v => Sys2Proof.Machine.execWrIoc off v s

end Sys2Proof.Machine
end

