-- ==== Sys2Proof/Machine/Engines.lean ====
section
/-! DEFINITION. The device agents (44_uart_engines.md R601 to R611): when each step is enabled and what it does. -/

namespace Sys2Proof.Machine

/-! ### Transmitter -/

/-- R602, R601. -/
def Uart.txLoadEnabled (u : Uart) : Bool := !u.tsrBusy && !u.txq.isEmpty && u.div != 0

/-- R602 `TX_LOAD`. -/
def txLoad (u : Uart) : Uart :=
  match u.txq with
  | [] => u
  | b :: rest =>
    { u with
      tsr := b
      tsrFmt := fmtOf u.lcr
      txq := rest
      tsrBusy := true
      threIp := u.threIp || rest.isEmpty }

/-- R603, R601. -/
def Uart.txDoneEnabled (u : Uart) : Bool := u.tsrBusy && u.div != 0

/-- The data of the character in the shift register (R603). -/
def Uart.shiftedData (u : Uart) : Byte := u.tsr &&& lowMask u.tsrFmt.bits

/-- R603 `TX_DONE`; in loopback the character is received (R607), else it is on the wire. -/
def txDone (s : State) : State :=
  let u := s.uart
  if u.loop then
    s.withUart
      { pushRx s.cfg { data := u.shiftedData &&& u.dmask, pe := false, fe := false, bi := false } u with tsrBusy := false }
  else (s.logLine (.char u.shiftedData u.tsrFmt)).withUart { u with tsrBusy := false }

/-! ### Receiver -/

/-- R606, R601: with no parity there is no parity error. -/
def Uart.rxFrameEnabled (u : Uart) (pe : Bool) : Bool := !u.loop && u.div != 0 && (!pe || u.pen)

/-- R606 `RX_FRAME`. -/
def rxFrame (p : Params) (d : Byte) (pe fe bi : Bool) (u : Uart) : Uart :=
  pushRx p { data := if bi then 0 else d &&& u.dmask, pe := pe, fe := fe, bi := bi } u

/-- R610. -/
def Uart.rxTimeoutEnabled (u : Uart) : Bool := u.fifoe && !u.rxq.isEmpty && !u.timeoutIp

/-- R610 `RX_TIMEOUT`. -/
def rxTimeout (u : Uart) : Uart := { u with timeoutIp := true }

/-! ### Modem inputs -/

/-- R611 `MODEM_CHANGE`. -/
def modemChange (n : ModemLines) (s : State) : State :=
  { s with
    env := n
    uart := updateDeltas (effModem s.env s.uart) (effModem n s.uart) s.uart }

/-! ### What an agent's step does when it is chosen -/

/-- The step of a device or environment agent; one that is not enabled is no step of the model and moves nothing (log 1). A
host's step is not here. -/
def deviceStep (a : AgentStep) (s : State) : State :=
  match a with
  | .host _ => s
  | .txLoad => if s.uart.txLoadEnabled then s.withUart (txLoad s.uart) else s
  | .txDone => if s.uart.txDoneEnabled then txDone s else s
  | .rxFrame d pe fe bi => if s.uart.rxFrameEnabled pe then s.withUart (rxFrame s.cfg d pe fe bi s.uart) else s
  | .rxTimeout => if s.uart.rxTimeoutEnabled then s.withUart (rxTimeout s.uart) else s
  | .modemChange cts dsr ri dcd => modemChange { cts := cts, dsr := dsr, ri := ri, dcd := dcd } s

end Sys2Proof.Machine
end

