-- ==== Sys2Proof/Machine/Operands.lean ====
section
/-! DEFINITION. The operands of host statements: host variables, expressions (00_scope.md R22) and addresses
(30_encoding.md R301, R310; 46_driver_procedures.md R800). -/

namespace Sys2Proof.Machine

/-! ### Variables (a variable nothing has assigned reads 0, log 11) -/

def getVar (vars : List (Nat × Val)) (x : Var) : Val := sparseGet (.u32 0) x vars

def setVar (x : Var) (v : Val) (vars : List (Nat × Val)) : List (Nat × Val) := sparseSet (.u32 0) x v vars

/-- The number an expression takes for what a variable holds. DESIGN CHOICE: for a result that is no number it is a free value
(log 13). -/
def Val.toNat : Val → Nat
  | .u32 w => w.toNat
  | .nat n => n
  | .opt b => Config.numberOf (some b)
  | .timeout => Config.numberOf none

/-- `vars` with the host variable TIMEOUT (30_encoding.md R315) holding `v`; as they are if it does already. A procedure's body
has the TIMEOUT of the host that runs it (log 12). -/
def carryTimeout (v : Val) (vars : List (Nat × Val)) : List (Nat × Val) :=
  if getVar vars timeoutVar = v then vars else setVar timeoutVar v vars

/-! ### Expressions (R22, 30_encoding.md R316) -/

/-- Evaluate both, in `Except`. DESIGN CHOICE: if both fail, the left one's failure is recorded (log 37). -/
def both {α β : Type} (x y : Except ArgError α) (f : α → α → Except ArgError β) : Except ArgError β :=
  match x, y with
  | .ok a, .ok b => f a b
  | .error e, _ => .error e
  | .ok _, .error e => .error e

/-- A failure records the dividend (log 41). -/
def divNat (a b : Nat) : Except ArgError Nat := if b = 0 then .error (.divisionByZero a) else .ok (a / b)
def modNat (a b : Nat) : Except ArgError Nat := if b = 0 then .error (.divisionByZero a) else .ok (a % b)

/-- `a << n = trunc_32(a * 2^n)` of a `Nat`: 0 for n of 32 or more (R22, D27). -/
def shlNat (a n : Nat) : Nat := if n < 32 then a * 2 ^ n % 2 ^ 32 else 0

/-- In `Nat`. DESIGN CHOICE: a difference whose second number is the larger, to which the spec gives no value, is 0
(log 25); the complement in 32 bits of a number of 2^32 or more is that of its low 32 bits (log 36). -/
def NExpr.eval (vars : List (Nat × Val)) : NExpr → Except ArgError Nat
  | .lit n => .ok n
  | .var x => .ok (getVar vars x).toNat
  | .add a b => both (a.eval vars) (b.eval vars) fun m n => .ok (m + n)
  | .sub a b => both (a.eval vars) (b.eval vars) fun m n => .ok (m - n)
  | .mul a b => both (a.eval vars) (b.eval vars) fun m n => .ok (m * n)
  | .div a b => both (a.eval vars) (b.eval vars) divNat
  | .mod a b => both (a.eval vars) (b.eval vars) modNat
  | .pow2 a => (a.eval vars).map fun n => 2 ^ n
  | .or a b => both (a.eval vars) (b.eval vars) fun m n => .ok (m ||| n)
  | .and a b => both (a.eval vars) (b.eval vars) fun m n => .ok (m &&& n)
  | .not a => (a.eval vars).map fun n => (~~~BitVec.ofNat 32 n).toNat
  | .shl a b => both (a.eval vars) (b.eval vars) fun m n => .ok (shlNat m n)
  | .shr a b => both (a.eval vars) (b.eval vars) fun m n => .ok (m >>> n)
  | .trunc a => (a.eval vars).map fun n => n % 2 ^ 32

/-- `a << n = trunc_32(a * 2^n)`: 0 for n of 32 or more (R22, D27). -/
def shlWord (a n : Word) : Word := if n.toNat < 32 then a <<< n.toNat else 0

/-- `a >> n = floor(a / 2^n)`. -/
def shrWord (a n : Word) : Word := if n.toNat < 32 then a >>> n.toNat else 0

def divWord (a b : Word) : Except ArgError Word := if b = 0 then .error (.divisionByZero a.toNat) else .ok (a / b)
def modWord (a b : Word) : Except ArgError Word := if b = 0 then .error (.divisionByZero a.toNat) else .ok (a % b)

/-- In `u32`; a `Nat` variable enters as `trunc_32` of what it holds (log 19). DESIGN CHOICE: a sum or product of 2^32 or more,
of which R22 says nothing (it truncates `<<` only), is taken modulo 2^32 (log 32). -/
def UExpr.eval (vars : List (Nat × Val)) : UExpr → Except ArgError Word
  | .lit w => .ok w
  | .var x => .ok (BitVec.ofNat 32 (getVar vars x).toNat)
  | .or a b => both (a.eval vars) (b.eval vars) fun m n => .ok (m ||| n)
  | .and a b => both (a.eval vars) (b.eval vars) fun m n => .ok (m &&& n)
  | .not a => (a.eval vars).map fun m => ~~~m
  | .shl a n => both (a.eval vars) (n.eval vars) fun m k => .ok (shlWord m k)
  | .shr a n => both (a.eval vars) (n.eval vars) fun m k => .ok (shrWord m k)
  | .add a b => both (a.eval vars) (b.eval vars) fun m n => .ok (m + n)
  | .mul a b => both (a.eval vars) (b.eval vars) fun m n => .ok (m * n)
  | .div a b => both (a.eval vars) (b.eval vars) divWord
  | .mod a b => both (a.eval vars) (b.eval vars) modWord
  | .trunc e => (e.eval vars).map (BitVec.ofNat 32)

/-! ### Addresses -/

/-- The address lies in the block of this base (46_driver_procedures.md R800: 0..0xFFF above the base). -/
def inBlock (base addr : Nat) : Bool := decide (base ≤ addr) && decide (addr < base + 0x1000)

/-- The first bank from number `k` on whose block holds the address. -/
def bankOf (addr k : Nat) : List Nat → Option (Nat × Nat)
  | [] => none
  | base :: rest => if inBlock base addr then some (k, base) else bankOf addr (k + 1) rest

/-- R800 (3) `target(addr)`: the block and the offset; `none` for an address in no block. -/
def target (p : Params) (addr : Nat) : Option (Block × BitVec 12) :=
  if inBlock p.uartBase addr then some (.uart, BitVec.ofNat 12 (addr - p.uartBase))
  else
    match bankOf addr 0 p.gpioBase with
    | some (k, base) => some (.gpio (BitVec.ofNat 7 k), BitVec.ofNat 12 (addr - base))
    | none => if inBlock p.iocBase addr then some (.ioc, BitVec.ofNat 12 (addr - p.iocBase)) else none

/-- The descriptor of a 32-bit access at an offset of a block (R301). -/
def Block.descriptor (w : Bool) (off : BitVec 12) : Block → Word
  | .uart => uartT w off
  | .gpio k => gpioT w k off
  | .ioc => iocT w off

/-- The bus address of a transaction, `base(BLK, BANK) + OFF` (20_memory.md R203); `none` for a bank that is not there. -/
def Block.busAddress (p : Params) (off : BitVec 12) : Block → Option Nat
  | .uart => some (p.uartBase + off.toNat)
  | .gpio k => p.gpioBase[k.toNat]?.map (· + off.toNat)
  | .ioc => some (p.iocBase + off.toNat)

/-- The descriptor an address operand stands for (R310); an absolute address in no block is refused (20_memory.md R203). -/
def AddrOp.descriptor (p : Params) (w : Bool) : AddrOp → Except Refusal Word
  | .uart off => .ok (uartT w off)
  | .gpio k off => .ok (gpioT w k off)
  | .ioc off => .ok (iocT w off)
  | .absolute addr =>
    match target p addr with
    | some (b, off) => .ok (b.descriptor w off)
    | none => .error (.unmappedAddress (.address addr))

end Sys2Proof.Machine
end

