-- ==== Sys2Proof/Machine/Procedures.lean ====
section
/-! DEFINITION. The driver procedures (46_driver_procedures.md R800 to R813): the host arithmetic helpers and the body each
procedure runs, statement by statement as the rules give it. -/

namespace Sys2Proof.Machine

/-! ### Host arithmetic (R801, R802) -/

/-- R801: `trunc_32(2^(high+1) - 2^low)`, computed in Nat. -/
def bitRangeMask (high low : Nat) : Word := BitVec.ofNat 32 (2 ^ (high + 1) - 2 ^ low)

/-- R802. -/
def computeDivisor (srcClock baud : Nat) : Nat := (srcClock + (baud * 16) / 2) / (baud * 16)

/-- R807: the value one write of `clear_then_set` carries. -/
def clearThenSetValue (clearMask setMask : Word) : Word := ((clearMask ||| setMask) <<< 16) ||| setMask

/-! ### The variables of the bodies; each body has its own, but for TIMEOUT (log 12) -/

def varT : Var := 1
def varD : Var := 2
def varU : Var := 3
def varM : Var := 4
def varS : Var := 5
def varV : Var := 6

/-! ### Bodies -/

/-- A body that begins with `poll t, UART:0x14, 0x40`. With a POLL_BOUND, the procedure ends with `Timeout`, before any of its
writes, if bit 6 is still 0 when the poll is left (R813, log 18). -/
def pollTemtThen (p : Params) (rest : List Stmt) : List Line :=
  match p.pollBound with
  | none => unlabelled (.poll varT (.uart 0x014) (.lit 0x40) :: rest)
  | some _ =>
    unlabelled (.poll varT (.uart 0x014) (.lit 0x40) :: .bz varT (.lit 0x40) 0 :: rest) ++
      [{ label := some 0, stmt := .ret .timedOut }]

/-- R801. -/
def bitRangeMaskBody (high low : Nat) : List Line :=
  unlabelled [.letU varV (.trunc (.sub (.pow2 (.add (.lit high) (.lit 1))) (.pow2 (.lit low)))), .ret (.word (.var varV))]

/-- The expression of R802. -/
def divisorExpr (srcClock baud : Nat) : NExpr :=
  .div (.add (.lit srcClock) (.div (.mul (.lit baud) (.lit 16)) (.lit 2))) (.mul (.lit baud) (.lit 16))

/-- R802. -/
def computeDivisorBody (srcClock baud : Nat) : List Line :=
  unlabelled [.letN varD (divisorExpr srcClock baud), .ret (.natural (.var varD))]

/-- R803, steps (a) to (i). -/
def initUartBody (p : Params) (srcClock baud : Nat) : List Line :=
  pollTemtThen p [
    .wr (.uart 0x004) (.lit 0x00000000),
    .wr (.uart 0x008) (.lit 0x00000006),
    .wr (.uart 0x010) (.lit 0x00000003),
    .wr (.uart 0x00C) (.lit 0x00000003),
    .rd varT (.uart 0x00C),
    .wr (.uart 0x00C) (.or (.var varT) (.lit 0x80)),
    .letN varD (divisorExpr srcClock baud),
    .wr (.uart 0x000) (.trunc (.and (.var varD) (.lit 0xFF))),
    .wr (.uart 0x004) (.trunc (.and (.shr (.var varD) (.lit 8)) (.lit 0xFF))),
    .rd varT (.uart 0x00C),
    .wr (.uart 0x00C) (.and (.var varT) (.not (.lit 0x80))),
    .ret .nothing]

/-- R804; the byte is written as `zext_32(b)` (R800). -/
def transmitBody (p : Params) (b : Byte) : List Line :=
  pollTemtThen p [.wr (.uart 0x000) (.lit (b.setWidth 32)), .ret .nothing]

/-- R805. -/
def receiveBody : List Line :=
  unlabelled [
    .rd varT (.uart 0x014),
    .bz varT (.lit 0x1) 0,
    .rd varU (.uart 0x000),
    .ret (.someByte (.and (.var varU) (.lit 0xFF)))] ++
  [{ label := some 0, stmt := .ret .noByte }]

/-- R806. -/
def setInterruptEnableBody (en : Bool) : List Line :=
  unlabelled [.wr (.uart 0x004) (.lit (if en then 0x00000001 else 0x00000000)), .ret .nothing]

/-- R807. -/
def clearThenSetBody (addr : Nat) (clearMask setMask : Word) : List Line :=
  unlabelled [
    .letU varV (.or (.shl (.or (.lit clearMask) (.lit setMask)) (.lit 16)) (.lit setMask)),
    .wr (.absolute addr) (.var varV),
    .ret .nothing]

/-- R808. -/
def pinMuxRouteBody (addr : Nat) (aBits aMask aShift bBits bMask bShift : Word) : List Line :=
  unlabelled [
    .letU varM (.or (.lit aMask) (.lit bMask)),
    .letU varS (.or (.shl (.lit aBits) (.lit aShift)) (.shl (.lit bBits) (.lit bShift))),
    .call none (.clearThenSet (.lit (addr + 0x02C)) (.var varM) (.var varS)),
    .ret .nothing]

/-- R809. -/
def iomuxUart7M2Body (base : Nat) : List Line :=
  unlabelled [
    .call (some varM) (.bitRangeMask (.lit 3) (.lit 0)),
    .call (some varS) (.bitRangeMask (.lit 7) (.lit 4)),
    .call none (.pinMuxRoute (.lit base) (.lit 10) (.var varM) (.lit 0) (.lit 10) (.var varS) (.lit 4)),
    .ret .nothing]

/-- R810 on the bank that `bank` names by its offsets: the direction register, then the data register (D24). -/
def gpioSetOutputBody (bank : BitVec 12 → AddrOp) (pin : Nat) (level : Bool) : List Line :=
  let h : BitVec 12 := if 16 ≤ pin then 0x004 else 0x000
  let one : Word := 1 <<< (pin % 16)
  unlabelled [
    .wr (bank (0x008 + h)) (.lit (one ||| (one <<< 16))),
    .wr (bank h) (.lit ((if level then one else 0) ||| (one <<< 16))),
    .ret .nothing]

/-- R811 on such a bank (order: D25). -/
def gpioClearAllBody (bank : BitVec 12 → AddrOp) : List Line :=
  unlabelled [
    .wr (bank 0x000) (.lit 0xFFFF0000),
    .wr (bank 0x004) (.lit 0xFFFF0000),
    .ret .nothing]

/-! ### Argument checks, before the first transaction (60_exceptions.md R901) -/

/-- The number of the bank whose base the address is, from `k` on. -/
def bankWithBase (addr k : Nat) : List Nat → Option Nat
  | [] => none
  | base :: rest => if base = addr then some k else bankWithBase addr (k + 1) rest

/-- The registers of a `bank_base`, by offset: `GPIO[k]:off` if it is `GPIO_BASE[k]` (R810, R811). An address in no block is
UNMAPPED_ADDRESS (R800, 60_exceptions.md R900). DEDUCED: of one in a block that is no bank's base the register is what lies at
the absolute address `bank_base + off`, as the source that R810 quotes has it (log 15). -/
def bankOperand (p : Params) (addr : Nat) : Except CallError (BitVec 12 → AddrOp) :=
  match bankWithBase addr 0 p.gpioBase with
  | some k => .ok (.gpio (BitVec.ofNat 7 k))
  | none =>
    match target p addr with
    | none => .error (.unmapped addr)
    | some _ => .ok fun off => .absolute (addr + off.toNat)

/-- R800 (3), R807: a write-mask procedure admits a GPIO or IOC target only; `a` is the address argument it was called with
and `addr` the address it writes. DESIGN CHOICE: UNMAPPED_ADDRESS records `addr`, ARG_OUT_OF_RANGE records `a` (log 44). -/
def checkMaskTarget (p : Params) (a addr : Nat) : Except CallError Unit :=
  match target p addr with
  | none => .error (.unmapped addr)
  | some (.uart, _) => .error (.arg (.uartTarget a))
  | some (.gpio _, _) => .ok ()
  | some (.ioc, _) => .ok ()

/-- An argument's value, its failure recorded as ARG_OUT_OF_RANGE (30_encoding.md R316). -/
def arg {α : Type} (x : Except ArgError α) : Except CallError α :=
  match x with
  | .ok a => .ok a
  | .error e => .error (.arg e)

/-- The body a procedure call runs: its arguments evaluated and checked, then the expansion of its rule. DESIGN CHOICE: the
argument of `transmit` is a `u8` (R804), and of a wider host value its low 8 bits are taken (log 28). DESIGN CHOICE: of several
arguments that fail one is recorded, in the order in which they are evaluated and then checked here (log 39). DESIGN CHOICE:
where the rule of a procedure uses another procedure, the check is made, and recorded, at the outer call (log 44). -/
def Proc.body (p : Params) (vars : List (Nat × Val)) : Proc → Except CallError (List Line)
  | .bitRangeMask high low => do
    let h ← arg (high.eval vars)
    let l ← arg (low.eval vars)
    if l ≤ h ∧ h ≤ 31 then .ok (bitRangeMaskBody h l) else .error (.arg (.bitRange h l))
  | .computeDivisor srcClock baud => do
    let c ← arg (srcClock.eval vars)
    let b ← arg (baud.eval vars)
    if b = 0 then .error (.arg .baudZero) else .ok (computeDivisorBody c b)
  | .initUart srcClock baud => do
    let c ← arg (srcClock.eval vars)
    let b ← arg (baud.eval vars)
    if b = 0 then .error (.arg .baudZero) else .ok (initUartBody p c b)
  | .transmit b => do
    let v ← arg (b.eval vars)
    .ok (transmitBody p (v.setWidth 8))
  | .receive => .ok receiveBody
  | .setInterruptEnable en => .ok (setInterruptEnableBody en)
  | .clearThenSet addr clearMask setMask => do
    let a ← arg (addr.eval vars)
    let c ← arg (clearMask.eval vars)
    let m ← arg (setMask.eval vars)
    checkMaskTarget p a a
    .ok (clearThenSetBody a c m)
  | .pinMuxRoute addr aBits aMask aShift bBits bMask bShift => do
    let a ← arg (addr.eval vars)
    let ab ← arg (aBits.eval vars)
    let am ← arg (aMask.eval vars)
    let as ← arg (aShift.eval vars)
    let bb ← arg (bBits.eval vars)
    let bm ← arg (bMask.eval vars)
    let bs ← arg (bShift.eval vars)
    checkMaskTarget p a (a + 0x02C)
    .ok (pinMuxRouteBody a ab am as bb bm bs)
  | .iomuxUart7M2 base => do
    let b ← arg (base.eval vars)
    checkMaskTarget p b (b + 0x02C)
    .ok (iomuxUart7M2Body b)
  | .gpioSetOutput bankBase pin level => do
    let a ← arg (bankBase.eval vars)
    let n ← arg (pin.eval vars)
    if 31 < n then .error (.arg (.pin n))
    else do
      let bank ← bankOperand p a
      .ok (gpioSetOutputBody bank n level)
  | .gpioClearAll bankBase => do
    let a ← arg (bankBase.eval vars)
    let bank ← bankOperand p a
    .ok (gpioClearAllBody bank)

end Sys2Proof.Machine
end

