-- ==== Sys2Proof/Machine/Master.lean ====
section
/-! DEFINITION. What a bus master's step does (30_encoding.md R303, R311 to R319), and which event is next and what it does
(44_uart_engines.md R600). -/

namespace Sys2Proof.Machine

/-! ### A transaction is decoded at the moment it is performed (R303, R305) -/

/-- The reason of 60_exceptions.md R900 for a descriptor that decodes to nothing. -/
def DecodeError.toRefusal : DecodeError → Refusal
  | .unsupportedWidth t => .unsupportedWidth t
  | .misaligned t => .misaligned t
  | .reservedDescriptor t => .reservedDescriptor t
  | .unmappedAddress t => .unmappedAddress (.descriptor t)
  | .notModelledOffset t =>
    .notModelledOffset (if t.blk = 0b00 then .uart else if t.blk = 0b01 then .gpio t.bank else .ioc) t.off

/-- The numeric code of a refusal (60_exceptions.md R900); a refusal of the model's own has none. -/
def Refusal.code : Refusal → Option Nat
  | .unsupportedWidth _ => some 1
  | .misaligned _ => some 2
  | .reservedDescriptor _ => some 3
  | .unmappedAddress _ => some 4
  | .notModelledOffset _ _ => some 5
  | .writeReadOnly _ => some 6
  | .valueNotAdmitted _ => some 7
  | .argOutOfRange _ _ => some 8
  | .unformedProgram _ => none
  | _ => none

/-- Perform the transaction (T, WDATA) on the device. -/
def perform (t wdata : Word) (s : State) : Host.Outcome State Fault Refusal :=
  match decode s.cfg s.uart.dlab t wdata with
  | .ok i => exec i s
  | .error e => .refused (DecodeError.toRefusal e)

/-- Perform the transaction of an address operand (R313, R314). -/
def transact (a : AddrOp) (w : Bool) (v : Word) (s : State) : Host.Outcome State Fault Refusal :=
  match a.descriptor s.cfg w with
  | .ok t => perform t v s
  | .error r => .refused r

/-- Go on from the next state, if there is one. -/
def andThen (o : Host.Outcome State Fault Refusal) (f : State → State) : Host.Outcome State Fault Refusal :=
  match o with
  | .next s => .next (f s)
  | .fault r => .fault r
  | .refused r => .refused r

/-! ### Host state -/

def State.setHost (h : Nat) (c : HostCtx) (s : State) : State := { s with hosts := s.hosts.set h c }

/-- The next statement (R311). -/
def HostCtx.advance (c : HostCtx) : HostCtx := { c with pc := c.pc + 1 }

def HostCtx.assign (x : Var) (v : Val) (c : HostCtx) : HostCtx := { c with vars := setVar x v c.vars }

/-- After a read of a `poll` (R315), `zero` saying that no masked bit was set: leave if one was, or if this was the last read
POLL_BOUND allows, with TIMEOUT set; else read again. A bound of 0 gives up after one read (log 24). -/
def pollNext (bound : Option Nat) (zero : Bool) (c : HostCtx) : HostCtx :=
  if zero = false then { c with polls := 0 }.advance
  else
    match bound with
    | none => c
    | some n =>
      if n ≤ c.polls + 1 then ({ c with polls := 0 }.assign timeoutVar (.u32 1)).advance
      else { c with polls := c.polls + 1 }

/-- `ret` (R319): back to the caller with the value and with TIMEOUT as the body leaves it (log 12), or, in a top-level
program, halt. DESIGN CHOICE: a call that names a variable and gets no value leaves the variable as it was (log 29); a host
that halts keeps its `pc` (log 33). -/
def HostCtx.doReturn (v : Option Val) (c : HostCtx) : HostCtx :=
  match c.callers with
  | [] => { c with halted := true, result := v }
  | k :: rest =>
    let vars := carryTimeout (getVar c.vars timeoutVar) k.vars
    { c with
      body := k.body
      pc := k.pc
      vars := (match k.dst, v with
        | some x, some y => setVar x y vars
        | some _, none | none, some _ | none, none => vars)
      polls := 0
      callers := rest }

/-- Enter the body of a procedure (R320, log 12). -/
def HostCtx.enter (dst : Option Var) (body : List Line) (c : HostCtx) : HostCtx :=
  { c with
    callers := { body := c.body, pc := c.pc + 1, vars := c.vars, dst := dst } :: c.callers
    body := body
    pc := 0
    vars := carryTimeout (getVar c.vars timeoutVar) []
    polls := 0 }

/-- The value of a `ret`. DESIGN CHOICE: of the `u32` of a `some(..)`, which R805 uses below 256 only, the low 8 bits are taken
(log 43). -/
def RetArg.eval (vars : List (Nat × Val)) : RetArg → Except ArgError (Option Val)
  | .nothing => .ok none
  | .word e => (e.eval vars).map fun w => some (.u32 w)
  | .natural e => (e.eval vars).map fun n => some (.nat n)
  | .someByte e => (e.eval vars).map fun w => some (.opt (some (w.setWidth 8)))
  | .noByte => .ok (some (.opt none))
  | .timedOut => .ok (some .timeout)
  | .value x => .ok (some (getVar vars x))

/-- Transfer control to a label (R317, R318). -/
def branch (h : Nat) (c : HostCtx) (l : Label) (s : State) : Host.Outcome State Fault Refusal :=
  match labelIndex l c.body with
  | some n => .next (s.setHost h { c with pc := n })
  | none => .refused (.unformedProgram (some l))

/-- `(t & m) = 0` of R315 and R317. -/
def maskedZero (c : HostCtx) (t : Var) (m : UExpr) : Except ArgError Bool :=
  (UExpr.eval c.vars (.and (.var t) m)).map fun w => w == 0

/-- What follows the read of a `poll` (R315): `t` takes RDATA, then the mask is tested (log 31). DESIGN CHOICE: where the mask
has no value the whole step is refused, its read with it (log 40). -/
def afterPollRead (h : Nat) (c : HostCtx) (t : Var) (a : AddrOp) (m : UExpr) (s : State) :
    Host.Outcome State Fault Refusal :=
  let c' := c.assign t (.u32 s.rdata)
  match maskedZero c' t m with
  | .ok z => .next (s.setHost h (pollNext s.cfg.pollBound z c'))
  | .error y => .refused (.argOutOfRange (.poll t a m) y)

/-- The refusal of a call (60_exceptions.md R900); `st` is the call. -/
def CallError.toRefusal (st : Stmt) : CallError → Refusal
  | .arg y => .argOutOfRange st y
  | .unmapped addr => .unmappedAddress (.address addr)

/-- One statement of host `h`, whose context is `c` (R313 to R319). DESIGN CHOICE: the expression of a `wr` is evaluated before
its address is looked at, so that of two failures the expression's is reported (log 30); `halt` leaves `pc` at itself
(log 33). -/
def stmtStep (h : Nat) (c : HostCtx) (st : Stmt) (s : State) : Host.Outcome State Fault Refusal :=
  match st with
  | .rd t a => andThen (transact a false 0 s) fun s' => s'.setHost h (c.assign t (.u32 s'.rdata)).advance
  | .wr a e =>
    match e.eval c.vars with
    | .ok v => andThen (transact a true v s) fun s' => s'.setHost h c.advance
    | .error y => .refused (.argOutOfRange st y)
  | .poll t a m =>
    match transact a false 0 s with
    | .next s' => afterPollRead h c t a m s'
    | .fault r => .fault r
    | .refused r => .refused r
  | .letU x e =>
    match e.eval c.vars with
    | .ok w => .next (s.setHost h (c.assign x (.u32 w)).advance)
    | .error y => .refused (.argOutOfRange st y)
  | .letN x e =>
    match e.eval c.vars with
    | .ok n => .next (s.setHost h (c.assign x (.nat n)).advance)
    | .error y => .refused (.argOutOfRange st y)
  | .bz t m l =>
    match maskedZero c t m with
    | .ok z => if z then branch h c l s else .next (s.setHost h c.advance)
    | .error y => .refused (.argOutOfRange st y)
  | .bnz t m l =>
    match maskedZero c t m with
    | .ok z => if z then .next (s.setHost h c.advance) else branch h c l s
    | .error y => .refused (.argOutOfRange st y)
  | .jmp l => branch h c l s
  | .ret r =>
    match r.eval c.vars with
    | .ok v => .next (s.setHost h (c.doReturn v))
    | .error y => .refused (.argOutOfRange st y)
  | .halt => .next (s.setHost h { c with halted := true })
  | .txn t v => andThen (perform t v s) fun s' => s'.setHost h c.advance
  | .call dst p =>
    match p.body s.cfg c.vars with
    | .ok b => .next (s.setHost h (c.enter dst b))
    | .error r => .refused (r.toRefusal st)

/-- One step of host `h`: its statement at `pc`; running past the last one is `halt` (R311; `pc` stays, log 33). A host that is
halted, or that is not there, takes no step (log 1). -/
def hostStep (h : Nat) (s : State) : Host.Outcome State Fault Refusal :=
  match s.hosts[h]? with
  | none => .next s
  | some c =>
    if c.halted then .next s
    else
      match c.body[c.pc]? with
      | none => .next (s.setHost h { c with halted := true })
      | some line => stmtStep h c line.stmt { s with master := h }

/-! ### Scheduling (44_uart_engines.md R600, log 1) -/

/-- The next event: the first of `inputs`, or the next free choice. -/
def State.nextEvent (s : State) : Event :=
  match s.inputs with
  | e :: _ => e
  | [] => .agent (Config.schedule s.ticks)

/-- That event has been taken. -/
def State.taken (s : State) : State :=
  match s.inputs with
  | _ :: rest => { s with inputs := rest }
  | [] => { s with ticks := s.ticks + 1 }

/-- What an event does. -/
def runEvent (e : Event) (s : State) : Host.Outcome State Fault Refusal :=
  match e with
  | .agent (.host h) => hostStep h s
  | .agent a => .next (deviceStep a s)
  | .hwReset => .next (hwReset s)

/-- Load a program into host `h`, at its statement 0 (30_encoding.md R311, log 9); one that is not formed is refused
(R317). -/
def State.load (h : Nat) (prog : List Line) (s : State) : Host.Outcome State Fault Refusal :=
  if formed prog then .next (s.setHost h (HostCtx.start prog)) else .refused (.unformedProgram (missingLabel prog))

/-- Line `n` of a body becomes `x`; a body too short is filled up with `halt`. -/
def putLine (x : Line) : Nat → List Line → List Line
  | 0, [] => [x]
  | 0, _ :: rest => x :: rest
  | n + 1, [] => { stmt := .halt } :: putLine x n []
  | n + 1, y :: rest => y :: putLine x n rest

/-- The host with `x` as the statement it runs next. -/
def HostCtx.withNext (x : Line) (c : HostCtx) : HostCtx :=
  { c with body := putLine x c.pc c.body, polls := 0, halted := false }

/-- The transaction (T, WDATA) is the statement host 0 runs next, and host 0 is the agent that steps next. -/
def State.withNextTxn (t wdata : Word) (s : State) : State :=
  let x : Line := { stmt := .txn t wdata }
  { s with
    hosts := (match s.hosts with
      | [] => [(HostCtx.start []).withNext x]
      | c :: rest => c.withNext x :: rest)
    inputs := .agent (.host 0) :: s.inputs }

end Sys2Proof.Machine
end

