-- ==== Sys2Proof/Machine/Step.lean ====
section
/-! DEFINITION. One step of the machine (44_uart_engines.md R600), and where an instruction stands for it to be run next. -/

namespace Sys2Proof.Machine

/-- One step: the next event is taken and does what it does. -/
def step (s : State) : Host.Outcome State Fault Refusal := runEvent s.nextEvent s.taken

/-- `s` with the transaction of the bits of `w` below `nbits` (T in bits 31..0, WDATA in bits 63..32) as the statement host 0
runs next, and host 0's step as the next event (log 9). -/
def State.withFetchWord (s : State) (nbits w : Nat) : State :=
  s.withNextTxn (BitVec.ofNat 32 (w % 2 ^ nbits)) (BitVec.ofNat 32 (w % 2 ^ nbits / 2 ^ 32))

end Sys2Proof.Machine
end

