-- ==== Sys2Proof/Safety.lean ====
section
/-! DEFINITION. The terms of claims about the machine: the invariants of 70_reset_and_hazards.md R1003, the launch state, the
end of a run (30_encoding.md R312), and runs with the fairness of 44_uart_engines.md R600. -/

namespace Sys2Proof.Machine

/-- R1003, the UART: queue capacities, reserved bits 0, MCR[6:5] = 0, BUSY_IP = 0 unless BUSY_GUARD, and a frame format in
the busy shift register. DESIGN CHOICE: R1003's 'defined' is read as 5 to 8 data bits with any stop bits and parity (log 42). -/
def Uart.inv (p : Params) (u : Uart) : Prop :=
  u.txq.length ≤ txcap p u ∧
  u.rxq.length ≤ rxcap p u ∧
  u.ier &&& ~~~(ierMask p) = 0 ∧
  u.dlf &&& ~~~(lowMask p.dlfSize) = 0 ∧
  u.mcr.extractLsb' 5 2 = 0 ∧
  (u.busyIp = true → p.busyGuard = true) ∧
  (u.tsrBusy = true → 5 ≤ u.tsrFmt.bits ∧ u.tsrFmt.bits ≤ 8)

/-- The invariant of the machine: parameters as R10 has them, the UART as R1003 has it, one register set a GPIO bank, and
the IOC registers in canonical form at offsets of IOC_REG_SET. -/
structure State.Inv (s : State) : Prop where
  params : s.cfg.wf = true
  uart   : s.uart.inv s.cfg
  banks  : s.gpio.length = s.cfg.gpioBanks
  iocWf  : sparseWf 0 s.ioc = true
  iocSet : ∀ x ∈ s.ioc, x.1 ∈ s.cfg.iocRegSet

/-- Every body a host runs or has suspended is a program that may be formed (30_encoding.md R317). -/
def State.ProgramsFormed (s : State) : Prop :=
  ∀ c ∈ s.hosts, formed c.body = true ∧ ∀ k ∈ c.callers, formed k.body = true

/-- The variables of every host, and of every caller it has suspended, are in canonical form (sparseWf). -/
def State.VariablesWf (s : State) : Prop :=
  ∀ c ∈ s.hosts, sparseWf (Val.u32 0) c.vars = true ∧ ∀ k ∈ c.callers, sparseWf (Val.u32 0) k.vars = true

/-- A state a run may start in (R1003): by LAUNCH_STATE the reset state, its unspecified parts apart, or any state with the
invariant; in either case with both records empty, every host at statement 0 of a program that may be formed, and its
variables at any values (10_state.md R132). -/
def State.Launches (s : State) : Prop :=
  s.Inv ∧ s.txlog = [] ∧ s.hlog = [] ∧ (∀ c ∈ s.hosts, c = { HostCtx.start c.body with vars := c.vars }) ∧
  s.ProgramsFormed ∧ s.VariablesWf ∧
  (s.cfg.launch = .reset → s.uart = { Uart.reset with tsr := s.uart.tsr, tsrFmt := s.uart.tsrFmt })

/-- Host `h` is halted (30_encoding.md R312). -/
def State.Halted (s : State) (h : Nat) : Prop := ∃ c, s.hosts[h]? = some c ∧ c.halted = true

/-- The device is drained (R312). -/
def State.Drained (s : State) : Prop := s.uart.txq = [] ∧ s.uart.tsrBusy = false

/-- An infinite run: every step answers the next state. -/
def IsRun (r : Nat → State) : Prop := ∀ n, step (r n) = .next (r (n + 1))

/-- The step of agent `a`, enabled when `en` says so, is weakly fair (R600): if from some point on it stays enabled, it is
taken. -/
def WeaklyFair (r : Nat → State) (a : AgentStep) (en : State → Bool) : Prop :=
  ∀ n, (∀ m, n ≤ m → en (r m) = true) → ∃ m, n ≤ m ∧ (r m).nextEvent = .agent a

/-- Host `h` has a statement to run. -/
def hostEnabled (h : Nat) (s : State) : Bool :=
  match s.hosts[h]? with
  | some c => !c.halted
  | none => false

/-- A run of R600: TX_LOAD, TX_DONE and every host's statements are weakly fair; LINE, MODEM and TIMER are not. -/
structure IsFairRun (r : Nat → State) : Prop where
  run    : IsRun r
  load   : WeaklyFair r .txLoad (·.uart.txLoadEnabled)
  done   : WeaklyFair r .txDone (·.uart.txDoneEnabled)
  master : ∀ h, WeaklyFair r (.host h) (hostEnabled h)

/-! ### What a performed transaction records (20_memory.md R212) -/

/-- The HLOG entry of a read of value `v`. -/
def State.readEntry (s : State) (b : Block) (off : BitVec 12) (v : Word) : Txn where
  agent := s.master
  block := b
  offset := off
  dir := .read
  value := v

/-- The HLOG entry of a write of `v`. -/
def State.writeEntry (s : State) (b : Block) (off : BitVec 12) (v : Word) : Txn where
  agent := s.master
  block := b
  offset := off
  dir := .write
  value := v

/-- `s` once a read has given `v` and has been recorded; nothing else differs. -/
def State.afterRead (s : State) (b : Block) (off : BitVec 12) (v : Word) : State :=
  { s with rdata := v, hlog := s.hlog ++ [s.readEntry b off v] }

/-- `s` once a write of `v` has been recorded; nothing else differs. -/
def State.afterWrite (s : State) (b : Block) (off : BitVec 12) (v : Word) : State :=
  { s with hlog := s.hlog ++ [s.writeEntry b off v] }

/-! ### What a step is about to run -/

/-- The next step is host `h`'s, its context is `c`, and the statement it runs is `st`. -/
structure State.Runs (s : State) (h : Nat) (c : HostCtx) (st : Stmt) : Prop where
  event  : s.nextEvent = .agent (.host h)
  host   : s.hosts[h]? = some c
  alive  : c.halted = false
  atPc   : ∃ l, c.body[c.pc]? = some { label := l, stmt := st }

/-- As `Runs`, and the next `n` steps are all host `h`'s, the events of `rest` coming after them. -/
structure State.RunsAlone (s : State) (h : Nat) (c : HostCtx) (st : Stmt) (n : Nat) (rest : List Event) : Prop where
  events : s.inputs = List.replicate n (.agent (.host h)) ++ rest
  host   : s.hosts[h]? = some c
  alive  : c.halted = false
  atPc   : ∃ l, c.body[c.pc]? = some { label := l, stmt := st }

/-- From `s`, `n` steps lead to `t`. -/
def Reaches (n : Nat) (s t : State) : Prop := Sys2Proof.core.run n s = .next t

/-- The host context once the call at its `pc` has returned `v` into `dst`, the body having left TIMEOUT as it was (log 12). -/
def HostCtx.returned (c : HostCtx) (dst : Option Var) (v : Option Val) : HostCtx :=
  { c with
    pc := c.pc + 1
    polls := 0
    vars := match dst, v with
      | some x, some y => setVar x y c.vars
      | some _, none | none, some _ | none, none => c.vars }

/-! ### Transmitter progress (44_uart_engines.md R615) -/

/-- The transmitter has nothing left: LSR.TEMT (10_state.md R114). -/
def State.transmitterEmpty (s : State) : Prop := s.uart.txq = [] ∧ s.uart.tsrBusy = false

/-- The step from `s` to `t` is no HW_RESET and performs no write of THR, FCR, SRR or the divisor: no write of offset 0x000
(THR, DLL), 0x008 (FCR), 0x088 (SRR), nor, while DLAB = 1, of 0x004 (DLH). -/
def leavesTransmitter (s t : State) : Prop :=
  s.nextEvent ≠ .hwReset ∧
  ∀ x, t.hlog = s.hlog ++ [x] → x.block = .uart → x.dir = .write →
    x.offset ≠ 0x000 ∧ x.offset ≠ 0x008 ∧ x.offset ≠ 0x088 ∧ (x.offset = 0x004 → s.uart.dlab = false)

end Sys2Proof.Machine
end

