-- ==== Sys2Proof/Certificates/Slice0/Obligations.lean ====
section
/-! DEFINITION. The statements for the provers. A record update `{ s with … }` in a conclusion is the frame: what it does not
name is as it was. -/

section

open Sys2Proof Sys2Proof.Machine

/-! ### Encoding (30_encoding.md) -/

/-- R300 to R307: encoding loses nothing. Every well-formed transaction is decoded from its own words, under the parameters
and the DLAB it is well-formed for, and the words that follow it are left. -/
def Obligations.EncodedTransactionDecodesBack : Prop :=
  ∀ (p : Params) (dlab : Bool) (i : Instr) (rest : List Word),
    i.wf p dlab = true → decodeWords p dlab (encode i ++ rest) = some (.ok i, rest)

/-- R301, R303: an admitted descriptor has one meaning, and it is well-formed: the words it came from are its encoding. -/
def Obligations.DecodedWordsAreTheEncoding : Prop :=
  ∀ (p : Params) (dlab : Bool) (t v : Word) (i : Instr),
    decode p dlab t v = .ok i → i.wf p dlab = true ∧ encode i = if t.getLsbD 31 then [t, v] else [t]

/-- R304, R306, R307, every row: the descriptors as the tables give them. -/
def Obligations.TransactionMap : Prop :=
  ∀ (p : Params) (dlab : Bool) (v : Word),
    decode p false 0x10000000 v = .ok .rdRbr ∧ decode p false 0x90000000 v = .ok (.wrThr v) ∧
    decode p true 0x10000000 v = .ok .rdDll ∧ decode p true 0x90000000 v = .ok (.wrDll v) ∧
    decode p false 0x10000004 v = .ok .rdIer ∧ decode p false 0x90000004 v = .ok (.wrIer v) ∧
    decode p true 0x10000004 v = .ok .rdDlh ∧ decode p true 0x90000004 v = .ok (.wrDlh v) ∧
    decode p dlab 0x10000008 v = .ok .rdIir ∧ decode p dlab 0x90000008 v = .ok (.wrFcr v) ∧
    decode p dlab 0x1000000C v = .ok .rdLcr ∧ decode p dlab 0x9000000C v = .ok (.wrLcr v) ∧
    decode p dlab 0x10000010 v = .ok .rdMcr ∧ decode p dlab 0x90000010 v = .ok (.wrMcr v) ∧
    decode p dlab 0x10000014 v = .ok .rdLsr ∧ decode p dlab 0x90000014 v = .ok (.wrLsr v) ∧
    decode p dlab 0x10000018 v = .ok .rdMsr ∧ decode p dlab 0x90000018 v = .ok (.wrMsr v) ∧
    decode p dlab 0x1000001C v = .ok .rdScr ∧ decode p dlab 0x9000001C v = .ok (.wrScr v) ∧
    decode p dlab 0x10000020 v = .ok .rdLpdll ∧ decode p dlab 0x90000020 v = .ok (.wrLpdll v) ∧
    decode p dlab 0x1000007C v = .ok .rdUsr ∧ decode p dlab 0x9000007C v = .ok (.wrUsr v) ∧
    decode p dlab 0x10000088 v = .ok .rdSrr ∧ decode p dlab 0x90000088 v = .ok (.wrSrr v) ∧
    decode p dlab 0x100000C0 v = .ok .rdDlf ∧ decode p dlab 0x900000C0 v = .ok (.wrDlf v) ∧
    (∀ (w : Bool) (off : BitVec 12), off.toNat % 4 = 0 →
      off.toNat ∉ [0x000, 0x004, 0x008, 0x00C, 0x010, 0x014, 0x018, 0x01C, 0x020, 0x07C, 0x088, 0x0C0] →
      decode p dlab (uartT w off) v =
        .error (if off.toNat < 0x100 then .notModelledOffset (uartT w off) else .unmappedAddress (uartT w off))) ∧
    (∀ k : BitVec 7, k.toNat < p.gpioBanks →
      decode p dlab (0x30000000 ||| (k.setWidth 32 <<< 20)) v = .ok (.rdDrL k) ∧
      decode p dlab (0xB0000000 ||| (k.setWidth 32 <<< 20)) v = .ok (.wrDrL k v) ∧
      decode p dlab (0x30000004 ||| (k.setWidth 32 <<< 20)) v = .ok (.rdDrH k) ∧
      decode p dlab (0xB0000004 ||| (k.setWidth 32 <<< 20)) v = .ok (.wrDrH k v) ∧
      decode p dlab (0x30000008 ||| (k.setWidth 32 <<< 20)) v = .ok (.rdDdrL k) ∧
      decode p dlab (0xB0000008 ||| (k.setWidth 32 <<< 20)) v = .ok (.wrDdrL k v) ∧
      decode p dlab (0x3000000C ||| (k.setWidth 32 <<< 20)) v = .ok (.rdDdrH k) ∧
      decode p dlab (0xB000000C ||| (k.setWidth 32 <<< 20)) v = .ok (.wrDdrH k v) ∧
      ∀ (w : Bool) (off : BitVec 12), off.toNat % 4 = 0 → off.toNat ∉ [0x0, 0x4, 0x8, 0xC] →
        decode p dlab (gpioT w k off) v = .error (.notModelledOffset (gpioT w k off))) ∧
    (∀ off : BitVec 12, off.toNat % 4 = 0 →
      (off.toNat ∈ p.iocRegSet →
        decode p dlab (0x50000000 ||| off.setWidth 32) v = .ok (.rdIoc off) ∧
        decode p dlab (0xD0000000 ||| off.setWidth 32) v = .ok (.wrIoc off v)) ∧
      (off.toNat ∉ p.iocRegSet → ∀ w : Bool, decode p dlab (iocT w off) v = .error (.notModelledOffset (iocT w off))))

/-- R303, R308, R558, R710, R900, R910: every descriptor that decodes to nothing is refused with the first reason that
applies, in the order of R910, its code and its record those of R900; every other is performed. -/
def Obligations.RefusalReasonsInOrder : Prop :=
  ∀ (t v : Word) (s : State),
    let n := t.toNat
    let blk := n / 2 ^ 29 % 4
    let bank := n / 2 ^ 20 % 128
    let off := n % 4096
    let refuses := fun (r : Refusal) (code : Nat) => perform t v s = .refused r ∧ r.code = some code
    let performs := ∃ i, decode s.cfg s.uart.dlab t v = .ok i ∧ perform t v s = exec i s
    if n / 2 ^ 27 % 4 ≠ 2 then refuses (.unsupportedWidth t) 1
    else if n % 4 ≠ 0 then refuses (.misaligned t) 2
    else if blk = 3 ∨ n / 2 ^ 12 % 256 ≠ 0 then refuses (.reservedDescriptor t) 3
    else if blk ≠ 1 ∧ bank ≠ 0 then refuses (.reservedDescriptor t) 3
    else if blk = 0 then
      if 0x100 ≤ off then refuses (.unmappedAddress (.descriptor t)) 4
      else if off ∈ [0x000, 0x004, 0x008, 0x00C, 0x010, 0x014, 0x018, 0x01C, 0x020, 0x07C, 0x088, 0x0C0] then performs
      else refuses (.notModelledOffset .uart (BitVec.ofNat 12 off)) 5
    else if blk = 1 then
      if s.cfg.gpioBanks ≤ bank then refuses (.unmappedAddress (.descriptor t)) 4
      else if off ∈ [0x0, 0x4, 0x8, 0xC] then performs
      else refuses (.notModelledOffset (.gpio (BitVec.ofNat 7 bank)) (BitVec.ofNat 12 off)) 5
    else if off ∈ s.cfg.iocRegSet then performs
    else refuses (.notModelledOffset .ioc (BitVec.ofNat 12 off)) 5

/-- R305: DLAB changes the meaning of exactly the four descriptors of offsets 0x000 and 0x004; and after an LCR write that
takes effect the next transaction is decoded under its bit 7. -/
def Obligations.DlabChangesOnlyBankedOffsets : Prop :=
  (∀ (p : Params) (t v : Word),
    decode p true t v ≠ decode p false t v ↔ t ∈ [0x10000000, 0x90000000, 0x10000004, 0x90000004]) ∧
  ∀ (s : State) (v : Word), s.cfg.busyGuard = false →
    ∃ s', exec (.wrLcr v) s = .next s' ∧ ∀ t w, perform t w s' = match decode s.cfg (v.getLsbD 7) t w with
      | .ok i => exec i s'
      | .error e => .refused (DecodeError.toRefusal e)

/-! ### Refused and admitted transactions -/

/-- R503, R505, R553: every write of LSR, MSR and USR is decoded and refused WRITE_READ_ONLY, code 6, with its offset. -/
def Obligations.ReadOnlyRegisterWritesRefused : Prop :=
  ∀ (v : Word) (s : State),
    decode s.cfg s.uart.dlab 0x90000014 v = .ok (.wrLsr v) ∧ exec (.wrLsr v) s = .refused (.writeReadOnly 0x014) ∧
    decode s.cfg s.uart.dlab 0x90000018 v = .ok (.wrMsr v) ∧ exec (.wrMsr v) s = .refused (.writeReadOnly 0x018) ∧
    decode s.cfg s.uart.dlab 0x9000007C v = .ok (.wrUsr v) ∧ exec (.wrUsr v) s = .refused (.writeReadOnly 0x07C) ∧
    ∀ off, (Refusal.writeReadOnly off).code = some 6

/-- R309, R903, R212: but for the three read-only registers and MCR bits 5 and 6, every transaction completes, whatever its
WDATA, and HLOG gains the one entry that says what it was. -/
def Obligations.AdmittedTransactionsComplete : Prop :=
  ∀ (s : State) (i : Instr), i.wf s.cfg s.uart.dlab = true → s.gpio.length = s.cfg.gpioBanks →
    (∀ v, i ≠ .wrLsr v ∧ i ≠ .wrMsr v ∧ i ≠ .wrUsr v) →
    (∀ v, i = .wrMcr v → v.getLsbD 5 = false ∧ v.getLsbD 6 = false) →
    ∃ t x, exec i s = .next t ∧ t.hlog = s.hlog ++ [x] ∧ x.agent = s.master ∧
      x.block.descriptor (decide (x.dir = .write)) x.offset = i.descriptor ∧ x.value = i.wdata.getD t.rdata

/-! ### The banked offsets (40_uart_banked.md) -/

/-- R400: with a character in the buffer, RBR gives it in bits 7:0 and removes it, and the next one's errors are revealed;
without, any value is given and nothing but the records moves. Bits 31:8 (and 7:0 of an empty buffer) are free values. -/
def Obligations.RbrReadPopsOldestCharacter : Prop :=
  ∀ s : State,
    (∀ e q, s.uart.rxq = e :: q → ∃ (x : BitVec 24) (n : Nat),
      exec .rdRbr s = .next ({ s with
        draws := n
        uart := { s.uart with
          rxq := q
          timeoutIp := false
          peS := s.uart.peS || q.head?.any RxEntry.pe
          feS := s.uart.feS || q.head?.any RxEntry.fe
          biS := s.uart.biS || q.head?.any RxEntry.bi } }.afterRead .uart 0x000 (x ++ e.data))) ∧
    (s.uart.rxq = [] → ∃ (x : Word) (n : Nat), exec .rdRbr s = .next ({ s with draws := n }.afterRead .uart 0x000 x))

/-- R401: a character written to THR joins the queue; a full FIFO loses it, a full holding register is overwritten. -/
def Obligations.ThrWriteQueuesCharacter : Prop :=
  ∀ (s : State) (v : Word),
    exec (.wrThr v) s = .next ({ s with
      uart := { s.uart with
        threIp := false
        txq :=
          if s.uart.txq.length < (if s.uart.fifoe then s.cfg.fifoDepth else 1) then s.uart.txq ++ [v.extractLsb' 0 8]
          else if s.uart.fifoe then s.uart.txq
          else [v.extractLsb' 0 8] } }.afterWrite .uart 0x000 v)

/-- R402, R404, R406, R452, R500, R506, R550, R554, R556: a read of a stored register gives it, zero-extended, and nothing
but the records moves. -/
def Obligations.StoredRegisterReads : Prop :=
  ∀ (s : State) (v : Word),
    (s.uart.dlab = true → decode s.cfg s.uart.dlab 0x10000000 v = .ok .rdDll) ∧
    exec .rdDll s = .next (s.afterRead .uart 0x000 (s.uart.dll.setWidth 32)) ∧
    exec .rdIer s = .next (s.afterRead .uart 0x004 (s.uart.ier.setWidth 32)) ∧
    (s.uart.dlab = true → decode s.cfg s.uart.dlab 0x10000004 v = .ok .rdDlh) ∧
    exec .rdDlh s = .next (s.afterRead .uart 0x004 (s.uart.dlh.setWidth 32)) ∧
    exec .rdLcr s = .next (s.afterRead .uart 0x00C (s.uart.lcr.setWidth 32)) ∧
    exec .rdMcr s = .next (s.afterRead .uart 0x010 (s.uart.mcr.setWidth 32)) ∧
    exec .rdScr s = .next (s.afterRead .uart 0x01C (s.uart.scr.setWidth 32)) ∧
    decode s.cfg s.uart.dlab 0x10000020 v = .ok .rdLpdll ∧
    exec .rdLpdll s = .next (s.afterRead .uart 0x020 (s.uart.lpdll.setWidth 32)) ∧
    decode s.cfg s.uart.dlab 0x10000088 v = .ok .rdSrr ∧
    exec .rdSrr s = .next (s.afterRead .uart 0x088 0x00000000) ∧
    exec .rdDlf s = .next (s.afterRead .uart 0x0C0 (s.uart.dlf.setWidth 32))

/-- R403, R407, R408: a divisor latch takes the low byte of WDATA, unless BUSY_GUARD is set and the UART is busy, receiver
activity `rx` being free. -/
def Obligations.DivisorLatchWrites : Prop :=
  ∀ (s : State) (v : Word), ∃ (rx : Bool) (n : Nat),
    let skip := s.cfg.busyGuard && (s.uart.tsrBusy || !s.uart.txq.isEmpty || rx)
    exec (.wrDll v) s = .next ({ s with
      draws := n, uart := if skip then s.uart else { s.uart with dll := v.extractLsb' 0 8 } }.afterWrite .uart 0x000 v) ∧
    exec (.wrDlh v) s = .next ({ s with
      draws := n, uart := if skip then s.uart else { s.uart with dlh := v.extractLsb' 0 8 } }.afterWrite .uart 0x004 v)

/-- R405: IER is replaced whole, within its implemented bits (10_state.md R105); setting ETBEI while the transmit queue is
empty raises the THR-empty condition. -/
def Obligations.IerWriteReplacesRegister : Prop :=
  ∀ (s : State) (v : Word),
    let new := v.extractLsb' 0 8 &&& if s.cfg.threModePresent then 0x8F else 0x0F
    exec (.wrIer v) s = .next ({ s with
      uart := { s.uart with
        ier := new
        threIp := if s.uart.ier.getLsbD 1 = false ∧ v.getLsbD 1 = true ∧ s.uart.txq = [] then true
          else s.uart.threIp } }.afterWrite .uart 0x004 v)

/-! ### Offsets 0x008 and 0x00C (41_uart_line_control.md) -/

/-- R450, R112: an IIR read gives FIFOE twice, 00, and the identification, and clears THRE_IP exactly when it reports it. -/
def Obligations.IirReadReportsInterrupt : Prop :=
  ∀ s : State, ∃ r : Word,
    exec .rdIir s = .next ({ s with
      uart := { s.uart with threIp := s.uart.threIp && iid s.cfg s.uart != 0b0010 } }.afterRead .uart 0x008 r) ∧
    r.toNat = (if s.uart.fifoe then 0xC0 else 0x00) + (iid s.cfg s.uart).toNat

/-- R451: what an FCR write does to the queues, the latches and the stored fields. -/
def Obligations.FcrWriteResetsQueues : Prop :=
  ∀ (s : State) (v : Word),
    let change := v.getLsbD 0 != s.uart.fifoe
    let rx := change || v.getLsbD 1
    let tx := change || v.getLsbD 2
    exec (.wrFcr v) s = .next ({ s with
      uart := { s.uart with
        fifoe := v.getLsbD 0
        rxq := if rx then [] else s.uart.rxq
        timeoutIp := s.uart.timeoutIp && !rx
        txq := if tx then [] else s.uart.txq
        threIp := s.uart.threIp || (tx && !s.uart.txq.isEmpty)
        dmam := v.getLsbD 3
        tet := v.extractLsb' 4 2
        rt := v.extractLsb' 6 2 } }.afterWrite .uart 0x008 v)

/-- R453, R605: LCR takes the low byte of WDATA, and a change of its break bit is logged on the line; a guarded write while
the UART is busy (receiver activity `rx` being free) is ignored and raises BUSY_IP. -/
def Obligations.LcrWriteAndBreak : Prop :=
  ∀ (s : State) (v : Word), ∃ (rx : Bool) (n : Nat),
    exec (.wrLcr v) s = .next (
      if s.cfg.busyGuard && (s.uart.tsrBusy || !s.uart.txq.isEmpty || rx) then
        { s with draws := n, uart := { s.uart with busyIp := true } }.afterWrite .uart 0x00C v
      else
        { s with
          draws := n
          uart := { s.uart with lcr := v.extractLsb' 0 8 }
          txlog := s.txlog ++
            (if s.uart.lcr.getLsbD 6 = false ∧ v.getLsbD 6 = true then [LineEvent.breakStart]
             else if s.uart.lcr.getLsbD 6 = true ∧ v.getLsbD 6 = false then [LineEvent.breakEnd]
             else []) }.afterWrite .uart 0x00C v)

/-! ### Offsets 0x010 to 0x01C (42_uart_modem_status.md) -/

/-- R501, R612: MCR takes bits 6:0 of WDATA, which may not set bit 5 or 6, and a change of the effective modem inputs sets
the delta bits. -/
def Obligations.McrWriteSetsDeltas : Prop :=
  ∀ (s : State) (v : Word),
    ((v.getLsbD 5 = true ∨ v.getLsbD 6 = true) →
      exec (.wrMcr v) s = .refused (.valueNotAdmitted v) ∧ (Refusal.valueNotAdmitted v).code = some 7) ∧
    (v.getLsbD 5 = false → v.getLsbD 6 = false →
      let o := effModem s.env s.uart
      let n : ModemLines :=
        if v.getLsbD 4 then { cts := v.getLsbD 1, dsr := v.getLsbD 0, ri := v.getLsbD 2, dcd := v.getLsbD 3 } else s.env
      exec (.wrMcr v) s = .next ({ s with
        uart := { s.uart with
          mcr := v.extractLsb' 0 7
          dcts := s.uart.dcts || o.cts != n.cts
          ddsr := s.uart.ddsr || o.dsr != n.dsr
          teri := s.uart.teri || (o.ri && !n.ri)
          ddcd := s.uart.ddcd || o.dcd != n.dcd } }.afterWrite .uart 0x010 v))

/-- R502, R114: the eight bits of LSR, each from the state before the read, and the four sticky error bits cleared. -/
def Obligations.LsrReadClearsErrors : Prop :=
  ∀ s : State, ∃ r : Word,
    exec .rdLsr s = .next ({ s with
      uart := { s.uart with oe := false, peS := false, feS := false, biS := false } }.afterRead .uart 0x014 r) ∧
    r.toNat < 256 ∧
    r.getLsbD 0 = !s.uart.rxq.isEmpty ∧
    r.getLsbD 1 = s.uart.oe ∧ r.getLsbD 2 = s.uart.peS ∧ r.getLsbD 3 = s.uart.feS ∧ r.getLsbD 4 = s.uart.biS ∧
    (r.getLsbD 5 = if s.uart.fifoe = true ∧ s.uart.ier.getLsbD 7 = true then decide (s.uart.txq.length = s.cfg.fifoDepth)
      else s.uart.txq.isEmpty) ∧
    r.getLsbD 6 = (s.uart.txq.isEmpty && !s.uart.tsrBusy) ∧
    r.getLsbD 7 = (s.uart.fifoe && s.uart.rxq.any fun e => e.pe || e.fe || e.bi)

/-- R504, R115: MSR gives the effective modem inputs and the deltas, and clears the deltas. -/
def Obligations.MsrReadClearsDeltas : Prop :=
  ∀ s : State, ∃ r : Word,
    exec .rdMsr s = .next ({ s with
      uart := { s.uart with dcts := false, ddsr := false, teri := false, ddcd := false } }.afterRead .uart 0x018 r) ∧
    r.toNat < 256 ∧
    r.getLsbD 0 = s.uart.dcts ∧ r.getLsbD 1 = s.uart.ddsr ∧ r.getLsbD 2 = s.uart.teri ∧ r.getLsbD 3 = s.uart.ddcd ∧
    (s.uart.mcr.getLsbD 4 = false →
      r.getLsbD 4 = s.env.cts ∧ r.getLsbD 5 = s.env.dsr ∧ r.getLsbD 6 = s.env.ri ∧ r.getLsbD 7 = s.env.dcd) ∧
    (s.uart.mcr.getLsbD 4 = true →
      r.getLsbD 4 = s.uart.mcr.getLsbD 1 ∧ r.getLsbD 5 = s.uart.mcr.getLsbD 0 ∧ r.getLsbD 6 = s.uart.mcr.getLsbD 2 ∧
      r.getLsbD 7 = s.uart.mcr.getLsbD 3)

/-- R507, R551, R557: SCR and LPDLL take the low byte of WDATA, DLF its DLF_SIZE low bits, and nothing else moves. -/
def Obligations.ScratchAndDividerFractionWrites : Prop :=
  ∀ (s : State) (v : Word),
    exec (.wrScr v) s = .next ({ s with uart := { s.uart with scr := v.extractLsb' 0 8 } }.afterWrite .uart 0x01C v) ∧
    exec (.wrLpdll v) s = .next ({ s with uart := { s.uart with lpdll := v.extractLsb' 0 8 } }.afterWrite .uart 0x020 v) ∧
    (s.cfg.dlfSize ≤ 8 →
      exec (.wrDlf v) s = .next ({ s with
        uart := { s.uart with dlf := BitVec.ofNat 8 (v.toNat % 2 ^ s.cfg.dlfSize) } }.afterWrite .uart 0x0C0 v))

/-! ### DesignWare extensions and reset (43_uart_dw_extensions.md, 70_reset_and_hazards.md) -/

/-- R552, R116: USR's five bits, BUSY being free while the transmitter is idle, and BUSY_IP cleared. -/
def Obligations.UsrReadClearsBusy : Prop :=
  ∀ s : State, ∃ (r : Word) (n : Nat),
    exec .rdUsr s = .next ({ s with draws := n, uart := { s.uart with busyIp := false } }.afterRead .uart 0x07C r) ∧
    r.toNat < 32 ∧
    (s.uart.tsrBusy = true ∨ s.uart.txq ≠ [] → r.getLsbD 0 = true) ∧
    r.getLsbD 1 = decide (s.uart.txq.length < if s.uart.fifoe then s.cfg.fifoDepth else 1) ∧
    r.getLsbD 2 = s.uart.txq.isEmpty ∧
    r.getLsbD 3 = !s.uart.rxq.isEmpty ∧
    r.getLsbD 4 = decide (s.uart.rxq.length = if s.uart.fifoe then s.cfg.fifoDepth else 1)

/-- R555, UR = 0: the queue resets of SRR, and nothing else. -/
def Obligations.SrrWriteEmptiesQueues : Prop :=
  ∀ (s : State) (v : Word), v.getLsbD 0 = false →
    exec (.wrSrr v) s = .next ({ s with
      uart := { s.uart with
        rxq := if v.getLsbD 1 then [] else s.uart.rxq
        timeoutIp := s.uart.timeoutIp && !v.getLsbD 1
        txq := if v.getLsbD 2 then [] else s.uart.txq
        threIp := s.uart.threIp || (v.getLsbD 2 && !s.uart.txq.isEmpty) } }.afterWrite .uart 0x088 v)

/-- R555, R1000, R1001: an SRR write with UR set, and HW_RESET, put every UART element at its reset value (TSR and TSR_FMT,
`b` and `f`, being free), log the end of a break, and leave the modem inputs, HLOG and the hosts; the registers then read as
R1000's last column says. A step whose event is HW_RESET is that reset (log 22), and leaves free values in the GPIO and IOC
registers (logs 4, 5). -/
def Obligations.UartResetState : Prop :=
  ∀ s : State, ∃ (b : Byte) (f : Fmt),
    let u : Uart := {
      dll := 0, dlh := 0, ier := 0, lcr := 0, mcr := 0, scr := 0, lpdll := 0, dlf := 0, fifoe := false, dmam := false
      tet := 0, rt := 0, txq := [], tsrBusy := false, tsr := b, tsrFmt := f, rxq := [], oe := false, peS := false
      feS := false, biS := false, dcts := false, ddsr := false, teri := false, ddcd := false, threIp := false
      timeoutIp := false, busyIp := false }
    let log := s.txlog ++ if s.uart.lcr.getLsbD 6 then [LineEvent.breakEnd] else []
    (∀ v : Word, v.getLsbD 0 = true → ∃ n,
      exec (.wrSrr v) s = .next ({ s with uart := u, txlog := log, draws := n }.afterWrite .uart 0x088 v)) ∧
    (s.nextEvent = .hwReset →
      ∃ n g c, step s = .next { s.taken with uart := u, txlog := log, gpio := g, ioc := c, draws := n } ∧
        g.length = s.cfg.gpioBanks ∧ sparseWf 0 c = true ∧ ∀ x ∈ c, x.1 ∈ s.cfg.iocRegSet) ∧
    iir s.cfg u = 0x01 ∧ lsr s.cfg u = 0x60 ∧ (msr s.env u).extractLsb' 0 4 = 0 ∧ (usr s.cfg u true).extractLsb' 1 4 = 0b0011 ∧
    (msr s.env u).extractLsb' 4 4 = BitVec.ofBool s.env.dcd ++ BitVec.ofBool s.env.ri ++ BitVec.ofBool s.env.dsr ++
      BitVec.ofBool s.env.cts ∧
    u.outputs = { dtr := false, rts := false, out1 := false, out2 := false } ∧ iid s.cfg u = 0b0001

/-! ### GPIO and IOC (45_gpio_iomux.md) -/

/-- R705 to R708: a GPIO read gives the stored half in bits 15:0, bits 31:16 being free. A bank that is not there is
refused as the decoder of R303 and R900 refuses it: that `exec` does so too is DEDUCED (log 20). -/
def Obligations.GpioReads : Prop :=
  ∀ (s : State) (k : BitVec 7),
    (∀ g, s.gpio[k.toNat]? = some g → ∃ (x : BitVec 16) (n : Nat),
      exec (.rdDrL k) s = .next ({ s with draws := n }.afterRead (.gpio k) 0x000 (x ++ g.drL)) ∧
      exec (.rdDrH k) s = .next ({ s with draws := n }.afterRead (.gpio k) 0x004 (x ++ g.drH)) ∧
      exec (.rdDdrL k) s = .next ({ s with draws := n }.afterRead (.gpio k) 0x008 (x ++ g.ddrL)) ∧
      exec (.rdDdrH k) s = .next ({ s with draws := n }.afterRead (.gpio k) 0x00C (x ++ g.ddrH))) ∧
    (s.gpio[k.toNat]? = none → ∀ i ∈ [Instr.rdDrL k, .rdDrH k, .rdDdrL k, .rdDdrH k],
      exec i s = .refused (.unmappedAddress (.descriptor i.descriptor)))

/-- R701 to R704, R700: a GPIO write changes exactly the selected bits of one register of one bank. A bank that is not there
is refused as the decoder of R303 and R900 refuses it: that `exec` does so too is DEDUCED (log 20). -/
def Obligations.GpioWrites : Prop :=
  ∀ (s : State) (k : BitVec 7) (v : Word),
    let upd := fun r : Half => (r &&& ~~~v.extractLsb' 16 16) ||| (v.extractLsb' 0 16 &&& v.extractLsb' 16 16)
    (∀ g, s.gpio[k.toNat]? = some g →
      exec (.wrDrL k v) s = .next (
        { s with gpio := s.gpio.set k.toNat { g with drL := upd g.drL } }.afterWrite (.gpio k) 0x000 v) ∧
      exec (.wrDrH k v) s = .next (
        { s with gpio := s.gpio.set k.toNat { g with drH := upd g.drH } }.afterWrite (.gpio k) 0x004 v) ∧
      exec (.wrDdrL k v) s = .next (
        { s with gpio := s.gpio.set k.toNat { g with ddrL := upd g.ddrL } }.afterWrite (.gpio k) 0x008 v) ∧
      exec (.wrDdrH k v) s = .next (
        { s with gpio := s.gpio.set k.toNat { g with ddrH := upd g.ddrH } }.afterWrite (.gpio k) 0x00C v)) ∧
    (s.gpio[k.toNat]? = none → ∀ i ∈ [Instr.wrDrL k v, .wrDrH k v, .wrDdrL k v, .wrDdrH k v],
      exec i s = .refused (.unmappedAddress (.descriptor i.descriptor)))

/-- R711, R712, R710: an IOC write updates the one register, whose selected bits alone change, and every other reads as
before; a read gives the register in bits 15:0, bits 31:16 being free. An offset with no register is refused (R710); that
`exec` does so too is DEDUCED (log 20). -/
def Obligations.IocTransactions : Prop :=
  ∀ (s : State) (off : BitVec 12) (v : Word),
    (off.toNat ∈ s.cfg.iocRegSet → sparseWf 0 s.ioc = true →
      (∃ (x : BitVec 16) (n : Nat),
        exec (.rdIoc off) s = .next ({ s with draws := n }.afterRead .ioc off (x ++ s.iocReg off))) ∧
      ∃ m, exec (.wrIoc off v) s = .next ({ s with ioc := m }.afterWrite .ioc off v) ∧
        ({ s with ioc := m } : State).iocReg off =
          (s.iocReg off &&& ~~~v.extractLsb' 16 16) ||| (v.extractLsb' 0 16 &&& v.extractLsb' 16 16) ∧
        ∀ o, o ≠ off → ({ s with ioc := m } : State).iocReg o = s.iocReg o) ∧
    (off.toNat ∉ s.cfg.iocRegSet →
      exec (.rdIoc off) s = .refused (.notModelledOffset .ioc off) ∧
      exec (.wrIoc off v) s = .refused (.notModelledOffset .ioc off))

/-- R700: bit by bit, a write-mask write takes the value's bit where the mask's is set and keeps the register's elsewhere;
and doing it twice leaves what doing it once does (20_memory.md R211). -/
def Obligations.WriteMaskSelectsBits : Prop :=
  ∀ (reg : Half) (v : Word),
    (∀ i, i < 16 → (wmUpdate reg v).getLsbD i = if v.getLsbD (16 + i) then v.getLsbD i else reg.getLsbD i) ∧
    wmUpdate (wmUpdate reg v) v = wmUpdate reg v

/-! ### Device agents (44_uart_engines.md) -/

/-- R602, R601: TX_LOAD, chosen while it is enabled, moves the oldest character and the line format of this moment into the
shift register; chosen while it is not, it moves nothing (log 1). -/
def Obligations.TxLoadFillsShiftRegister : Prop :=
  ∀ s : State, s.nextEvent = .agent .txLoad →
    (∀ b q, s.uart.txq = b :: q → s.uart.tsrBusy = false → s.uart.div ≠ 0 →
      step s = .next { s.taken with
        uart := { s.uart with
          tsr := b
          tsrFmt := fmtOf s.uart.lcr
          txq := q
          tsrBusy := true
          threIp := s.uart.threIp || q.isEmpty } }) ∧
    (s.uart.txq = [] ∨ s.uart.tsrBusy = true ∨ s.uart.div = 0 → step s = .next s.taken)

/-- R603, R607, R601: TX_DONE, chosen while it is enabled, puts the character on the wire, or, in loopback, into the receive
queue, clearing the bits above the data width, and frees the shift register; else it moves nothing (log 1). -/
def Obligations.TxDoneDeliversCharacter : Prop :=
  ∀ s : State, s.nextEvent = .agent .txDone →
    let d := s.uart.tsr &&& BitVec.ofNat 8 (2 ^ s.uart.tsrFmt.bits - 1)
    (s.uart.tsrBusy = true → s.uart.div ≠ 0 → s.uart.mcr.getLsbD 4 = false →
      step s = .next { s.taken with
        uart := { s.uart with tsrBusy := false }, txlog := s.txlog ++ [.char d s.uart.tsrFmt] }) ∧
    (s.uart.tsrBusy = true → s.uart.div ≠ 0 → s.uart.mcr.getLsbD 4 = true →
      step s = .next { s.taken with
        uart := { pushRx s.cfg { data := d &&& s.uart.dmask, pe := false, fe := false, bi := false } s.uart with
          tsrBusy := false } }) ∧
    (s.uart.tsrBusy = false ∨ s.uart.div = 0 → step s = .next s.taken)

/-- R606, R608, R609, R601: RX_FRAME, chosen while it is enabled, masks the character to the data width (0 for a break) and
queues it; an overrun sets OE and loses the new character in FIFO mode, the old one else; a character that becomes the head
reveals its errors; afterwards data is ready. While it is not enabled it moves nothing (log 1). -/
def Obligations.RxFrameQueuesCharacter : Prop :=
  ∀ (s : State) (d : Byte) (pe fe bi : Bool), s.nextEvent = .agent (.rxFrame d pe fe bi) →
    let e : RxEntry := { data := if bi then 0 else d &&& s.uart.dmask, pe := pe, fe := fe, bi := bi }
    let cap := if s.uart.fifoe then s.cfg.fifoDepth else 1
    let enabled := s.uart.mcr.getLsbD 4 = false ∧ s.uart.div ≠ 0 ∧ (pe = true → s.uart.lcr.getLsbD 3 = true)
    (enabled → s.uart.rxq = [] → 0 < cap →
      step s = .next { s.taken with
        uart := { s.uart with
          rxq := [e], timeoutIp := false, peS := s.uart.peS || pe, feS := s.uart.feS || fe, biS := s.uart.biS || bi } }) ∧
    (enabled → s.uart.rxq ≠ [] → s.uart.rxq.length < cap →
      step s = .next { s.taken with uart := { s.uart with rxq := s.uart.rxq ++ [e], timeoutIp := false } }) ∧
    (enabled → cap ≤ s.uart.rxq.length → s.uart.fifoe = true →
      step s = .next { s.taken with uart := { s.uart with oe := true, timeoutIp := false } }) ∧
    (enabled → cap ≤ s.uart.rxq.length → s.uart.fifoe = false →
      step s = .next { s.taken with
        uart := { s.uart with
          rxq := [e], oe := true, timeoutIp := false
          peS := s.uart.peS || pe, feS := s.uart.feS || fe, biS := s.uart.biS || bi } }) ∧
    (¬enabled → step s = .next s.taken)

/-- R610, R611, R612: RX_TIMEOUT, chosen in FIFO mode with a character waiting, sets TIMEOUT_IP; MODEM_CHANGE sets the four
inputs and, outside loopback, the delta bits of what changed (TERI on the ring's trailing edge only). -/
def Obligations.TimeoutAndModemSteps : Prop :=
  ∀ s : State,
    (s.nextEvent = .agent .rxTimeout →
      (s.uart.fifoe = true → s.uart.rxq ≠ [] → s.uart.timeoutIp = false →
        step s = .next { s.taken with uart := { s.uart with timeoutIp := true } }) ∧
      (s.uart.fifoe = false ∨ s.uart.rxq = [] ∨ s.uart.timeoutIp = true → step s = .next s.taken)) ∧
    (∀ cts dsr ri dcd, s.nextEvent = .agent (.modemChange cts dsr ri dcd) →
      let out := !s.uart.mcr.getLsbD 4
      step s = .next { s.taken with
        env := { cts := cts, dsr := dsr, ri := ri, dcd := dcd }
        uart := { s.uart with
          dcts := s.uart.dcts || (out && s.env.cts != cts)
          ddsr := s.uart.ddsr || (out && s.env.dsr != dsr)
          teri := s.uart.teri || (out && s.env.ri && !ri)
          ddcd := s.uart.ddcd || (out && s.env.dcd != dcd) } })

/-- R604: the line format of an LCR value, field by field. -/
def Obligations.LineFormatOfLcr : Prop :=
  ∀ lcr : Byte,
    let two := lcr.toNat % 4
    (fmtOf lcr).bits = 5 + two ∧
    ((fmtOf lcr).stop =
      if lcr.getLsbD 2 = false then .one else if two = 0 then .onePointFive else .two) ∧
    ((fmtOf lcr).parity =
      if lcr.getLsbD 3 = false then .none
      else if lcr.getLsbD 5 = true then (if lcr.getLsbD 4 = true then .space else .mark)
      else (if lcr.getLsbD 4 = true then .even else .odd)) ∧
    fmtOf 0x03 = { bits := 8, stop := .one, parity := .none }

/-- R613, R605, R130, R709: the modem outputs, the idle level of the line (0 in break; that this holds in loopback too is
DEDUCED, log 16), the level of an output pin and the routing of the UART signals, each a function of the registers; and R605:
the characters that TXLOG holds between `BreakStart` and `BreakEnd` are not received by the remote end, all others are. -/
def Obligations.OutputLevels : Prop :=
  (∀ u : Uart,
    u.outputs.dtr = (u.mcr.getLsbD 0 && !u.mcr.getLsbD 4) ∧ u.outputs.rts = (u.mcr.getLsbD 1 && !u.mcr.getLsbD 4) ∧
    u.outputs.out1 = (u.mcr.getLsbD 2 && !u.mcr.getLsbD 4) ∧ u.outputs.out2 = (u.mcr.getLsbD 3 && !u.mcr.getLsbD 4) ∧
    u.lineIdleLevel = !u.lcr.getLsbD 6) ∧
  (∀ (b : GpioBank) (p : Nat), p < 16 →
    b.drives p = (if b.ddrL.getLsbD p then some (b.drL.getLsbD p) else none) ∧
    b.drives (16 + p) = (if b.ddrH.getLsbD p then some (b.drH.getLsbD p) else none)) ∧
  (∀ s : State,
    (s.routed s.cfg.pinmuxARole = true ↔ (s.iocReg 0x02C).toNat % 16 = 10) ∧
    ∀ sig, sig ≠ s.cfg.pinmuxARole → (s.routed sig = true ↔ (s.iocReg 0x02C).toNat / 16 % 16 = 10)) ∧
  ∀ (pre post : List LineEvent) (sent broken : List (Byte × Fmt)),
    let chars := fun l : List (Byte × Fmt) => l.map fun x => LineEvent.char x.1 x.2
    heardBy false (chars sent) = sent ∧
    heardBy false (pre ++ .breakStart :: chars broken) = heardBy false pre ∧
    heardBy false (pre ++ .breakStart :: (chars broken ++ .breakEnd :: post)) = heardBy false pre ++ heardBy false post

/-! ### Interrupts (60_exceptions.md) -/

/-- R911, R916, R917: the identification is that of the first pending and enabled source in the order of R916, and INTR is
asserted exactly while there is one. -/
def Obligations.InterruptPriority : Prop :=
  ∀ s : State,
    let u := s.uart
    let level := if u.rt = 0b00 then 1 else if u.rt = 0b01 then max 1 (s.cfg.fifoDepth / 4)
      else if u.rt = 0b10 then max 1 (s.cfg.fifoDepth / 2) else max 1 (s.cfg.fifoDepth - 2)
    let rls := u.ier.getLsbD 2 = true ∧ (u.oe = true ∨ u.peS = true ∨ u.feS = true ∨ u.biS = true)
    let rda := u.ier.getLsbD 0 = true ∧ (if u.fifoe = true then level ≤ u.rxq.length else u.rxq ≠ [])
    let cto := u.ier.getLsbD 0 = true ∧ u.fifoe = true ∧ u.timeoutIp = true
    let thre := u.ier.getLsbD 1 = true ∧ u.threIp = true
    let ms := u.ier.getLsbD 3 = true ∧ (u.dcts = true ∨ u.ddsr = true ∨ u.teri = true ∨ u.ddcd = true)
    let busy := u.busyIp = true
    (iid s.cfg u = 0b0110 ↔ rls) ∧
    (iid s.cfg u = 0b0100 ↔ ¬rls ∧ rda) ∧
    (iid s.cfg u = 0b1100 ↔ ¬rls ∧ ¬rda ∧ cto) ∧
    (iid s.cfg u = 0b0010 ↔ ¬rls ∧ ¬rda ∧ ¬cto ∧ thre) ∧
    (iid s.cfg u = 0b0000 ↔ ¬rls ∧ ¬rda ∧ ¬cto ∧ ¬thre ∧ ms) ∧
    (iid s.cfg u = 0b0111 ↔ ¬rls ∧ ¬rda ∧ ¬cto ∧ ¬thre ∧ ¬ms ∧ busy) ∧
    (s.intr = true ↔ rls ∨ rda ∨ cto ∨ thre ∨ ms ∨ busy)

/-- R919: with IER = 0 and no busy guard INTR is 0, and stays so over any step but a UART write at offset 0x004; with
IER = 0x01 in non-FIFO mode INTR is LSR.DR. -/
def Obligations.PolledDriverInterrupts : Prop :=
  ∀ s : State, s.Inv → s.cfg.busyGuard = false →
    (s.uart.ier = 0x00 → s.intr = false ∧
      ∀ t, step s = .next t → (∀ x, t.hlog = s.hlog ++ [x] → x.block = .uart → x.dir = .write → x.offset ≠ 0x004) →
        t.uart.ier = 0x00 ∧ t.intr = false) ∧
    (s.uart.ier = 0x01 → s.uart.fifoe = false → s.intr = (lsr s.cfg s.uart).getLsbD 0)

/-! ### Host statements (30_encoding.md) -/

/-- R303, R305: a step of a host whose statement is a transaction runs what its descriptor decodes to under the DLAB of this
moment, as bus master, and goes to the next statement; a descriptor that decodes to nothing, or a transaction that is refused,
refuses the step. `withFetchWord` puts a transaction where the next step finds it. -/
def Obligations.StepRunsDecodedTransaction : Prop :=
  (∀ (s : State) (h : Nat) (c : HostCtx) (t v : Word), s.Runs h c (.txn t v) →
    (∀ i, decode s.cfg s.uart.dlab t v = .ok i →
      step s = match exec i { s.taken with master := h } with
        | .next s' => .next { s' with hosts := s'.hosts.set h { c with pc := c.pc + 1 } }
        | .fault f => .fault f
        | .refused r => .refused r) ∧
    (∀ e, decode s.cfg s.uart.dlab t v = .error e → step s = .refused (DecodeError.toRefusal e))) ∧
  ∀ (s : State) (nbits w : Nat), s.hosts ≠ [] → ∃ c,
    (s.withFetchWord nbits w).Runs 0 c
      (.txn (BitVec.ofNat 32 (w % 2 ^ nbits)) (BitVec.ofNat 32 (w % 2 ^ nbits / 2 ^ 32))) ∧
    (s.withFetchWord nbits w).taken = { s with hosts := s.hosts.set 0 c }

/-- R313, R314, R310: `rd` performs one read and puts RDATA in its variable; `wr` performs one write of its expression's
value; either goes to the next statement. An address operand stands for the descriptor of R301 with its block, bank and
offset, an absolute address for that of the block that holds it (R800), one in no block being refused (R203). A refused
transaction or descriptor refuses the step; so does a failing expression, with ARG_OUT_OF_RANGE (R316, R900), and before the
address is looked at (log 30). -/
def Obligations.ReadAndWriteStatements : Prop :=
  (∀ (s : State) (h : Nat) (c : HostCtx) (a : AddrOp),
    (∀ x, s.Runs h c (.rd x a) →
      (∀ r, a.descriptor s.cfg false = .error r → step s = .refused r) ∧
      ∀ t, a.descriptor s.cfg false = .ok t →
        step s = match perform t 0 { s.taken with master := h } with
          | .next s' =>
            .next { s' with hosts := s'.hosts.set h { c with vars := setVar x (.u32 s'.rdata) c.vars, pc := c.pc + 1 } }
          | .fault f => .fault f
          | .refused r => .refused r) ∧
    (∀ e, s.Runs h c (.wr a e) →
      (∀ y, e.eval c.vars = .error y → step s = .refused (.argOutOfRange (.wr a e) y)) ∧
      ∀ v, e.eval c.vars = .ok v →
        (∀ r, a.descriptor s.cfg true = .error r → step s = .refused r) ∧
        ∀ t, a.descriptor s.cfg true = .ok t →
          step s = match perform t v { s.taken with master := h } with
            | .next s' => .next { s' with hosts := s'.hosts.set h { c with pc := c.pc + 1 } }
            | .fault f => .fault f
            | .refused r => .refused r)) ∧
  ∀ (p : Params) (w : Bool) (off : BitVec 12) (k : BitVec 7),
    (AddrOp.uart off).descriptor p w = .ok ((if w then 0x90000000 else 0x10000000 : Word) ||| off.setWidth 32) ∧
    (AddrOp.gpio k off).descriptor p w =
      .ok ((if w then 0xB0000000 else 0x30000000 : Word) ||| (k.setWidth 32 <<< 20) ||| off.setWidth 32) ∧
    (AddrOp.ioc off).descriptor p w = .ok ((if w then 0xD0000000 else 0x50000000 : Word) ||| off.setWidth 32) ∧
    ∀ addr,
      (target p addr = some (.uart, off) → (AddrOp.absolute addr).descriptor p w = (AddrOp.uart off).descriptor p w) ∧
      (target p addr = some (.gpio k, off) → (AddrOp.absolute addr).descriptor p w = (AddrOp.gpio k off).descriptor p w) ∧
      (target p addr = some (.ioc, off) → (AddrOp.absolute addr).descriptor p w = (AddrOp.ioc off).descriptor p w) ∧
      (target p addr = none → (AddrOp.absolute addr).descriptor p w = .error (.unmappedAddress (.address addr)))

/-- R315: a `poll` makes one read a step; it leaves when a masked bit is set, or, under POLL_BOUND = N, after its N-th read
without one, with TIMEOUT set; else it stays. The count of the reads is a field of the host and TIMEOUT its variable 0 (log
17); a bound of 0 is left after one read (log 24). The mask is an expression, evaluated after the read; a failing one refuses
the step, its read with it (logs 31, 40), and so does a refused descriptor or read. (That the host's variables are in
canonical form is kept by every step: EveryStepKeepsInvariant.) -/
def Obligations.PollReadsUntilBitSet : Prop :=
  ∀ (s : State) (h : Nat) (c : HostCtx) (x : Var) (a : AddrOp) (m : UExpr), s.Runs h c (.poll x a m) →
    (∀ r, a.descriptor s.cfg false = .error r → step s = .refused r) ∧
    ∀ t, a.descriptor s.cfg false = .ok t →
      (∀ r, perform t 0 { s.taken with master := h } = .refused r → step s = .refused r) ∧
      ∀ s', perform t 0 { s.taken with master := h } = .next s' →
        let vars := setVar x (.u32 s'.rdata) c.vars
        sparseWf (.u32 0) c.vars = true →
        (∀ y, m.eval vars = .error y → step s = .refused (.argOutOfRange (.poll x a m) y)) ∧
        ∀ mask, m.eval vars = .ok mask → step s = .next { s' with
          hosts := s'.hosts.set h
            (if s'.rdata &&& mask ≠ 0 then { c with vars := vars, pc := c.pc + 1, polls := 0 }
             else match s.cfg.pollBound with
              | none => { c with vars := vars }
              | some n =>
                if c.polls + 1 < n then { c with vars := vars, polls := c.polls + 1 }
                else { c with vars := setVar timeoutVar (.u32 1) vars, pc := c.pc + 1, polls := 0 }) }

/-- R316, R317, R318: `let` assigns; `bz`, `bnz` and `jmp` go to the statement of their label; none performs a transaction. A
failing expression or mask refuses the step with ARG_OUT_OF_RANGE (R316). A variable never fails: a `Nat` enters a `u32`
expression as `trunc_32` of its value, a `u32` a `Nat` expression as its value (log 19), a result that is no number as a free
one (log 13). A program with a branch to a label that is not there is refused when it is loaded, and such a branch when it
runs (R317, log 14). -/
def Obligations.LetAndBranchStatements : Prop :=
  (∀ (s : State) (h : Nat) (c : HostCtx),
    let goes := fun c' : HostCtx => step s = .next { s.taken with master := h, hosts := s.hosts.set h c' }
    let refuses := fun (st : Stmt) (y : ArgError) => step s = .refused (.argOutOfRange st y)
    let jumps := fun l : Label =>
      (∀ n, labelIndex l c.body = some n → goes { c with pc := n }) ∧
      (labelIndex l c.body = none → step s = .refused (.unformedProgram (some l)))
    (∀ x e, s.Runs h c (.letU x e) →
      (∀ w, e.eval c.vars = .ok w → goes { c with vars := setVar x (.u32 w) c.vars, pc := c.pc + 1 }) ∧
      ∀ y, e.eval c.vars = .error y → refuses (.letU x e) y) ∧
    (∀ x e, s.Runs h c (.letN x e) →
      (∀ n, e.eval c.vars = .ok n → goes { c with vars := setVar x (.nat n) c.vars, pc := c.pc + 1 }) ∧
      ∀ y, e.eval c.vars = .error y → refuses (.letN x e) y) ∧
    (∀ x m l, s.Runs h c (.bz x m l) →
      (∀ w mask, (UExpr.var x).eval c.vars = .ok w → m.eval c.vars = .ok mask →
        (w &&& mask = 0 → jumps l) ∧ (w &&& mask ≠ 0 → goes { c with pc := c.pc + 1 })) ∧
      ∀ y, m.eval c.vars = .error y → refuses (.bz x m l) y) ∧
    (∀ x m l, s.Runs h c (.bnz x m l) →
      (∀ w mask, (UExpr.var x).eval c.vars = .ok w → m.eval c.vars = .ok mask →
        (w &&& mask ≠ 0 → jumps l) ∧ (w &&& mask = 0 → goes { c with pc := c.pc + 1 })) ∧
      ∀ y, m.eval c.vars = .error y → refuses (.bnz x m l) y) ∧
    (∀ l, s.Runs h c (.jmp l) → jumps l)) ∧
  (∀ (vars : List (Nat × Val)) (x : Var),
    (∀ w, getVar vars x = .u32 w → (UExpr.var x).eval vars = .ok w ∧ (NExpr.var x).eval vars = .ok w.toNat) ∧
    (∀ n, getVar vars x = .nat n →
      (UExpr.var x).eval vars = .ok (BitVec.ofNat 32 n) ∧ (NExpr.var x).eval vars = .ok n) ∧
    ∃ n, (UExpr.var x).eval vars = .ok (BitVec.ofNat 32 n) ∧ (NExpr.var x).eval vars = .ok n) ∧
  ∀ (s : State) (h : Nat) (prog : List Line),
    (formed prog = true → s.load h prog = .next { s with
      hosts := s.hosts.set h
        { body := prog, pc := 0, vars := [], polls := 0, callers := [], halted := false, result := none } }) ∧
    ∀ x ∈ prog, ∀ l ∈ x.stmt.targets, labelIndex l prog = none →
      ∃ l', s.load h prog = .refused (.unformedProgram (some l')) ∧ labelIndex l' prog = none ∧
        ∃ y ∈ prog, l' ∈ y.stmt.targets

/-- R311, R312, R319: `ret` in a top-level program, `halt`, and running past the last statement halt the host; `ret` in a
called body gives its value to the caller and goes on after the call; a halted host takes no step (log 1) and keeps its `pc`
(log 33). Of the body's variables only TIMEOUT reaches the caller (logs 12, 17); a call that names a variable and gets no
value leaves it (log 29). -/
def Obligations.ReturnAndHaltStatements : Prop :=
  (∀ (s : State) (h : Nat) (c : HostCtx),
    (∀ r v, s.Runs h c (.ret r) → r.eval c.vars = .ok v →
      (c.callers = [] →
        step s = .next { s.taken with master := h, hosts := s.hosts.set h { c with halted := true, result := v } }) ∧
      ∀ k rest, c.callers = k :: rest →
        let vars := carryTimeout (getVar c.vars timeoutVar) k.vars
        ∃ c', step s = .next { s.taken with master := h, hosts := s.hosts.set h c' } ∧
          c'.body = k.body ∧ c'.pc = k.pc ∧ c'.callers = rest ∧ c'.halted = false ∧ c'.result = c.result ∧
          (∀ x y, k.dst = some x → v = some y → c'.vars = setVar x y vars) ∧
          (k.dst = none ∨ v = none → c'.vars = vars)) ∧
    (∀ r y, s.Runs h c (.ret r) → r.eval c.vars = .error y → step s = .refused (.argOutOfRange (.ret r) y)) ∧
    (s.Runs h c .halt →
      step s = .next { s.taken with master := h, hosts := s.hosts.set h { c with halted := true } }) ∧
    (s.nextEvent = .agent (.host h) → s.hosts[h]? = some c → c.halted = false → c.body[c.pc]? = none →
      step s = .next { s.taken with hosts := s.hosts.set h { c with halted := true } }) ∧
    (s.nextEvent = .agent (.host h) → s.hosts[h]? = some c → c.halted = true → step s = .next s.taken)) ∧
  ∀ (v : Val) (vars : List (Nat × Val)), sparseWf (.u32 0) vars = true →
    getVar (carryTimeout v vars) timeoutVar = v ∧
    ∀ x, x ≠ timeoutVar → getVar (carryTimeout v vars) x = getVar vars x

/-- R320, R800, R801, R802, R807, R808, R809, R810, R811, R901: a call whose arguments are admitted enters the procedure's
body, with the caller's TIMEOUT as its one variable (log 12); one whose arguments are not is refused before any transaction,
with ARG_OUT_OF_RANGE, or UNMAPPED_ADDRESS for an address in no block. Of `pin_mux_route` and `iomux_uart7_m2` the address
0x02C above the argument is checked, the argument recorded in the one case and that address in the other; they and
`initialize` are refused at their own call (log 44). With a `bank_base` in a block that is no bank's base the two GPIO
procedures write at the absolute addresses above it (log 15). A pin above 31 is reported whatever the `bank_base` (R910). -/
def Obligations.CallChecksArguments : Prop :=
  (∀ (s : State) (h : Nat) (c : HostCtx) (dst : Option Var) (p : Proc), s.Runs h c (.call dst p) →
    (∀ b, p.body s.cfg c.vars = .ok b →
      step s = .next { s.taken with
        master := h
        hosts := s.hosts.set h { c with
          body := b, pc := 0, vars := carryTimeout (getVar c.vars timeoutVar) [], polls := 0
          callers := { body := c.body, pc := c.pc + 1, vars := c.vars, dst := dst } :: c.callers } }) ∧
    (∀ y, p.body s.cfg c.vars = .error (.arg y) → step s = .refused (.argOutOfRange (.call dst p) y)) ∧
    ∀ addr, p.body s.cfg c.vars = .error (.unmapped addr) → step s = .refused (.unmappedAddress (.address addr))) ∧
  ∀ (p : Params) (vars : List (Nat × Val)) (a b : NExpr) (m n : Nat), a.eval vars = .ok m → b.eval vars = .ok n →
    (¬(n ≤ m ∧ m ≤ 31) → (Proc.bitRangeMask a b).body p vars = .error (.arg (.bitRange m n))) ∧
    (n = 0 → (Proc.computeDivisor a b).body p vars = .error (.arg .baudZero) ∧
      (Proc.initUart a b).body p vars = .error (.arg .baudZero)) ∧
    (31 < n → ∀ level, (Proc.gpioSetOutput a b level).body p vars = .error (.arg (.pin n))) ∧
    (target p m = none → (Proc.gpioClearAll a).body p vars = .error (.unmapped m) ∧
      (n ≤ 31 → ∀ level, (Proc.gpioSetOutput a b level).body p vars = .error (.unmapped m))) ∧
    (m ∉ p.gpioBase → target p m ≠ none →
      (Proc.gpioClearAll a).body p vars = .ok (unlabelled [
        .wr (.absolute m) (.lit 0xFFFF0000), .wr (.absolute (m + 0x4)) (.lit 0xFFFF0000), .ret .nothing]) ∧
      (n ≤ 31 → ∀ level,
        let half := if 16 ≤ n then 0x4 else 0x0
        let one : Word := BitVec.ofNat 32 (2 ^ (n % 16))
        (Proc.gpioSetOutput a b level).body p vars = .ok (unlabelled [
          .wr (.absolute (m + (0x8 + half))) (.lit (one ||| one <<< 16)),
          .wr (.absolute (m + half)) (.lit ((if level then one else 0) ||| one <<< 16)), .ret .nothing]))) ∧
    (target p (m + 0x02C) = none → (Proc.iomuxUart7M2 a).body p vars = .error (.unmapped (m + 0x02C))) ∧
    (∀ off, target p (m + 0x02C) = some (.uart, off) →
      (Proc.iomuxUart7M2 a).body p vars = .error (.arg (.uartTarget m))) ∧
    ∀ x y u w, UExpr.eval vars x = .ok u → UExpr.eval vars y = .ok w →
      (target p m = none → (Proc.clearThenSet a x y).body p vars = .error (.unmapped m)) ∧
      (∀ off, target p m = some (.uart, off) → (Proc.clearThenSet a x y).body p vars = .error (.arg (.uartTarget m))) ∧
      ∀ e f g i u' w' u'' w'', UExpr.eval vars e = .ok u' → UExpr.eval vars f = .ok w' → UExpr.eval vars g = .ok u'' →
        UExpr.eval vars i = .ok w'' →
        (target p (m + 0x02C) = none → (Proc.pinMuxRoute a x y e f g i).body p vars = .error (.unmapped (m + 0x02C))) ∧
        ∀ off, target p (m + 0x02C) = some (.uart, off) →
          (Proc.pinMuxRoute a x y e f g i).body p vars = .error (.arg (.uartTarget m))

/-- R203, R800 (3): an absolute address names the block that holds it and its offset there, and an address in no block names
nothing. -/
def Obligations.AbsoluteAddressTargets : Prop :=
  ∀ p : Params, p.wf = true →
    (∀ off : BitVec 12,
      target p (p.uartBase + off.toNat) = some (.uart, off) ∧
      target p (p.iocBase + off.toNat) = some (.ioc, off) ∧
      ∀ (k : BitVec 7) (b : Nat), p.gpioBase[k.toNat]? = some b → target p (b + off.toNat) = some (.gpio k, off)) ∧
    ∀ addr, (∀ b ∈ p.bases, ¬(b ≤ addr ∧ addr < b + 0x1000)) → target p addr = none

/-! ### The machine as a whole -/

/-- R1003: the state after reset has the invariant and is a launch state, and its variables are in canonical form. -/
def Obligations.ResetStateMeetsInvariant : Prop := State.reset.Inv ∧ State.reset.Launches ∧ State.reset.VariablesWf

/-- R1003, R1000 to R1002, R120, R122: from every state with the invariant (queue capacities, reserved bits 0, MCR[6:5] = 0,
BUSY_IP only under BUSY_GUARD, a frame format in a busy shift register, one register set a bank, IOC registers in canonical
form), every step that is not refused leads to one with it. R317: that every program run or suspended is formed is kept too,
and while it holds no step is refused for a missing label; and so is the canonical form of the host variables. -/
def Obligations.EveryStepKeepsInvariant : Prop :=
  (∀ s t : State, step s = .next t →
    (s.Inv → t.Inv) ∧ (s.ProgramsFormed → t.ProgramsFormed) ∧ (s.VariablesWf → t.VariablesWf)) ∧
  ∀ (s : State) (l : Option Label), s.ProgramsFormed → step s ≠ .refused (.unformedProgram l)

/-- R127, R212, R943: no step forgets what TXLOG and HLOG recorded; a step records at most one transaction, and only a host's
step records one, under its own number; the parameters never change. -/
def Obligations.RecordsOnlyGrow : Prop :=
  ∀ s t : State, step s = .next t →
    t.cfg = s.cfg ∧
    (∃ l, t.txlog = s.txlog ++ l ∧ l.length ≤ 1) ∧
    (t.hlog = s.hlog ∨ ∃ h x, s.nextEvent = .agent (.host h) ∧ x.agent = h ∧ t.hlog = s.hlog ++ [x])

/-- R8, R126, R132, R218: GPIO and IOC registers change only at a host's write to that block, or at HW_RESET; the modem inputs
only at MODEM_CHANGE; a host's program counter and variables only at that host's own step. -/
def Obligations.PassiveStateChangesOnlyByItsAgent : Prop :=
  ∀ s t : State, step s = .next t →
    (t.gpio ≠ s.gpio → s.nextEvent = .hwReset ∨
      ∃ h x k, s.nextEvent = .agent (.host h) ∧ t.hlog = s.hlog ++ [x] ∧ x.dir = .write ∧ x.block = .gpio k ∧
        ∀ j, j ≠ k.toNat → t.gpio[j]? = s.gpio[j]?) ∧
    (t.ioc ≠ s.ioc → s.nextEvent = .hwReset ∨
      ∃ h x, s.nextEvent = .agent (.host h) ∧ t.hlog = s.hlog ++ [x] ∧ x.dir = .write ∧ x.block = .ioc) ∧
    (t.env ≠ s.env → ∃ a b c d, s.nextEvent = .agent (.modemChange a b c d)) ∧
    ∀ h, t.hosts[h]? ≠ s.hosts[h]? → s.nextEvent = .agent (.host h)

/-- R209: of the admitted reads only those of RBR, IIR, LSR, MSR and USR change the device; R216, R8: a GPIO or IOC
transaction never changes the UART, and a UART transaction never changes the GPIO or the IOC. -/
def Obligations.SideEffectsStayInTheirBlock : Prop :=
  ∀ (s t : State) (i : Instr), exec i s = .next t →
    (i.wdata = none → i ∉ [Instr.rdRbr, .rdIir, .rdLsr, .rdMsr, .rdUsr] →
      t = { s with rdata := t.rdata, hlog := t.hlog, draws := t.draws }) ∧
    (i.descriptor.getLsbD 29 = false → i.descriptor.getLsbD 30 = false → t.gpio = s.gpio ∧ t.ioc = s.ioc) ∧
    (i.descriptor.getLsbD 29 = true ∨ i.descriptor.getLsbD 30 = true → t.uart = s.uart ∧ t.txlog = s.txlog) ∧
    (i.descriptor.getLsbD 29 = true → t.ioc = s.ioc) ∧
    (i.descriptor.getLsbD 30 = true → t.gpio = s.gpio)

/-- R930, R942: a transaction has the same effect whoever issues it: two states that differ only in the bus master give
outcomes that differ only in the bus master and in the agent of the entry recorded. -/
def Obligations.EffectIndependentOfMaster : Prop :=
  ∀ (s : State) (i : Instr) (m : Nat),
    (∀ t, exec i s = .next t → ∃ x, t.hlog = s.hlog ++ [x] ∧
      exec i { s with master := m } = .next { t with master := m, hlog := s.hlog ++ [{ x with agent := m }] }) ∧
    ∀ r, exec i s = .refused r → exec i { s with master := m } = .refused r

/-! ### Driver procedures (46_driver_procedures.md), run by one host while no other agent steps

A call, and each statement of its body, is a step, and the body has its own variables, but for TIMEOUT (log 12): so the number
of steps, and the caller's context after the call, which `HostCtx.returned` gives. -/

/-- R801: a call of `bit_range_mask` returns, in three steps (log 12) and with no transaction, the value with exactly the bits
from `low` to `high` set, and is refused ARG_OUT_OF_RANGE unless `low <= high <= 31`. -/
def Obligations.BitRangeMaskCall : Prop :=
  ∀ (s : State) (h : Nat) (c : HostCtx) (dst : Option Var) (a b : NExpr) (high low : Nat) (rest : List Event),
    s.RunsAlone h c (.call dst (.bitRangeMask a b)) 3 rest → a.eval c.vars = .ok high → b.eval c.vars = .ok low →
    (low ≤ high → high ≤ 31 → ∃ r : Word,
      Reaches 3 s { s with
        inputs := rest, master := h, hosts := s.hosts.set h (c.returned dst (some (.u32 r))) } ∧
      ∀ i, r.getLsbD i = (decide (low ≤ i) && decide (i ≤ high))) ∧
    (¬(low ≤ high ∧ high ≤ 31) →
      step s = .refused (.argOutOfRange (.call dst (.bitRangeMask a b)) (.bitRange high low)))

/-- R802: a call of `compute_divisor` returns, in three steps (log 12) and with no transaction, src_clock / (16 * baud)
rounded to the nearest integer, a half rounded up. -/
def Obligations.ComputeDivisorCall : Prop :=
  ∀ (s : State) (h : Nat) (c : HostCtx) (dst : Option Var) (a b : NExpr) (src baud : Nat) (rest : List Event),
    s.RunsAlone h c (.call dst (.computeDivisor a b)) 3 rest → a.eval c.vars = .ok src → b.eval c.vars = .ok baud →
    0 < baud → ∃ d : Nat,
      Reaches 3 s { s with
        inputs := rest, master := h, hosts := s.hosts.set h (c.returned dst (some (.nat d))) } ∧
      2 * (16 * baud) * d ≤ 2 * src + 16 * baud ∧ 2 * src + 16 * baud < 2 * (16 * baud) * (d + 1)

/-- R803, R1012, R813: `initialize`, called with the transmitter empty, issues its poll, eight writes and two reads in order
and returns, one step more under a POLL_BOUND (logs 12, 18). With no busy guard it ends with the UART programmed: DLL and DLH
from the divisor, LCR = 0x03, MCR = 0x03, the FIFOs off, the receive queue empty, IER = 0 if DLAB was 0 on entry and unchanged
if it was 1. With a busy guard its writes of LCR and the divisor may be ignored (R1014): the two values it reads are then what
they are, and it still sets MCR and the FIFOs. -/
def Obligations.InitializeProgramsUart : Prop :=
  ∀ (s : State) (h : Nat) (c : HostCtx) (dst : Option Var) (a b : NExpr) (src baud : Nat) (rest : List Event),
    let steps := if s.cfg.pollBound = none then 14 else 15
    s.RunsAlone h c (.call dst (.initUart a b)) steps rest → a.eval c.vars = .ok src → b.eval c.vars = .ok baud →
    0 < baud → s.transmitterEmpty →
    let d := (src + baud * 16 / 2) / (baud * 16)
    let o := effModem s.env s.uart
    let low : Word := BitVec.ofNat 32 (d % 256)
    let high : Word := BitVec.ofNat 32 (d / 256 % 256)
    let issued := fun l x y : Word =>
      let rd := fun off v => Txn.mk h .uart off .read v
      let wr := fun off v => Txn.mk h .uart off .write v
      s.hlog ++ [
        rd 0x014 l, wr 0x004 0x00, wr 0x008 0x06, wr 0x010 0x03, wr 0x00C 0x03, rd 0x00C x, wr 0x00C (x ||| 0x80),
        wr 0x000 low, wr 0x004 high, rd 0x00C y, wr 0x00C (y &&& 0xFFFFFF7F)]
    (s.cfg.busyGuard = false → ∃ l : Word, l.getLsbD 6 = true ∧
      Reaches steps s { s with
        inputs := rest
        master := h
        rdata := 0x83
        hosts := s.hosts.set h (c.returned dst none)
        uart := { s.uart with
          dll := BitVec.ofNat 8 d
          dlh := BitVec.ofNat 8 (d / 256)
          ier := if s.uart.dlab then s.uart.ier else 0x00
          lcr := 0x03
          mcr := 0x03
          fifoe := false
          dmam := false
          tet := 0
          rt := 0
          rxq := []
          timeoutIp := false
          oe := false
          peS := false
          feS := false
          biS := false
          dcts := s.uart.dcts || o.cts != s.env.cts
          ddsr := s.uart.ddsr || o.dsr != s.env.dsr
          teri := s.uart.teri || (o.ri && !s.env.ri)
          ddcd := s.uart.ddcd || o.dcd != s.env.dcd }
        txlog := s.txlog ++ if s.uart.lcr.getLsbD 6 then [LineEvent.breakEnd] else []
        hlog := issued l 0x03 0x83 }) ∧
    (s.cfg.busyGuard = true → ∃ (t : State) (l x y : Word),
      Reaches steps s t ∧ l.getLsbD 6 = true ∧ t.hlog = issued l x y ∧ t.inputs = rest ∧
      t.hosts = s.hosts.set h (c.returned dst none) ∧ t.cfg = s.cfg ∧ t.env = s.env ∧ t.gpio = s.gpio ∧ t.ioc = s.ioc ∧
      t.uart.mcr = 0x03 ∧ t.uart.fifoe = false ∧ t.uart.rxq = [] ∧ t.uart.scr = s.uart.scr)

/-- R804, R812, R1019, R813: `transmit`, called with the transmitter empty, reads LSR once and writes its byte once; with
DLAB = 0 it queues exactly that byte, with DLAB = 1 the byte goes to DLL (unless a busy guard ignores the write, receiver
activity `rx` being free, R408). One step more under a POLL_BOUND (logs 12, 18). Of a host value wider than the `u8` its low 8
bits are taken (log 28). -/
def Obligations.TransmitQueuesItsByte : Prop :=
  ∀ (s : State) (h : Nat) (c : HostCtx) (dst : Option Var) (e : UExpr) (w : Word) (rest : List Event),
    let steps := if s.cfg.pollBound = none then 4 else 5
    s.RunsAlone h c (.call dst (.transmit e)) steps rest → e.eval c.vars = .ok w → s.cfg.wf = true →
    s.transmitterEmpty →
    let u := { s.uart with oe := false, peS := false, feS := false, biS := false }
    ∃ (l : Word) (rx : Bool) (n : Nat), l.getLsbD 6 = true ∧
      Reaches steps s { s with
        inputs := rest
        master := h
        rdata := l
        draws := if s.uart.dlab then n else s.draws
        hosts := s.hosts.set h (c.returned dst none)
        uart :=
          if s.uart.dlab = false then { u with txq := [w.extractLsb' 0 8], threIp := false }
          else if s.cfg.busyGuard && rx then u
          else { u with dll := w.extractLsb' 0 8 }
        hlog := s.hlog ++ [
          Txn.mk h .uart 0x014 .read l, Txn.mk h .uart 0x000 .write (BitVec.ofNat 32 (w.toNat % 256))] }

/-- R813, R315: with POLL_BOUND = N, and a transmitter that does not empty, `transmit` and `initialize` read LSR N times,
write nothing, and return `Timeout`, in N + 3 steps (log 12; the return is a branch after the poll, log 18). TIMEOUT, variable
0, is 1 in the caller afterwards (log 17). -/
def Obligations.BoundedPollTimesOut : Prop :=
  ∀ (s : State) (h : Nat) (c : HostCtx) (dst : Option Var) (p : Proc) (n : Nat) (rest : List Event),
    s.RunsAlone h c (.call dst p) (n + 3) rest → s.cfg.pollBound = some n → 0 < n → ¬s.transmitterEmpty →
    (∃ e w, p = .transmit e ∧ e.eval c.vars = .ok w) ∨
      (∃ a b src baud, p = .initUart a b ∧ a.eval c.vars = .ok src ∧ b.eval c.vars = .ok baud ∧ 0 < baud) →
    ∃ (l : Word) (reads : List Txn),
      Reaches (n + 3) s { s with
        inputs := rest
        master := h
        rdata := l
        hosts := s.hosts.set h ({ c with vars := carryTimeout (.u32 1) c.vars }.returned dst (some .timeout))
        uart := { s.uart with oe := false, peS := false, feS := false, biS := false }
        hlog := s.hlog ++ reads } ∧
      reads.length = n ∧
      ∀ x ∈ reads, x.agent = h ∧ x.block = .uart ∧ x.offset = 0x014 ∧ x.dir = .read ∧ x.value.getLsbD 6 = false

/-- R805, R1019: `receive` reads LSR once; with no character it returns `none`; with one and DLAB = 0 it reads RBR, returns
the oldest character and removes it; with one and DLAB = 1 it returns DLL and removes nothing. Steps and caller as log 12 has
them. -/
def Obligations.ReceiveReturnsOldestCharacter : Prop :=
  ∀ (s : State) (h : Nat) (c : HostCtx) (dst : Option Var) (rest : List Event),
    let u := { s.uart with oe := false, peS := false, feS := false, biS := false }
    (s.RunsAlone h c (.call dst .receive) 4 rest → s.uart.rxq = [] →
      ∃ l : Word, Reaches 4 s { s with
        inputs := rest, master := h, rdata := l, uart := u
        hosts := s.hosts.set h (c.returned dst (some (.opt none)))
        hlog := s.hlog ++ [Txn.mk h .uart 0x014 .read l] }) ∧
    (∀ e q, s.RunsAlone h c (.call dst .receive) 5 rest → s.uart.rxq = e :: q → s.uart.dlab = false →
      ∃ (l : Word) (x : BitVec 24) (n : Nat), Reaches 5 s { s with
        inputs := rest, master := h, rdata := x ++ e.data, draws := n
        uart := { u with
          rxq := q, timeoutIp := false
          peS := q.head?.any RxEntry.pe, feS := q.head?.any RxEntry.fe, biS := q.head?.any RxEntry.bi }
        hosts := s.hosts.set h (c.returned dst (some (.opt (some e.data))))
        hlog := s.hlog ++ [Txn.mk h .uart 0x014 .read l, Txn.mk h .uart 0x000 .read (x ++ e.data)] }) ∧
    (s.RunsAlone h c (.call dst .receive) 5 rest → s.uart.rxq ≠ [] → s.uart.dlab = true →
      ∃ l : Word, Reaches 5 s { s with
        inputs := rest, master := h, rdata := s.uart.dll.setWidth 32, uart := u
        hosts := s.hosts.set h (c.returned dst (some (.opt (some s.uart.dll))))
        hlog := s.hlog ++ [Txn.mk h .uart 0x014 .read l, Txn.mk h .uart 0x000 .read (s.uart.dll.setWidth 32)] })

/-- R806, R1019: `set_interrupt_enable` makes one write, of 1 or 0, which replaces IER, or, with DLAB = 1, DLH (unless a busy
guard ignores the write while the UART is busy, receiver activity `rx` being free, R408). Steps and caller as log 12 has
them. -/
def Obligations.SetInterruptEnableWritesIer : Prop :=
  ∀ (s : State) (h : Nat) (c : HostCtx) (dst : Option Var) (en : Bool) (rest : List Event),
    s.RunsAlone h c (.call dst (.setInterruptEnable en)) 3 rest →
    let b : Byte := if en then 0x01 else 0x00
    ∃ (rx : Bool) (n : Nat), Reaches 3 s { s with
      inputs := rest
      master := h
      draws := if s.uart.dlab then n else s.draws
      hosts := s.hosts.set h (c.returned dst none)
      uart :=
        if s.uart.dlab = false then { s.uart with ier := b }
        else if s.cfg.busyGuard && (s.uart.tsrBusy || !s.uart.txq.isEmpty || rx) then s.uart
        else { s.uart with dlh := b }
      hlog := s.hlog ++ [Txn.mk h .uart 0x004 .write (b.setWidth 32)] }

/-- R807, R700, D43: `clear_then_set` on an IOC or a GPIO register makes one write and no read; a bit enabled by either mask,
or by the upper half of `set_mask`, becomes the bit of `set_mask`, and every other bit and register is unchanged. An offset
that is misaligned or has no register is refused at that write. Steps and caller as log 12 has them. -/
def Obligations.ClearThenSetChangesMaskedBits : Prop :=
  ∀ (s : State) (h : Nat) (c : HostCtx) (dst : Option Var) (a : NExpr) (addr : Nat) (x y : UExpr) (off : BitVec 12)
      (cm sm : Word) (rest : List Event),
    s.RunsAlone h c (.call dst (.clearThenSet a x y)) 4 rest → s.Inv → a.eval c.vars = .ok addr →
    x.eval c.vars = .ok cm → y.eval c.vars = .ok sm →
    let v := ((cm ||| sm) <<< 16) ||| sm
    let updated := fun r r' : Half => ∀ i, i < 16 →
      r'.getLsbD i = if cm.getLsbD i || sm.getLsbD i || sm.getLsbD (16 + i) then sm.getLsbD i else r.getLsbD i
    (addr = s.cfg.iocBase + off.toNat → off.toNat ∈ s.cfg.iocRegSet →
      ∃ m, let t : State := { s with
            inputs := rest
            master := h
            ioc := m
            hosts := s.hosts.set h (c.returned dst none)
            hlog := s.hlog ++ [Txn.mk h .ioc off .write v] }
        Reaches 4 s t ∧ updated (s.iocReg off) (t.iocReg off) ∧ ∀ o, o ≠ off → t.iocReg o = s.iocReg o) ∧
    (∀ (k : BitVec 7) (base : Nat) (g : GpioBank), s.cfg.gpioBase[k.toNat]? = some base → s.gpio[k.toNat]? = some g →
      addr = base + off.toNat → off.toNat ∈ [0x0, 0x4, 0x8, 0xC] →
      ∃ g', Reaches 4 s { s with
            inputs := rest
            master := h
            gpio := s.gpio.set k.toNat g'
            hosts := s.hosts.set h (c.returned dst none)
            hlog := s.hlog ++ [Txn.mk h (.gpio k) off .write v] } ∧
        (if off = 0x000 then updated g.drL g'.drL else g'.drL = g.drL) ∧
        (if off = 0x004 then updated g.drH g'.drH else g'.drH = g.drH) ∧
        (if off = 0x008 then updated g.ddrL g'.ddrL else g'.ddrL = g.ddrL) ∧
        (if off = 0x00C then updated g.ddrH g'.ddrH else g'.ddrH = g.ddrH)) ∧
    (target s.cfg addr = some (.ioc, off) →
      (off.toNat % 4 ≠ 0 → core.run 3 s = .refused (.misaligned (0xD0000000 ||| off.setWidth 32))) ∧
      (off.toNat % 4 = 0 → off.toNat ∉ s.cfg.iocRegSet → core.run 3 s = .refused (.notModelledOffset .ioc off))) ∧
    ∀ k : BitVec 7, target s.cfg addr = some (.gpio k, off) →
      (off.toNat % 4 ≠ 0 →
        core.run 3 s = .refused (.misaligned (0xB0000000 ||| (k.setWidth 32 <<< 20) ||| off.setWidth 32))) ∧
      (off.toNat % 4 = 0 → off.toNat ∉ [0x0, 0x4, 0x8, 0xC] → core.run 3 s = .refused (.notModelledOffset (.gpio k) off))

/-- R808: `pin_mux_route` makes one write, of its two selectors shifted (a shift of 32 or more gives 0) and of the mask half
with both field masks and whatever the selectors spill into, to IOC offset 0x02C. R809, R709: `iomux_uart7_m2` so writes
0x00FF00AA, which routes both UART signals and leaves bits 15:8. Steps and caller as log 12 has them. -/
def Obligations.IomuxRoutesBothSignals : Prop :=
  ∀ (s : State) (h : Nat) (c : HostCtx) (dst : Option Var) (a : NExpr) (rest : List Event),
    s.Inv → a.eval c.vars = .ok s.cfg.iocBase →
    let written := fun (v : Word) (m : List (Nat × Half)) => { s with
      inputs := rest
      master := h
      ioc := m
      hosts := s.hosts.set h (c.returned dst none)
      hlog := s.hlog ++ [Txn.mk h .ioc 0x02C .write v] }
    (∀ (e₁ e₂ e₃ e₄ e₅ e₆ : UExpr) (aBits aMask aShift bBits bMask bShift : Word),
      s.RunsAlone h c (.call dst (.pinMuxRoute a e₁ e₂ e₃ e₄ e₅ e₆)) 8 rest →
      e₁.eval c.vars = .ok aBits → e₂.eval c.vars = .ok aMask → e₃.eval c.vars = .ok aShift →
      e₄.eval c.vars = .ok bBits → e₅.eval c.vars = .ok bMask → e₆.eval c.vars = .ok bShift →
      let sel : Word := BitVec.ofNat 32 (aBits.toNat * 2 ^ aShift.toNat) ||| BitVec.ofNat 32 (bBits.toNat * 2 ^ bShift.toNat)
      let v := (((aMask ||| bMask) ||| sel) <<< 16) ||| sel
      ∃ m, Reaches 8 s (written v m) ∧ (written v m).iocReg 0x02C = wmUpdate (s.iocReg 0x02C) v ∧
        ∀ o, o ≠ 0x02C → (written v m).iocReg o = s.iocReg o) ∧
    (s.RunsAlone h c (.call dst (.iomuxUart7M2 a)) 16 rest →
      ∃ m, let t := written 0x00FF00AA m
        Reaches 16 s t ∧ t.routed .rx = true ∧ t.routed .tx = true ∧
        (t.iocReg 0x02C).extractLsb' 8 8 = (s.iocReg 0x02C).extractLsb' 8 8 ∧ ∀ o, o ≠ 0x02C → t.iocReg o = s.iocReg o)

/-- R810, R811, R1015: `gpio_set_output` writes the direction, then the data register, and leaves its pin an output at the
level asked for and every other pin's data and direction bit as it was; `gpio_clear_all` clears both data registers and leaves
the directions. Steps and caller as log 12 has them. -/
def Obligations.GpioProceduresDrivePins : Prop :=
  ∀ (s : State) (h : Nat) (c : HostCtx) (dst : Option Var) (a e : NExpr) (k : BitVec 7) (base : Nat) (g : GpioBank)
      (rest : List Event),
    s.Inv → a.eval c.vars = .ok base → s.cfg.gpioBase[k.toNat]? = some base → s.gpio[k.toNat]? = some g →
    (∀ pin level, s.RunsAlone h c (.call dst (.gpioSetOutput a e level)) 4 rest → e.eval c.vars = .ok pin → pin ≤ 31 →
      let half : BitVec 12 := if 16 ≤ pin then 0x004 else 0x000
      let one : Word := BitVec.ofNat 32 (2 ^ (pin % 16))
      ∃ g', Reaches 4 s { s with
          inputs := rest
          master := h
          gpio := s.gpio.set k.toNat g'
          hosts := s.hosts.set h (c.returned dst none)
          hlog := s.hlog ++ [
            Txn.mk h (.gpio k) (0x008 + half) .write (one ||| one <<< 16),
            Txn.mk h (.gpio k) half .write ((if level then one else 0) ||| one <<< 16)] } ∧
        g'.drives pin = some level ∧
        (∀ q, q < 16 → q ≠ pin → g'.drL.getLsbD q = g.drL.getLsbD q ∧ g'.ddrL.getLsbD q = g.ddrL.getLsbD q) ∧
        ∀ q, q < 16 → 16 + q ≠ pin → g'.drH.getLsbD q = g.drH.getLsbD q ∧ g'.ddrH.getLsbD q = g.ddrH.getLsbD q) ∧
    (s.RunsAlone h c (.call dst (.gpioClearAll a)) 4 rest →
      Reaches 4 s { s with
        inputs := rest
        master := h
        gpio := s.gpio.set k.toNat { g with drL := 0, drH := 0 }
        hosts := s.hosts.set h (c.returned dst none)
        hlog := s.hlog ++ [
          Txn.mk h (.gpio k) 0x000 .write 0xFFFF0000, Txn.mk h (.gpio k) 0x004 .write 0xFFFF0000] })

/-! ### Transmitter progress (44_uart_engines.md R615) -/

/-- R602, R603, R609: outside loopback and with the divisor non-zero, every queued character goes out on the line, in order,
once, with its low data bits and the line format of LCR, after as many TX_LOAD and TX_DONE steps as there are characters. -/
def Obligations.QueuedCharactersReachTheLine : Prop :=
  ∀ (s : State) (q : List Byte) (rest : List Event),
    s.uart.txq = q → s.uart.tsrBusy = false → s.uart.div ≠ 0 → s.uart.mcr.getLsbD 4 = false →
    s.inputs = (List.replicate q.length [Event.agent .txLoad, .agent .txDone]).flatten ++ rest →
    Reaches (2 * q.length) s { s with
      inputs := rest
      uart := { s.uart with
        txq := []
        tsr := q.getLast?.getD s.uart.tsr
        tsrFmt := if q = [] then s.uart.tsrFmt else fmtOf s.uart.lcr
        threIp := s.uart.threIp || !q.isEmpty }
      txlog := s.txlog ++ q.map fun b =>
        .char (b &&& BitVec.ofNat 8 (2 ^ (5 + s.uart.lcr.toNat % 4) - 1)) (fmtOf s.uart.lcr) }

/-- R615, R600: in every run with the fairness of R600 (a predicate on runs, log 21), if from some point on DIV is not 0 there
and no host writes THR, FCR, SRR or the divisor and no HW_RESET comes, the transmitter becomes empty and stays so. -/
def Obligations.TransmitterEventuallyEmpty : Prop :=
  ∀ (r : Nat → State) (n : Nat), IsFairRun r → (r n).uart.div ≠ 0 →
    (∀ m, n ≤ m → leavesTransmitter (r m) (r (m + 1))) →
    ∃ k, n ≤ k ∧ ∀ m, k ≤ m → (r m).transmitterEmpty

/-- R615, R1013: with DIV = 0 and a character queued or in the shift register, no step but a write of THR, FCR, SRR or the
divisor, or HW_RESET, changes that: TEMT stays 0. -/
def Obligations.ZeroDivisorKeepsTransmitterBusy : Prop :=
  ∀ s t : State, s.uart.div = 0 → ¬s.transmitterEmpty → step s = .next t → leavesTransmitter s t →
    t.uart.div = 0 ∧ ¬t.transmitterEmpty ∧ t.uart.txq = s.uart.txq ∧ (lsr t.cfg t.uart).getLsbD 6 = false

end
end

