-- ==== Sys2Proof/Laws/State.lean ====
section
/-! SUPPORT. One lemma a field for each update of State, true by rfl, so that no proof unfolds a record update. -/

namespace Sys2Proof.Laws

open Sys2Proof.Machine

section
variable (s : State) (u : Uart)
@[simp] theorem withUart_cfg : (s.withUart u).cfg = s.cfg := rfl
@[simp] theorem withUart_uart : (s.withUart u).uart = u := rfl
@[simp] theorem withUart_env : (s.withUart u).env = s.env := rfl
@[simp] theorem withUart_gpio : (s.withUart u).gpio = s.gpio := rfl
@[simp] theorem withUart_ioc : (s.withUart u).ioc = s.ioc := rfl
@[simp] theorem withUart_txlog : (s.withUart u).txlog = s.txlog := rfl
@[simp] theorem withUart_hlog : (s.withUart u).hlog = s.hlog := rfl
@[simp] theorem withUart_rdata : (s.withUart u).rdata = s.rdata := rfl
@[simp] theorem withUart_master : (s.withUart u).master = s.master := rfl
@[simp] theorem withUart_hosts : (s.withUart u).hosts = s.hosts := rfl
@[simp] theorem withUart_inputs : (s.withUart u).inputs = s.inputs := rfl
@[simp] theorem withUart_ticks : (s.withUart u).ticks = s.ticks := rfl
@[simp] theorem withUart_draws : (s.withUart u).draws = s.draws := rfl
end

section
variable (s : State) (n : Nat)
@[simp] theorem drawn_cfg : (s.drawn n).cfg = s.cfg := rfl
@[simp] theorem drawn_uart : (s.drawn n).uart = s.uart := rfl
@[simp] theorem drawn_env : (s.drawn n).env = s.env := rfl
@[simp] theorem drawn_gpio : (s.drawn n).gpio = s.gpio := rfl
@[simp] theorem drawn_ioc : (s.drawn n).ioc = s.ioc := rfl
@[simp] theorem drawn_txlog : (s.drawn n).txlog = s.txlog := rfl
@[simp] theorem drawn_hlog : (s.drawn n).hlog = s.hlog := rfl
@[simp] theorem drawn_rdata : (s.drawn n).rdata = s.rdata := rfl
@[simp] theorem drawn_master : (s.drawn n).master = s.master := rfl
@[simp] theorem drawn_hosts : (s.drawn n).hosts = s.hosts := rfl
@[simp] theorem drawn_inputs : (s.drawn n).inputs = s.inputs := rfl
@[simp] theorem drawn_ticks : (s.drawn n).ticks = s.ticks := rfl
@[simp] theorem drawn_draws : (s.drawn n).draws = s.draws + n := rfl
end

section
variable (s : State) (b : Block) (off : BitVec 12) (d : Dir) (v : Word)
@[simp] theorem logTxn_cfg : (s.logTxn b off d v).cfg = s.cfg := rfl
@[simp] theorem logTxn_uart : (s.logTxn b off d v).uart = s.uart := rfl
@[simp] theorem logTxn_env : (s.logTxn b off d v).env = s.env := rfl
@[simp] theorem logTxn_gpio : (s.logTxn b off d v).gpio = s.gpio := rfl
@[simp] theorem logTxn_ioc : (s.logTxn b off d v).ioc = s.ioc := rfl
@[simp] theorem logTxn_txlog : (s.logTxn b off d v).txlog = s.txlog := rfl
@[simp] theorem logTxn_hlog : (s.logTxn b off d v).hlog = s.hlog ++ [{ agent := s.master, block := b, offset := off, dir := d, value := v }] := rfl
@[simp] theorem logTxn_rdata : (s.logTxn b off d v).rdata = s.rdata := rfl
@[simp] theorem logTxn_master : (s.logTxn b off d v).master = s.master := rfl
@[simp] theorem logTxn_hosts : (s.logTxn b off d v).hosts = s.hosts := rfl
@[simp] theorem logTxn_inputs : (s.logTxn b off d v).inputs = s.inputs := rfl
@[simp] theorem logTxn_ticks : (s.logTxn b off d v).ticks = s.ticks := rfl
@[simp] theorem logTxn_draws : (s.logTxn b off d v).draws = s.draws := rfl
end

section
variable (s : State) (e : LineEvent)
@[simp] theorem logLine_cfg : (s.logLine e).cfg = s.cfg := rfl
@[simp] theorem logLine_uart : (s.logLine e).uart = s.uart := rfl
@[simp] theorem logLine_env : (s.logLine e).env = s.env := rfl
@[simp] theorem logLine_gpio : (s.logLine e).gpio = s.gpio := rfl
@[simp] theorem logLine_ioc : (s.logLine e).ioc = s.ioc := rfl
@[simp] theorem logLine_txlog : (s.logLine e).txlog = s.txlog ++ [e] := rfl
@[simp] theorem logLine_hlog : (s.logLine e).hlog = s.hlog := rfl
@[simp] theorem logLine_rdata : (s.logLine e).rdata = s.rdata := rfl
@[simp] theorem logLine_master : (s.logLine e).master = s.master := rfl
@[simp] theorem logLine_hosts : (s.logLine e).hosts = s.hosts := rfl
@[simp] theorem logLine_inputs : (s.logLine e).inputs = s.inputs := rfl
@[simp] theorem logLine_ticks : (s.logLine e).ticks = s.ticks := rfl
@[simp] theorem logLine_draws : (s.logLine e).draws = s.draws := rfl
end

section
variable (s : State) (off : BitVec 12) (h : Half)
@[simp] theorem setIocReg_cfg : (s.setIocReg off h).cfg = s.cfg := rfl
@[simp] theorem setIocReg_uart : (s.setIocReg off h).uart = s.uart := rfl
@[simp] theorem setIocReg_env : (s.setIocReg off h).env = s.env := rfl
@[simp] theorem setIocReg_gpio : (s.setIocReg off h).gpio = s.gpio := rfl
@[simp] theorem setIocReg_ioc : (s.setIocReg off h).ioc = sparseSet 0 off.toNat h s.ioc := rfl
@[simp] theorem setIocReg_txlog : (s.setIocReg off h).txlog = s.txlog := rfl
@[simp] theorem setIocReg_hlog : (s.setIocReg off h).hlog = s.hlog := rfl
@[simp] theorem setIocReg_rdata : (s.setIocReg off h).rdata = s.rdata := rfl
@[simp] theorem setIocReg_master : (s.setIocReg off h).master = s.master := rfl
@[simp] theorem setIocReg_hosts : (s.setIocReg off h).hosts = s.hosts := rfl
@[simp] theorem setIocReg_inputs : (s.setIocReg off h).inputs = s.inputs := rfl
@[simp] theorem setIocReg_ticks : (s.setIocReg off h).ticks = s.ticks := rfl
@[simp] theorem setIocReg_draws : (s.setIocReg off h).draws = s.draws := rfl
end

section
variable (s : State) (h : Nat) (c : HostCtx)
@[simp] theorem setHost_cfg : (s.setHost h c).cfg = s.cfg := rfl
@[simp] theorem setHost_uart : (s.setHost h c).uart = s.uart := rfl
@[simp] theorem setHost_env : (s.setHost h c).env = s.env := rfl
@[simp] theorem setHost_gpio : (s.setHost h c).gpio = s.gpio := rfl
@[simp] theorem setHost_ioc : (s.setHost h c).ioc = s.ioc := rfl
@[simp] theorem setHost_txlog : (s.setHost h c).txlog = s.txlog := rfl
@[simp] theorem setHost_hlog : (s.setHost h c).hlog = s.hlog := rfl
@[simp] theorem setHost_rdata : (s.setHost h c).rdata = s.rdata := rfl
@[simp] theorem setHost_master : (s.setHost h c).master = s.master := rfl
@[simp] theorem setHost_hosts : (s.setHost h c).hosts = s.hosts.set h c := rfl
@[simp] theorem setHost_inputs : (s.setHost h c).inputs = s.inputs := rfl
@[simp] theorem setHost_ticks : (s.setHost h c).ticks = s.ticks := rfl
@[simp] theorem setHost_draws : (s.setHost h c).draws = s.draws := rfl
end

section
variable (s : State) (old new : Bool)
@[simp] theorem logBreak_cfg : (s.logBreak old new).cfg = s.cfg := by cases old <;> cases new <;> rfl
@[simp] theorem logBreak_uart : (s.logBreak old new).uart = s.uart := by cases old <;> cases new <;> rfl
@[simp] theorem logBreak_env : (s.logBreak old new).env = s.env := by cases old <;> cases new <;> rfl
@[simp] theorem logBreak_gpio : (s.logBreak old new).gpio = s.gpio := by cases old <;> cases new <;> rfl
@[simp] theorem logBreak_ioc : (s.logBreak old new).ioc = s.ioc := by cases old <;> cases new <;> rfl
@[simp] theorem logBreak_hlog : (s.logBreak old new).hlog = s.hlog := by cases old <;> cases new <;> rfl
@[simp] theorem logBreak_rdata : (s.logBreak old new).rdata = s.rdata := by cases old <;> cases new <;> rfl
@[simp] theorem logBreak_master : (s.logBreak old new).master = s.master := by cases old <;> cases new <;> rfl
@[simp] theorem logBreak_hosts : (s.logBreak old new).hosts = s.hosts := by cases old <;> cases new <;> rfl
@[simp] theorem logBreak_inputs : (s.logBreak old new).inputs = s.inputs := by cases old <;> cases new <;> rfl
@[simp] theorem logBreak_ticks : (s.logBreak old new).ticks = s.ticks := by cases old <;> cases new <;> rfl
@[simp] theorem logBreak_draws : (s.logBreak old new).draws = s.draws := by cases old <;> cases new <;> rfl

/-- The break event of a change of BC (44_uart_engines.md R605). -/
theorem logBreak_txlog : (s.logBreak old new).txlog =
    s.txlog ++ (if old = new then [] else if new then [.breakStart] else [.breakEnd]) := by
  cases old <;> cases new <;> simp [State.logBreak]
end

section
variable (s : State)
@[simp] theorem taken_cfg : s.taken.cfg = s.cfg := by unfold State.taken; split <;> rfl
@[simp] theorem taken_uart : s.taken.uart = s.uart := by unfold State.taken; split <;> rfl
@[simp] theorem taken_env : s.taken.env = s.env := by unfold State.taken; split <;> rfl
@[simp] theorem taken_gpio : s.taken.gpio = s.gpio := by unfold State.taken; split <;> rfl
@[simp] theorem taken_ioc : s.taken.ioc = s.ioc := by unfold State.taken; split <;> rfl
@[simp] theorem taken_txlog : s.taken.txlog = s.txlog := by unfold State.taken; split <;> rfl
@[simp] theorem taken_hlog : s.taken.hlog = s.hlog := by unfold State.taken; split <;> rfl
@[simp] theorem taken_rdata : s.taken.rdata = s.rdata := by unfold State.taken; split <;> rfl
@[simp] theorem taken_master : s.taken.master = s.master := by unfold State.taken; split <;> rfl
@[simp] theorem taken_hosts : s.taken.hosts = s.hosts := by unfold State.taken; split <;> rfl
@[simp] theorem taken_draws : s.taken.draws = s.draws := by unfold State.taken; split <;> rfl
end

end Sys2Proof.Laws
end

