-- ==== Sys2Proof/Laws/Sparse.lean ====
section
/-! SUPPORT. The sparse lists: reading after writing, and that writing keeps the canonical form. -/

namespace Sys2Proof.Laws

open Sys2Proof.Machine

variable {α : Type} (d : α) (k : Nat) (v : α)

theorem sparseGet_above {m : List (Nat × α)} (h : keysAbove k m = true) : sparseGet d k m = d := by
  induction m with
  | nil => rfl
  | cons x rest ih =>
    simp only [keysAbove, List.all_cons, Bool.and_eq_true, decide_eq_true_eq] at h
    simp only [sparseGet]
    rw [if_neg (by omega)]
    exact ih h.2

theorem keysAbove_mono {j : Nat} {m : List (Nat × α)} (hj : j ≤ k) (h : keysAbove k m = true) : keysAbove j m = true := by
  simp only [keysAbove, List.all_eq_true, decide_eq_true_eq] at h ⊢
  intro x hx
  have := h x hx
  omega

variable [DecidableEq α]

theorem sparseWf_tail {x : Nat × α} {m : List (Nat × α)} (h : sparseWf d (x :: m) = true) :
    x.2 ≠ d ∧ keysAbove x.1 m = true ∧ sparseWf d m = true := by
  simpa [sparseWf, and_assoc] using h

/-- The key written reads as the value written. -/
theorem sparseGet_sparseSet_same {m : List (Nat × α)} (h : sparseWf d m = true) :
    sparseGet d k (sparseSet d k v m) = v := by
  induction m with
  | nil => by_cases hv : v = d <;> simp [sparseSet, sparseGet, hv]
  | cons x rest ih =>
    obtain ⟨j, w⟩ := x
    obtain ⟨-, ha, hw⟩ := sparseWf_tail d h
    simp only [sparseSet]
    split
    · rename_i hlt
      split
      · rename_i hv
        have hne : k ≠ j := by omega
        simp only [sparseGet, if_neg hne, hv]
        exact sparseGet_above d k (keysAbove_mono j (by omega) ha)
      · simp [sparseGet]
    · split
      · rename_i hkj
        subst hkj
        split
        · rename_i hv
          rw [hv]; exact sparseGet_above d k ha
        · simp [sparseGet]
      · rename_i hne
        simp only [sparseGet, if_neg hne]
        exact ih hw

/-- Every other key reads as before. -/
theorem sparseGet_sparseSet_other {j : Nat} (hj : j ≠ k) (m : List (Nat × α)) :
    sparseGet d j (sparseSet d k v m) = sparseGet d j m := by
  induction m with
  | nil => by_cases hv : v = d <;> simp [sparseSet, sparseGet, hv, hj]
  | cons x rest ih =>
    obtain ⟨i, w⟩ := x
    simp only [sparseSet]
    split
    · split
      · rfl
      · simp [sparseGet, hj]
    · split
      · rename_i hki
        subst hki
        split
        · simp [sparseGet, hj]
        · simp [sparseGet, hj]
      · simp only [sparseGet]
        split
        · rfl
        · exact ih

/-- The keys after a write are the old ones and the one written. -/
theorem mem_sparseSet {m : List (Nat × α)} {x : Nat × α} (h : x ∈ sparseSet d k v m) : x = (k, v) ∨ x ∈ m := by
  induction m with
  | nil =>
    simp only [sparseSet] at h
    split at h <;> simp_all
  | cons y rest ih =>
    simp only [sparseSet] at h
    split at h
    · split at h <;> simp_all
    · split at h
      · split at h
        · simp_all
        · simp only [List.mem_cons] at h ⊢; tauto
      · simp only [List.mem_cons] at h ⊢
        rcases h with h | h
        · tauto
        · rcases ih h with h | h <;> tauto

theorem keysAbove_sparseSet {j : Nat} {m : List (Nat × α)} (hk : j < k) (h : keysAbove j m = true) :
    keysAbove j (sparseSet d k v m) = true := by
  simp only [keysAbove, List.all_eq_true, decide_eq_true_eq] at h ⊢
  intro x hx
  rcases mem_sparseSet d k v hx with rfl | hx
  · exact hk
  · exact h x hx

/-- A write keeps the canonical form. -/
theorem sparseSet_wf {m : List (Nat × α)} (h : sparseWf d m = true) : sparseWf d (sparseSet d k v m) = true := by
  induction m with
  | nil => by_cases hv : v = d <;> simp [sparseSet, sparseWf, keysAbove, hv]
  | cons x rest ih =>
    obtain ⟨j, w⟩ := x
    obtain ⟨hw, ha, hr⟩ := sparseWf_tail d h
    simp only at hw ha
    simp only [sparseSet]
    split
    · rename_i hlt
      split
      · exact h
      · rename_i hv
        have hk : keysAbove k ((j, w) :: rest) = true := by
          simp only [keysAbove, List.all_cons, Bool.and_eq_true, decide_eq_true_eq]
          exact ⟨hlt, keysAbove_mono j (by omega) ha⟩
        simp only [sparseWf, Bool.and_eq_true, decide_eq_true_eq] at h ⊢
        exact ⟨⟨hv, hk⟩, h⟩
    · split
      · rename_i hkj
        subst hkj
        split
        · exact hr
        · rename_i hv
          simp only [sparseWf, Bool.and_eq_true, decide_eq_true_eq]
          exact ⟨⟨hv, ha⟩, hr⟩
      · rename_i h1 h2
        simp only [sparseWf, Bool.and_eq_true, decide_eq_true_eq]
        exact ⟨⟨hw, keysAbove_sparseSet d k v (by omega) ha⟩, ih hr⟩

end Sys2Proof.Laws
end

