-- ==== Sys2Proof/Laws/Ops.lean ====
section
/-! SUPPORT. For each shared operation, one lemma that says what it can do. -/

namespace Sys2Proof.Laws

open Sys2Proof.Machine

/-! ### The queues -/

theorem txcap_pos_of_wf {p : Params} (h : 2 ≤ p.fifoDepth) (u : Uart) : 1 ≤ txcap p u := by
  unfold txcap; split <;> omega

theorem rxcap_pos_of_wf {p : Params} (h : 2 ≤ p.fifoDepth) (u : Uart) : 1 ≤ rxcap p u := by
  unfold rxcap; split <;> omega

/-- A character arrives (44_uart_engines.md R606): it is queued, or it replaces the buffered one, or it is lost; the last
two are overruns. -/
theorem pushRx_cases (p : Params) (e : RxEntry) (u : Uart) :
    (u.rxq = [] ∧ 0 < rxcap p u ∧ pushRx p e u = headArrival e { u with timeoutIp := false, rxq := [e] }) ∨
    (u.rxq ≠ [] ∧ u.rxq.length < rxcap p u ∧ pushRx p e u = { u with timeoutIp := false, rxq := u.rxq ++ [e] }) ∨
    (rxcap p u ≤ u.rxq.length ∧ u.fifoe = true ∧ pushRx p e u = { u with timeoutIp := false, oe := true }) ∨
    (rxcap p u ≤ u.rxq.length ∧ u.fifoe = false ∧
      pushRx p e u = headArrival e { u with timeoutIp := false, oe := true, rxq := [e] }) := by
  unfold pushRx
  have hcap : rxcap p { u with timeoutIp := false } = rxcap p u := rfl
  simp only [hcap]
  by_cases hlen : u.rxq.length < rxcap p u
  · rw [if_pos hlen]
    by_cases hq : u.rxq = []
    · left; simp [hq]; simpa [hq] using hlen
    · right; left; exact ⟨hq, hlen, by rw [if_neg hq]⟩
  · rw [if_neg hlen]
    right; right
    cases hf : u.fifoe
    · right; exact ⟨by omega, rfl, by simp⟩
    · left; exact ⟨by omega, rfl, by simp⟩

/-- What arrives touches the receive queue, its error bits, OE and the timeout latch, and nothing else. -/
theorem pushRx_frame (p : Params) (e : RxEntry) (u : Uart) :
    pushRx p e u =
      { u with
        rxq := (pushRx p e u).rxq, oe := (pushRx p e u).oe, peS := (pushRx p e u).peS
        feS := (pushRx p e u).feS, biS := (pushRx p e u).biS, timeoutIp := false } := by
  rcases pushRx_cases p e u with ⟨-, -, h⟩ | ⟨-, -, h⟩ | ⟨-, -, h⟩ | ⟨-, -, h⟩ <;> rw [h] <;> rfl

/-- A character written to THR (40_uart_banked.md R401). -/
theorem enqueueTx_cases (p : Params) (b : Byte) (u : Uart) :
    (u.txq.length < txcap p u ∧ enqueueTx p b u = { u with threIp := false, txq := u.txq ++ [b] }) ∨
    (txcap p u ≤ u.txq.length ∧ u.fifoe = true ∧ enqueueTx p b u = { u with threIp := false }) ∨
    (txcap p u ≤ u.txq.length ∧ u.fifoe = false ∧ enqueueTx p b u = { u with threIp := false, txq := [b] }) := by
  unfold enqueueTx
  have hcap : txcap p { u with threIp := false } = txcap p u := rfl
  simp only [hcap]
  by_cases hlen : u.txq.length < txcap p u
  · left; exact ⟨hlen, by rw [if_pos hlen]⟩
  · right; rw [if_neg hlen]
    cases hf : u.fifoe
    · right; exact ⟨by omega, rfl, by simp⟩
    · left; exact ⟨by omega, rfl, by simp⟩

/-- The queue stays within its capacity when a character is written. -/
theorem enqueueTx_length {p : Params} (hp : 2 ≤ p.fifoDepth) {b : Byte} {u : Uart} (h : u.txq.length ≤ txcap p u) :
    (enqueueTx p b u).txq.length ≤ txcap p (enqueueTx p b u) := by
  have := txcap_pos_of_wf hp u
  rcases enqueueTx_cases p b u with ⟨hl, he⟩ | ⟨hl, hf, he⟩ | ⟨hl, hf, he⟩ <;> rw [he] <;>
    simp [txcap] at * <;> omega

/-- The queue stays within its capacity when a character arrives. -/
theorem pushRx_length {p : Params} (hp : 2 ≤ p.fifoDepth) {e : RxEntry} {u : Uart} (h : u.rxq.length ≤ rxcap p u) :
    (pushRx p e u).rxq.length ≤ rxcap p (pushRx p e u) := by
  have := rxcap_pos_of_wf hp u
  rcases pushRx_cases p e u with ⟨-, -, he⟩ | ⟨-, hl, he⟩ | ⟨-, -, he⟩ | ⟨-, -, he⟩ <;> rw [he]
  · exact this
  · show (u.rxq ++ [e]).length ≤ rxcap p u
    simp only [List.length_append, List.length_singleton]; omega
  · exact h
  · exact this

theorem popRx_rxq (rest : List RxEntry) (u : Uart) : (popRx rest u).rxq = rest := by
  unfold popRx; split <;> rfl

/-! ### Write-mask registers (45_gpio_iomux.md R700) -/

/-- Bit `i` of a write-mask write. -/
theorem wmUpdate_getLsbD (reg : Half) (v : Word) (i : Nat) :
    (wmUpdate reg v).getLsbD i = if v.getLsbD (16 + i) then decide (i < 16) && v.getLsbD i else reg.getLsbD i := by
  simp only [wmUpdate, BitVec.getLsbD_or, BitVec.getLsbD_and, BitVec.getLsbD_not, BitVec.getLsbD_extractLsb']
  by_cases hi : i < 16
  · cases hv : v.getLsbD (16 + i) <;> simp [hi]
  · have hr : reg.getLsbD i = false := BitVec.getLsbD_of_ge _ _ (by omega)
    have hv : i < 16 → False := hi
    simp [hi, hr]

/-! ### Performed accesses -/

section
variable {b : Block} {off : BitVec 12} {v : Word} {s t : State}

theorem readOk_next (h : s.readOk b off v = .next t) : t = { s with rdata := v }.logTxn b off .read v := by
  simpa [State.readOk] using h.symm

theorem writeOk_next (h : s.writeOk b off v = .next t) : t = s.logTxn b off .write v := by
  simpa [State.writeOk] using h.symm

/-- A GPIO read answers the stored half under sixteen free bits, if the bank is there. -/
theorem readGpio_next {k : BitVec 7} {reg : GpioBank → Half} (h : s.readGpio k off reg = .next t) :
    ∃ g, s.gpio[k.toNat]? = some g ∧
      t = { s.drawn 1 with rdata := s.draw 0 16 ++ reg g }.logTxn (.gpio k) off .read (s.draw 0 16 ++ reg g) := by
  unfold State.readGpio at h
  split at h
  · rename_i g hg; exact ⟨g, hg, readOk_next h⟩
  · cases h

/-- A GPIO write updates that bank, if it is there. -/
theorem writeGpio_next {k : BitVec 7} {upd : GpioBank → GpioBank} (h : s.writeGpio k off v upd = .next t) :
    ∃ g, s.gpio[k.toNat]? = some g ∧
      t = { s with gpio := s.gpio.set k.toNat (upd g) }.logTxn (.gpio k) off .write v := by
  unfold State.writeGpio at h
  split at h
  · rename_i g hg; exact ⟨g, hg, writeOk_next h⟩
  · cases h
end

/-! ### Reset -/

@[simp] theorem drawnBanks_length (s : State) (i n : Nat) : (drawnBanks s i n).length = n := by
  induction n generalizing i with
  | zero => rfl
  | succ n ih => simp [drawnBanks, ih]

theorem drawnIoc_wf (s : State) (i : Nat) (offs : List Nat) (m : List (Nat × Half)) (h : sparseWf 0 m = true) :
    sparseWf 0 (drawnIoc s i offs m) = true := by
  induction offs generalizing i m with
  | nil => exact h
  | cons off rest ih => exact ih _ _ (sparseSet_wf _ _ _ h)

theorem drawnIoc_mem (s : State) (i : Nat) (offs : List Nat) (m : List (Nat × Half)) {x : Nat × Half}
    (h : x ∈ drawnIoc s i offs m) : x.1 ∈ offs ∨ x ∈ m := by
  induction offs generalizing i m with
  | nil => exact .inr h
  | cons off rest ih =>
    rcases ih _ _ h with h | h
    · simp [h]
    · rcases mem_sparseSet _ _ _ h with rfl | h
      · simp
      · exact .inr h

/-! ### Formats (44_uart_engines.md R604) -/

theorem dataBitsOf_range (lcr : Byte) : 5 ≤ dataBitsOf lcr ∧ dataBitsOf lcr ≤ 8 := by
  have := (lcr.extractLsb' 0 2).isLt
  unfold dataBitsOf
  omega

theorem fmtOf_bits (lcr : Byte) : (fmtOf lcr).bits = dataBitsOf lcr := rfl

end Sys2Proof.Laws
end

