-- ==== Sys2Proof/Laws/Exec.lean ====
section
/-! SUPPORT. What every performed transaction keeps, and what a step can do. -/

namespace Sys2Proof.Laws

open Sys2Proof.Machine

/-- What a performed transaction, whichever it is, leaves alone, and the one entry it adds to HLOG. -/
structure Access (s t : State) : Prop where
  cfg    : t.cfg = s.cfg
  env    : t.env = s.env
  hosts  : t.hosts = s.hosts
  inputs : t.inputs = s.inputs
  ticks  : t.ticks = s.ticks
  master : t.master = s.master
  hlog   : ∃ x : Txn, x.agent = s.master ∧ t.hlog = s.hlog ++ [x]
  txlog  : t.txlog = s.txlog ∨ ∃ e, t.txlog = s.txlog ++ [e]

theorem Access.of_readOk {b : Block} {off : BitVec 12} {v : Word} {s s' t : State} (h : s'.readOk b off v = .next t)
    (k : s' = { s with uart := s'.uart, draws := s'.draws }) : Access s t := by
  obtain rfl := readOk_next h
  rw [k]
  exact ⟨rfl, rfl, rfl, rfl, rfl, rfl, ⟨_, rfl, rfl⟩, .inl rfl⟩

theorem Access.of_writeOk {b : Block} {off : BitVec 12} {v : Word} {s s' t : State} (h : s'.writeOk b off v = .next t)
    (k : s' = { s with uart := s'.uart, gpio := s'.gpio, ioc := s'.ioc, draws := s'.draws, txlog := s'.txlog })
    (l : s'.txlog = s.txlog ∨ ∃ e, s'.txlog = s.txlog ++ [e]) : Access s t := by
  obtain rfl := writeOk_next h
  generalize s'.txlog = x at k l
  rw [k]
  exact ⟨rfl, rfl, rfl, rfl, rfl, rfl, ⟨_, rfl, rfl⟩, l⟩

theorem logBreak_txlog_cases (s : State) (old new : Bool) :
    (s.logBreak old new).txlog = s.txlog ∨ ∃ e, (s.logBreak old new).txlog = s.txlog ++ [e] := by
  cases old <;> cases new <;> first | exact .inl rfl | exact .inr ⟨_, rfl⟩

theorem logBreak_frame (s : State) (old new : Bool) :
    s.logBreak old new = { s with txlog := (s.logBreak old new).txlog } := by
  cases old <;> cases new <;> rfl

theorem uartReset_frame (s : State) :
    uartReset s = { s with
      uart := (uartReset s).uart, txlog := (s.logBreak s.uart.bc false).txlog, draws := s.draws + 2 } := by
  unfold uartReset
  rw [logBreak_frame]

/-- Every performed transaction keeps what `Access` names. -/
theorem exec_access {i : Instr} {s t : State} (h : exec i s = .next t) : Access s t := by
  cases i <;> simp only [exec] at h
  case rdRbr =>
    unfold execRdRbr at h
    split at h <;> exact .of_readOk h rfl
  case wrThr v => exact .of_writeOk h rfl (.inl rfl)
  case rdDll => exact .of_readOk h rfl
  case wrDll v => exact .of_writeOk h rfl (.inl rfl)
  case rdIer => exact .of_readOk h rfl
  case wrIer v => exact .of_writeOk h rfl (.inl rfl)
  case rdDlh => exact .of_readOk h rfl
  case wrDlh v => exact .of_writeOk h rfl (.inl rfl)
  case rdIir => exact .of_readOk h rfl
  case wrFcr v => exact .of_writeOk h rfl (.inl rfl)
  case rdLcr => exact .of_readOk h rfl
  case wrLcr v =>
    unfold execWrLcr at h
    split at h
    · exact .of_writeOk h rfl (.inl rfl)
    · exact .of_writeOk h (by simp only [State.withUart]; rw [logBreak_frame]; rfl)
        (logBreak_txlog_cases (s.drawn _) _ _)
  case rdMcr => exact .of_readOk h rfl
  case wrMcr v =>
    unfold execWrMcr at h
    split at h
    · cases h
    · exact .of_writeOk h rfl (.inl rfl)
  case rdLsr => exact .of_readOk h rfl
  case wrLsr v => cases h
  case rdMsr => exact .of_readOk h rfl
  case wrMsr v => cases h
  case rdScr => exact .of_readOk h rfl
  case wrScr v => exact .of_writeOk h rfl (.inl rfl)
  case rdLpdll => exact .of_readOk h rfl
  case wrLpdll v => exact .of_writeOk h rfl (.inl rfl)
  case rdUsr => exact .of_readOk h rfl
  case wrUsr v => cases h
  case rdSrr => exact .of_readOk h rfl
  case wrSrr v =>
    unfold execWrSrr at h
    split at h
    · exact .of_writeOk h (by rw [uartReset_frame s]) (logBreak_txlog_cases s _ _)
    · exact .of_writeOk h rfl (.inl rfl)
  case rdDlf => exact .of_readOk h rfl
  case wrDlf v => exact .of_writeOk h rfl (.inl rfl)
  case rdDrL k | rdDrH k | rdDdrL k | rdDdrH k =>
    obtain ⟨g, -, rfl⟩ := readGpio_next h
    exact ⟨rfl, rfl, rfl, rfl, rfl, rfl, ⟨_, rfl, rfl⟩, .inl rfl⟩
  case wrDrL k v | wrDrH k v | wrDdrL k v | wrDdrH k v =>
    obtain ⟨g, -, rfl⟩ := writeGpio_next h
    exact ⟨rfl, rfl, rfl, rfl, rfl, rfl, ⟨_, rfl, rfl⟩, .inl rfl⟩
  case rdIoc off =>
    unfold execRdIoc at h
    split at h
    · exact .of_readOk h rfl
    · cases h
  case wrIoc off v =>
    unfold execWrIoc at h
    split at h
    · exact .of_writeOk h rfl (.inl rfl)
    · cases h

/-! ### Transactions of host statements -/

theorem perform_next {t v : Word} {s s' : State} (h : perform t v s = .next s') :
    ∃ i, decode s.cfg s.uart.dlab t v = .ok i ∧ exec i s = .next s' := by
  unfold perform at h
  split at h
  · rename_i i hi; exact ⟨i, hi, h⟩
  · cases h

theorem transact_next {a : AddrOp} {w : Bool} {v : Word} {s s' : State} (h : transact a w v s = .next s') :
    ∃ t i, a.descriptor s.cfg w = .ok t ∧ decode s.cfg s.uart.dlab t v = .ok i ∧ exec i s = .next s' := by
  unfold transact at h
  split at h
  · rename_i t ht
    obtain ⟨i, hi, he⟩ := perform_next h
    exact ⟨t, i, ht, hi, he⟩
  · cases h

theorem andThen_next {o : Host.Outcome State Fault Refusal} {f : State → State} {t : State} (h : andThen o f = .next t) :
    ∃ s, o = .next s ∧ t = f s := by
  cases o with
  | next s => exact ⟨s, rfl, by simpa [andThen] using h.symm⟩
  | fault r => cases r
  | refused r => cases h

theorem afterPollRead_next {h : Nat} {c : HostCtx} {x : Var} {a : AddrOp} {m : UExpr} {s t : State}
    (k : afterPollRead h c x a m s = .next t) : ∃ c', t = s.setHost h c' := by
  unfold afterPollRead at k
  simp only at k
  split at k
  · exact ⟨_, by simpa using k.symm⟩
  · cases k

/-- A host statement that goes on either performs one transaction and then changes only this host, or changes only this
host. -/
theorem stmtStep_next {h : Nat} {c : HostCtx} {st : Stmt} {s t : State} (k : stmtStep h c st s = .next t) :
    (∃ i s' c', exec i s = .next s' ∧ t = s'.setHost h c') ∨ ∃ c', t = s.setHost h c' := by
  have hb : ∀ l, branch h c l s = .next t → ∃ c', t = s.setHost h c' := by
    intro l hl
    unfold branch at hl
    split at hl
    · exact ⟨_, by simpa using hl.symm⟩
    · cases hl
  cases st <;> simp only [stmtStep] at k
  case rd x a =>
    obtain ⟨s', h1, rfl⟩ := andThen_next k
    obtain ⟨_, i, -, -, he⟩ := transact_next h1
    exact .inl ⟨i, s', _, he, rfl⟩
  case wr a e =>
    split at k
    · obtain ⟨s', h1, rfl⟩ := andThen_next k
      obtain ⟨_, i, -, -, he⟩ := transact_next h1
      exact .inl ⟨i, s', _, he, rfl⟩
    · cases k
  case poll x a m =>
    split at k
    · rename_i s' h1
      obtain ⟨_, i, -, -, he⟩ := transact_next h1
      obtain ⟨c', rfl⟩ := afterPollRead_next k
      exact .inl ⟨i, s', _, he, rfl⟩
    · rename_i r _; cases r
    · cases k
  case letU x e =>
    split at k
    · exact .inr ⟨_, by simpa using k.symm⟩
    · cases k
  case letN x e =>
    split at k
    · exact .inr ⟨_, by simpa using k.symm⟩
    · cases k
  case bz x m l =>
    split at k
    · split at k
      · exact .inr (hb l k)
      · exact .inr ⟨_, by simpa using k.symm⟩
    · cases k
  case bnz x m l =>
    split at k
    · split at k
      · exact .inr ⟨_, by simpa using k.symm⟩
      · exact .inr (hb l k)
    · cases k
  case jmp l => exact .inr (hb l k)
  case ret r =>
    split at k
    · exact .inr ⟨_, by simpa using k.symm⟩
    · cases k
  case halt => exact .inr ⟨_, by simpa using k.symm⟩
  case txn x v =>
    obtain ⟨s', h1, rfl⟩ := andThen_next k
    obtain ⟨i, -, he⟩ := perform_next h1
    exact .inl ⟨i, s', _, he, rfl⟩
  case call dst p =>
    split at k
    · exact .inr ⟨_, by simpa using k.symm⟩
    · cases k

/-- The three ways a host's step goes on: nothing moves; only the host changes; one transaction is performed by host `h`
and then only the host changes. -/
theorem hostStep_next {h : Nat} {s t : State} (k : hostStep h s = .next t) :
    t = s ∨ (∃ m c', t = { s with master := m }.setHost h c') ∨
    ∃ i s' c', exec i { s with master := h } = .next s' ∧ t = s'.setHost h c' := by
  unfold hostStep at k
  split at k
  · exact .inl (by simpa using k.symm)
  · split at k
    · exact .inl (by simpa using k.symm)
    · split at k
      · exact .inr (.inl ⟨s.master, _, by simpa using k.symm⟩)
      · rcases stmtStep_next k with ⟨i, s', c', he, rfl⟩ | ⟨c', rfl⟩
        · exact .inr (.inr ⟨i, s', c', he, rfl⟩)
        · exact .inr (.inl ⟨h, c', rfl⟩)

/-- What a step can do. -/
theorem step_next {s t : State} (k : step s = .next t) :
    (∃ h, s.nextEvent = .agent (.host h) ∧ hostStep h s.taken = .next t) ∨
    (∃ a, s.nextEvent = .agent a ∧ (∀ h, a ≠ .host h) ∧ t = deviceStep a s.taken) ∨
    (s.nextEvent = .hwReset ∧ t = hwReset s.taken) := by
  unfold step runEvent at k
  split at k
  · rename_i h he; exact .inl ⟨h, he, k⟩
  · rename_i a hne he
    exact .inr (.inl ⟨a, he, fun h hh => hne h (by rw [hh]), by simpa using k.symm⟩)
  · rename_i he; exact .inr (.inr ⟨he, by simpa using k.symm⟩)

end Sys2Proof.Laws
end

