-- ==== Sys2Proof/Laws/PerInstr.lean ====
section
/-! SUPPORT. Statements made for each constructor of Instr. Family TableRow: the descriptor the encoder gives is one that
the instruction's row of spec/opcode_table.json matches. -/

namespace Sys2Proof.Laws

/-- The "match" and "mask" of the instruction's row of spec/opcode_table.json. -/
def tableRow : Instr → Word × Word
  | .rdRbr => (0x10000000, 0xFFFFFFFF)
  | .wrThr _ => (0x90000000, 0xFFFFFFFF)
  | .rdDll => (0x10000000, 0xFFFFFFFF)
  | .wrDll _ => (0x90000000, 0xFFFFFFFF)
  | .rdIer => (0x10000004, 0xFFFFFFFF)
  | .wrIer _ => (0x90000004, 0xFFFFFFFF)
  | .rdDlh => (0x10000004, 0xFFFFFFFF)
  | .wrDlh _ => (0x90000004, 0xFFFFFFFF)
  | .rdIir => (0x10000008, 0xFFFFFFFF)
  | .wrFcr _ => (0x90000008, 0xFFFFFFFF)
  | .rdLcr => (0x1000000C, 0xFFFFFFFF)
  | .wrLcr _ => (0x9000000C, 0xFFFFFFFF)
  | .rdMcr => (0x10000010, 0xFFFFFFFF)
  | .wrMcr _ => (0x90000010, 0xFFFFFFFF)
  | .rdLsr => (0x10000014, 0xFFFFFFFF)
  | .wrLsr _ => (0x90000014, 0xFFFFFFFF)
  | .rdMsr => (0x10000018, 0xFFFFFFFF)
  | .wrMsr _ => (0x90000018, 0xFFFFFFFF)
  | .rdScr => (0x1000001C, 0xFFFFFFFF)
  | .wrScr _ => (0x9000001C, 0xFFFFFFFF)
  | .rdLpdll => (0x10000020, 0xFFFFFFFF)
  | .wrLpdll _ => (0x90000020, 0xFFFFFFFF)
  | .rdUsr => (0x1000007C, 0xFFFFFFFF)
  | .wrUsr _ => (0x9000007C, 0xFFFFFFFF)
  | .rdSrr => (0x10000088, 0xFFFFFFFF)
  | .wrSrr _ => (0x90000088, 0xFFFFFFFF)
  | .rdDlf => (0x100000C0, 0xFFFFFFFF)
  | .wrDlf _ => (0x900000C0, 0xFFFFFFFF)
  | .rdDrL _ => (0x30000000, 0xF80FFFFF)
  | .wrDrL _ _ => (0xB0000000, 0xF80FFFFF)
  | .rdDrH _ => (0x30000004, 0xF80FFFFF)
  | .wrDrH _ _ => (0xB0000004, 0xF80FFFFF)
  | .rdDdrL _ => (0x30000008, 0xF80FFFFF)
  | .wrDdrL _ _ => (0xB0000008, 0xF80FFFFF)
  | .rdDdrH _ => (0x3000000C, 0xF80FFFFF)
  | .wrDdrH _ _ => (0xB000000C, 0xF80FFFFF)
  | .rdIoc _ => (0x50000000, 0xFFFFF003)
  | .wrIoc _ _ => (0xD0000000, 0xFFFFF003)

/-- Field by field: the bits a row's mask selects are those of its match. -/
def TableRow.Statement (i : Instr) : Prop :=
  ∀ p d, i.wf p d = true → i.descriptor &&& (tableRow i).2 = (tableRow i).1

theorem uart_row (w : Bool) (off : BitVec 12) (m : Word) (h : uartT w off = m) : uartT w off &&& 0xFFFFFFFF = m := by
  rw [h]
  exact BitVec.and_allOnes

theorem gpio_row (w : Bool) (k : BitVec 7) (off : BitVec 12) :
    gpioT w k off &&& 0xF80FFFFF = gpioT w 0 off := by
  simp only [gpioT, descriptorOf]
  refine BitVec.eq_of_getLsbD_eq fun j hj => ?_
  interval_cases j <;> simp only [BitVec.getLsbD_and, BitVec.getLsbD_append, Nat.reduceLT,
    Nat.reduceSub, if_true, if_false] <;> simp

theorem ioc_row (w : Bool) (off : BitVec 12) (h : off.toNat % 4 = 0) : iocT w off &&& 0xFFFFF003 = iocT w 0 := by
  have h0 : off.getLsbD 0 = false := by
    rw [BitVec.getLsbD, Nat.testBit_zero, decide_eq_false_iff_not]; omega
  have h1 : off.getLsbD 1 = false := by
    rw [BitVec.getLsbD, Nat.testBit_succ, Nat.testBit_zero, decide_eq_false_iff_not]; omega
  simp only [iocT, descriptorOf]
  refine BitVec.eq_of_getLsbD_eq fun j hj => ?_
  interval_cases j <;> simp only [BitVec.getLsbD_and, BitVec.getLsbD_append, Nat.reduceLT,
    Nat.reduceSub, if_true, if_false, h0, h1] <;> simp

theorem TableRow.rdRbr : TableRow.Statement (.rdRbr) := fun _ _ _ => uart_row _ _ _ rfl
theorem TableRow.wrThr (v : Word) : TableRow.Statement (.wrThr v) := fun _ _ _ => uart_row _ _ _ rfl
theorem TableRow.rdDll : TableRow.Statement (.rdDll) := fun _ _ _ => uart_row _ _ _ rfl
theorem TableRow.wrDll (v : Word) : TableRow.Statement (.wrDll v) := fun _ _ _ => uart_row _ _ _ rfl
theorem TableRow.rdIer : TableRow.Statement (.rdIer) := fun _ _ _ => uart_row _ _ _ rfl
theorem TableRow.wrIer (v : Word) : TableRow.Statement (.wrIer v) := fun _ _ _ => uart_row _ _ _ rfl
theorem TableRow.rdDlh : TableRow.Statement (.rdDlh) := fun _ _ _ => uart_row _ _ _ rfl
theorem TableRow.wrDlh (v : Word) : TableRow.Statement (.wrDlh v) := fun _ _ _ => uart_row _ _ _ rfl
theorem TableRow.rdIir : TableRow.Statement (.rdIir) := fun _ _ _ => uart_row _ _ _ rfl
theorem TableRow.wrFcr (v : Word) : TableRow.Statement (.wrFcr v) := fun _ _ _ => uart_row _ _ _ rfl
theorem TableRow.rdLcr : TableRow.Statement (.rdLcr) := fun _ _ _ => uart_row _ _ _ rfl
theorem TableRow.wrLcr (v : Word) : TableRow.Statement (.wrLcr v) := fun _ _ _ => uart_row _ _ _ rfl
theorem TableRow.rdMcr : TableRow.Statement (.rdMcr) := fun _ _ _ => uart_row _ _ _ rfl
theorem TableRow.wrMcr (v : Word) : TableRow.Statement (.wrMcr v) := fun _ _ _ => uart_row _ _ _ rfl
theorem TableRow.rdLsr : TableRow.Statement (.rdLsr) := fun _ _ _ => uart_row _ _ _ rfl
theorem TableRow.wrLsr (v : Word) : TableRow.Statement (.wrLsr v) := fun _ _ _ => uart_row _ _ _ rfl
theorem TableRow.rdMsr : TableRow.Statement (.rdMsr) := fun _ _ _ => uart_row _ _ _ rfl
theorem TableRow.wrMsr (v : Word) : TableRow.Statement (.wrMsr v) := fun _ _ _ => uart_row _ _ _ rfl
theorem TableRow.rdScr : TableRow.Statement (.rdScr) := fun _ _ _ => uart_row _ _ _ rfl
theorem TableRow.wrScr (v : Word) : TableRow.Statement (.wrScr v) := fun _ _ _ => uart_row _ _ _ rfl
theorem TableRow.rdLpdll : TableRow.Statement (.rdLpdll) := fun _ _ _ => uart_row _ _ _ rfl
theorem TableRow.wrLpdll (v : Word) : TableRow.Statement (.wrLpdll v) := fun _ _ _ => uart_row _ _ _ rfl
theorem TableRow.rdUsr : TableRow.Statement (.rdUsr) := fun _ _ _ => uart_row _ _ _ rfl
theorem TableRow.wrUsr (v : Word) : TableRow.Statement (.wrUsr v) := fun _ _ _ => uart_row _ _ _ rfl
theorem TableRow.rdSrr : TableRow.Statement (.rdSrr) := fun _ _ _ => uart_row _ _ _ rfl
theorem TableRow.wrSrr (v : Word) : TableRow.Statement (.wrSrr v) := fun _ _ _ => uart_row _ _ _ rfl
theorem TableRow.rdDlf : TableRow.Statement (.rdDlf) := fun _ _ _ => uart_row _ _ _ rfl
theorem TableRow.wrDlf (v : Word) : TableRow.Statement (.wrDlf v) := fun _ _ _ => uart_row _ _ _ rfl
theorem TableRow.rdDrL (k : BitVec 7) : TableRow.Statement (.rdDrL k) := fun _ _ _ => gpio_row false k _
theorem TableRow.wrDrL (k : BitVec 7) (v : Word) : TableRow.Statement (.wrDrL k v) := fun _ _ _ => gpio_row true k _
theorem TableRow.rdDrH (k : BitVec 7) : TableRow.Statement (.rdDrH k) := fun _ _ _ => gpio_row false k _
theorem TableRow.wrDrH (k : BitVec 7) (v : Word) : TableRow.Statement (.wrDrH k v) := fun _ _ _ => gpio_row true k _
theorem TableRow.rdDdrL (k : BitVec 7) : TableRow.Statement (.rdDdrL k) := fun _ _ _ => gpio_row false k _
theorem TableRow.wrDdrL (k : BitVec 7) (v : Word) : TableRow.Statement (.wrDdrL k v) := fun _ _ _ => gpio_row true k _
theorem TableRow.rdDdrH (k : BitVec 7) : TableRow.Statement (.rdDdrH k) := fun _ _ _ => gpio_row false k _
theorem TableRow.wrDdrH (k : BitVec 7) (v : Word) : TableRow.Statement (.wrDdrH k v) := fun _ _ _ => gpio_row true k _
theorem TableRow.rdIoc (off : BitVec 12) : TableRow.Statement (.rdIoc off) := fun p d h => ioc_row false off (by simp only [Instr.wf, Bool.and_eq_true, decide_eq_true_eq] at h; exact h.1)
theorem TableRow.wrIoc (off : BitVec 12) (v : Word) : TableRow.Statement (.wrIoc off v) := fun p d h => ioc_row true off (by simp only [Instr.wf, Bool.and_eq_true, decide_eq_true_eq] at h; exact h.1)

end Sys2Proof.Laws
end

