-- ==== Sys2Proof/Laws/Run.lean ====
section
/-! SUPPORT. What the next step is, and how runs of one host are put together from its statements. -/

namespace Sys2Proof.Laws

open Sys2Proof.Machine

/-! ### What the next step is -/

theorem step_of_runs {s : State} {h : Nat} {c : HostCtx} {st : Stmt} (r : s.Runs h c st) :
    step s = stmtStep h c st { s.taken with master := h } := by
  obtain ⟨he, hh, ha, l, hb⟩ := r
  simp [step, he, runEvent, hostStep, hh, ha, hb]

theorem step_of_device {s : State} {a : AgentStep} (e : s.nextEvent = .agent a) (n : ∀ h, a ≠ .host h) :
    step s = .next (deviceStep a s.taken) := by
  cases a <;> simp_all [step, runEvent]

/-- The first of the steps that `RunsAlone` promises. -/
theorem RunsAlone.runs {s : State} {h : Nat} {c : HostCtx} {st : Stmt} {n : Nat} {rest : List Event}
    (r : s.RunsAlone h c st (n + 1) rest) : s.Runs h c st := by
  obtain ⟨he, hh, ha, hb⟩ := r
  exact ⟨by simp [State.nextEvent, he, List.replicate_succ], hh, ha, hb⟩

/-! ### TIMEOUT, and the bodies of the procedures -/

theorem carryTimeout_same {v : Val} {vars : List (Nat × Val)} (h : getVar vars timeoutVar = v) : carryTimeout v vars = vars := by
  simp [carryTimeout, h]

/-- A fresh body starts with the TIMEOUT it is given. -/
theorem getVar_carryTimeout_nil (v : Val) : getVar (carryTimeout v []) timeoutVar = v := by
  unfold carryTimeout
  split
  · assumption
  · rename_i h
    have hv : v ≠ .u32 0 := fun e => h (by rw [e]; rfl)
    simp only [setVar, sparseSet, if_neg hv]
    simp [getVar, sparseGet]

theorem getVar_setVar_other {x y : Var} (h : y ≠ x) (v : Val) (vars : List (Nat × Val)) :
    getVar (setVar x v vars) y = getVar vars y := sparseGet_sparseSet_other _ _ _ h vars

theorem pollTemtThen_formed {p : Params} {rest : List Stmt}
    (h : (rest.all fun x => x.maskOk && x.targets.isEmpty) = true) : formed (pollTemtThen p rest) = true := by
  have hm : ∀ x ∈ rest, x.maskOk = true ∧ x.targets = [] := by simpa using h
  have hl : (rest.map fun x : Stmt => ({ stmt := x } : Line)).filterMap (·.label) = [] := by simp
  have hr : (Stmt.ret .timedOut).maskOk = true ∧ (Stmt.ret .timedOut).targets = [] := by decide
  have hi : (labelIndex 0 ((rest.map fun x : Stmt => ({ stmt := x } : Line)) ++
      [{ label := some 0, stmt := .ret .timedOut }])).isSome = true := by
    clear h hm hl
    induction rest with
    | nil => rfl
    | cons x xs ih => simpa [labelIndex] using ih
  unfold pollTemtThen formed
  split
  · simp +contextual [unlabelled, hl, hm]
    exact ⟨by decide, nofun⟩
  · simp +contextual [unlabelled, hl, hr, hm, labelIndex]
    exact ⟨⟨by decide, nofun⟩, by decide, by simpa [Stmt.targets] using hi⟩

/-- The body of every procedure is a program that may be formed (R317). -/
theorem body_formed {p : Params} {vars : List (Nat × Val)} {q : Proc} {b : List Line} (h : q.body p vars = .ok b) :
    formed b = true := by
  cases q <;> simp only [Proc.body, bind, Except.bind] at h <;> (repeat' split at h) <;> cases h
  all_goals first
    | rfl
    | exact pollTemtThen_formed rfl

/-! ### The bank of a `bank_base` (R800, R810, R811) -/

theorem bankWithBase_none {a : Nat} {l : List Nat} {k : Nat} (h : a ∉ l) : bankWithBase a k l = none := by
  induction l generalizing k with
  | nil => rfl
  | cons b l ih =>
    simp only [List.mem_cons, not_or] at h
    simp [bankWithBase, Ne.symm h.1, ih h.2]

theorem bankOf_none {a : Nat} {l : List Nat} {k : Nat} (h : bankOf a k l = none) : a ∉ l := by
  induction l generalizing k with
  | nil => exact List.not_mem_nil
  | cons b l ih =>
    unfold bankOf at h
    split at h
    · cases h
    · rename_i hb
      simp only [List.mem_cons, not_or]
      refine ⟨?_, ih h⟩
      rintro rfl
      simp [inBlock] at hb

theorem target_none {p : Params} {m : Nat} (h : target p m = none) : m ∉ p.gpioBase := by
  unfold target at h
  split at h
  · cases h
  · split at h
    · cases h
    · rename_i q; exact bankOf_none q

/-- An address in no block is UNMAPPED_ADDRESS. -/
theorem bankOperand_unmapped {p : Params} {m : Nat} (h : target p m = none) : bankOperand p m = .error (.unmapped m) := by
  simp [bankOperand, bankWithBase_none (target_none h), h]

/-- In a block, what is no bank's base stands for absolute addresses. -/
theorem bankOperand_absolute {p : Params} {m : Nat} (hm : m ∉ p.gpioBase) (h : target p m ≠ none) :
    bankOperand p m = .ok fun off => .absolute (m + off.toNat) := by
  simp only [bankOperand, bankWithBase_none hm]
  split <;> simp_all

/-! ### Runs -/

theorem reaches_zero (s : State) : Reaches 0 s s := rfl

theorem reaches_succ {n : Nat} {s s' t : State} (e : step s = .next s') (r : Reaches n s' t) : Reaches (n + 1) s t := by
  have e' : core.step s = .next s' := e
  exact (Host.Core.run.eq_2 core s n).trans (by rw [e']; exact r)

section
variable {s s' t : State} {h n : Nat} {c c' : HostCtx} {l : Option Label} {rest : List Event}

/-- A run that begins with one statement of host `h`, chosen by the first of `inputs`. -/
theorem reaches_stmt {st : Stmt} (hi : s.inputs = .agent (.host h) :: rest) (hh : s.hosts[h]? = some c)
    (ha : c.halted = false) (hb : c.body[c.pc]? = some ⟨l, st⟩)
    (hs : stmtStep h c st { s with inputs := rest, master := h } = .next s') (r : Reaches n s' t) : Reaches (n + 1) s t := by
  refine reaches_succ ?_ r
  rw [step_of_runs ⟨by simp [State.nextEvent, hi], hh, ha, l, hb⟩, ← hs]
  simp [State.taken, hi]

theorem reaches_rd {x : Var} {a : AddrOp} {d : Word} (hi : s.inputs = .agent (.host h) :: rest)
    (hh : s.hosts[h]? = some c) (ha : c.halted = false) (hb : c.body[c.pc]? = some ⟨l, .rd x a⟩)
    (hd : a.descriptor s.cfg false = .ok d) (hp : perform d 0 { s with inputs := rest, master := h } = .next s')
    (r : Reaches n (s'.setHost h (c.assign x (.u32 s'.rdata)).advance) t) : Reaches (n + 1) s t :=
  reaches_stmt hi hh ha hb (by simp only [stmtStep, transact, hd]; rw [hp]; rfl) r

theorem reaches_wr {a : AddrOp} {e : UExpr} {v d : Word} (hi : s.inputs = .agent (.host h) :: rest)
    (hh : s.hosts[h]? = some c) (ha : c.halted = false) (hb : c.body[c.pc]? = some ⟨l, .wr a e⟩)
    (hv : e.eval c.vars = .ok v) (hd : a.descriptor s.cfg true = .ok d)
    (hp : perform d v { s with inputs := rest, master := h } = .next s')
    (r : Reaches n (s'.setHost h c.advance) t) : Reaches (n + 1) s t :=
  reaches_stmt hi hh ha hb (by simp only [stmtStep, hv, transact, hd]; rw [hp]; rfl) r

theorem reaches_poll {x : Var} {a : AddrOp} {m : UExpr} {d : Word} {z : Bool} (hi : s.inputs = .agent (.host h) :: rest)
    (hh : s.hosts[h]? = some c) (ha : c.halted = false) (hb : c.body[c.pc]? = some ⟨l, .poll x a m⟩)
    (hd : a.descriptor s.cfg false = .ok d) (hp : perform d 0 { s with inputs := rest, master := h } = .next s')
    (hz : maskedZero (c.assign x (.u32 s'.rdata)) x m = .ok z)
    (r : Reaches n (s'.setHost h (pollNext s'.cfg.pollBound z (c.assign x (.u32 s'.rdata)))) t) : Reaches (n + 1) s t :=
  reaches_stmt hi hh ha hb
    (by simp only [stmtStep, transact, hd]; rw [hp]; simp only [afterPollRead, hz]) r

theorem reaches_call {p : Proc} {dst : Option Var} {b : List Line} (hi : s.inputs = .agent (.host h) :: rest)
    (hh : s.hosts[h]? = some c) (ha : c.halted = false) (hb : c.body[c.pc]? = some ⟨l, .call dst p⟩)
    (hp : p.body s.cfg c.vars = .ok b)
    (r : Reaches n ({ s with inputs := rest, master := h }.setHost h (c.enter dst b)) t) : Reaches (n + 1) s t :=
  reaches_stmt hi hh ha hb (by simp [stmtStep, hp]) r

theorem reaches_ret {a : RetArg} {v : Option Val} (hi : s.inputs = .agent (.host h) :: rest)
    (hh : s.hosts[h]? = some c) (ha : c.halted = false) (hb : c.body[c.pc]? = some ⟨l, .ret a⟩)
    (hv : a.eval c.vars = .ok v)
    (r : Reaches n ({ s with inputs := rest, master := h }.setHost h (c.doReturn v)) t) : Reaches (n + 1) s t :=
  reaches_stmt hi hh ha hb (by simp [stmtStep, hv]) r

theorem setHost_lookup (hh : s.hosts[h]? = some c) : (s.setHost h c').hosts[h]? = some c' := by
  obtain ⟨hl, -⟩ := List.getElem?_eq_some_iff.mp hh
  simp [State.setHost, hl]

theorem setHost_setHost : (s.setHost h c).setHost h c' = s.setHost h c' := by simp [State.setHost]

end

end Sys2Proof.Laws
end

