-- ==== Sys2Proof/Tests/Slice0.lean ====
section
/-! SUPPORT. Tests of the model, their expected values from spec/95_test_vectors.md (the vector is named where there is one)
or worked out by hand from the rules, and a witness for the hypotheses of every statement. -/

namespace Sys2Proof.Tests

open Sys2Proof.Machine

/-! ### Helpers -/

/-- What one transaction leaves, read through `f`; `none` if it is refused. -/
def after {α : Type} (t v : Word) (s : State) (f : State → α) : Option α :=
  match perform t v s with
  | .next s' => some (f s')
  | .fault r => nomatch r
  | .refused _ => none

/-- Why a transaction is refused. -/
def refusal (t v : Word) (s : State) : Option Refusal :=
  match perform t v s with
  | .next _ => none
  | .fault r => nomatch r
  | .refused r => some r

/-- What one step leaves, read through `f`. -/
def afterStep {α : Type} (s : State) (f : State → α) : Option α :=
  match step s with
  | .next s' => some (f s')
  | .fault r => nomatch r
  | .refused _ => none

/-- Why a step is refused. -/
def stepRefusal (s : State) : Option Refusal :=
  match step s with
  | .next _ => none
  | .fault r => nomatch r
  | .refused r => some r

/-- The reset state with another UART. -/
def withU (u : Uart) : State := { State.reset with uart := u }

/-- The reset state with other parameters. -/
def withP (p : Params) : State := { State.reset with cfg := p }

/-- The reset state with another bank 0. -/
def withBank (g : GpioBank) : State := { State.reset with gpio := State.reset.gpio.set 0 g }

/-- The reset state with a value in IOC register 0x02C. -/
def withIoc (h : Half) : State := { State.reset with ioc := [(0x02C, h)] }

/-- The reset state, about to take an event. -/
def next (e : Event) (s : State) : State := { s with inputs := [e] }

/-- A received character without an error. -/
def plain (d : Byte) : RxEntry := { data := d, pe := false, fe := false, bi := false }

/-- Host 0 about to run one statement, with DIV = 1. -/
def running (st : Stmt) : State :=
  { State.reset with
    uart := { Uart.reset with dll := 1 }
    hosts := [HostCtx.start [{ stmt := st }]]
    inputs := [.agent (.host 0)] }

/-! ### Ill-formed terms, one a check -/

theorem test_params_wf : Params.reference.wf = true := by decide
theorem test_params_fifo_too_small : { Params.reference with fifoDepth := 1 }.wf = false := by decide
theorem test_params_dlf_too_wide : { Params.reference with dlfSize := 9 }.wf = false := by decide
theorem test_params_no_bank : { Params.reference with gpioBase := [] }.wf = false := by decide
theorem test_params_too_many_banks :
    { Params.reference with gpioBase := List.replicate 129 0 }.wf = false := by simp [Params.wf, Params.gpioBanks]
theorem test_params_no_mux_register : { Params.reference with iocRegSet := [0x000] }.wf = false := by decide
theorem test_params_offsets_not_rising : { Params.reference with iocRegSet := [0x030, 0x02C] }.wf = false := by decide
theorem test_params_offset_misaligned : { Params.reference with iocRegSet := [0x02C, 0x02E] }.wf = false := by decide
theorem test_params_offset_outside_block : { Params.reference with iocRegSet := [0x02C, 0x1000] }.wf = false := by decide
theorem test_params_addr_width : { Params.reference with addrWidth := 16 }.wf = false := by decide
theorem test_params_base_misaligned : { Params.reference with uartBase := 0xFE660002 }.wf = false := by decide
theorem test_params_base_too_high : { Params.reference with uartBase := 0xFFFFF004 }.wf = false := by decide
theorem test_params_blocks_overlap : { Params.reference with iocBase := 0xFE660FFC }.wf = false := by decide
theorem test_params_poll_bound_zero : { Params.reference with pollBound := some 0 }.wf = false := by decide

theorem test_wf_rbr_needs_dlab_clear : Instr.wf Params.reference true .rdRbr = false := by decide
theorem test_wf_dll_needs_dlab_set : Instr.wf Params.reference false (.wrDll 1) = false := by decide
theorem test_wf_bank_absent : Instr.wf Params.reference false (.rdDrL 4) = false := by decide
theorem test_wf_write_bank_absent : Instr.wf Params.reference false (.wrDdrH 4 0) = false := by decide
theorem test_wf_ioc_no_register : Instr.wf Params.reference false (.rdIoc 0x030) = false := by decide
theorem test_wf_ioc_misaligned :
    Instr.wf { Params.reference with iocRegSet := [0x02D] } false (.wrIoc 0x02D 0) = false := by decide

theorem test_formed_loop :
    formed [{ label := some 0, stmt := .rd 1 (.uart 0x014) }, { stmt := .bz 1 (.lit 0x1) 0 }] = true := by
  decide
theorem test_formed_missing_label : formed [{ stmt := .jmp 0 }] = false := by decide
theorem test_formed_label_twice :
    formed [{ label := some 0, stmt := .halt }, { label := some 0, stmt := .halt }] = false := by decide
theorem test_formed_zero_mask : formed [{ stmt := .poll 1 (.uart 0x014) (.lit 0) }] = false := by decide

/-! ### Decoding: words written out field by field, W BLK SZ BANK RSVD OFF (R301), for every row -/

theorem test_decode_banked (v : Word) :
    decode Params.reference false 0b0_00_10_0000000_00000000_000000000000 v = .ok .rdRbr ∧
    decode Params.reference false 0b1_00_10_0000000_00000000_000000000000 v = .ok (.wrThr v) ∧
    decode Params.reference true 0b0_00_10_0000000_00000000_000000000000 v = .ok .rdDll ∧
    decode Params.reference true 0b1_00_10_0000000_00000000_000000000000 v = .ok (.wrDll v) ∧
    decode Params.reference false 0b0_00_10_0000000_00000000_000000000100 v = .ok .rdIer ∧
    decode Params.reference false 0b1_00_10_0000000_00000000_000000000100 v = .ok (.wrIer v) ∧
    decode Params.reference true 0b0_00_10_0000000_00000000_000000000100 v = .ok .rdDlh ∧
    decode Params.reference true 0b1_00_10_0000000_00000000_000000000100 v = .ok (.wrDlh v) :=
  ⟨rfl, rfl, rfl, rfl, rfl, rfl, rfl, rfl⟩

theorem test_decode_line_control (v : Word) :
    decode Params.reference false 0b0_00_10_0000000_00000000_000000001000 v = .ok .rdIir ∧
    decode Params.reference false 0b1_00_10_0000000_00000000_000000001000 v = .ok (.wrFcr v) ∧
    decode Params.reference false 0b0_00_10_0000000_00000000_000000001100 v = .ok .rdLcr ∧
    decode Params.reference false 0b1_00_10_0000000_00000000_000000001100 v = .ok (.wrLcr v) :=
  ⟨rfl, rfl, rfl, rfl⟩

theorem test_decode_modem_status (v : Word) :
    decode Params.reference false 0b0_00_10_0000000_00000000_000000010000 v = .ok .rdMcr ∧
    decode Params.reference false 0b1_00_10_0000000_00000000_000000010000 v = .ok (.wrMcr v) ∧
    decode Params.reference false 0b0_00_10_0000000_00000000_000000010100 v = .ok .rdLsr ∧
    decode Params.reference false 0b1_00_10_0000000_00000000_000000010100 v = .ok (.wrLsr v) ∧
    decode Params.reference false 0b0_00_10_0000000_00000000_000000011000 v = .ok .rdMsr ∧
    decode Params.reference false 0b1_00_10_0000000_00000000_000000011000 v = .ok (.wrMsr v) ∧
    decode Params.reference false 0b0_00_10_0000000_00000000_000000011100 v = .ok .rdScr ∧
    decode Params.reference false 0b1_00_10_0000000_00000000_000000011100 v = .ok (.wrScr v) :=
  ⟨rfl, rfl, rfl, rfl, rfl, rfl, rfl, rfl⟩

theorem test_decode_extensions (v : Word) :
    decode Params.reference false 0b0_00_10_0000000_00000000_000000100000 v = .ok .rdLpdll ∧
    decode Params.reference false 0b1_00_10_0000000_00000000_000000100000 v = .ok (.wrLpdll v) ∧
    decode Params.reference false 0b0_00_10_0000000_00000000_000001111100 v = .ok .rdUsr ∧
    decode Params.reference false 0b1_00_10_0000000_00000000_000001111100 v = .ok (.wrUsr v) ∧
    decode Params.reference false 0b0_00_10_0000000_00000000_000010001000 v = .ok .rdSrr ∧
    decode Params.reference false 0b1_00_10_0000000_00000000_000010001000 v = .ok (.wrSrr v) ∧
    decode Params.reference false 0b0_00_10_0000000_00000000_000011000000 v = .ok .rdDlf ∧
    decode Params.reference false 0b1_00_10_0000000_00000000_000011000000 v = .ok (.wrDlf v) :=
  ⟨rfl, rfl, rfl, rfl, rfl, rfl, rfl, rfl⟩

theorem test_decode_gpio (v : Word) :
    decode Params.reference false 0b0_01_10_0000011_00000000_000000000000 v = .ok (.rdDrL 3) ∧
    decode Params.reference false 0b1_01_10_0000011_00000000_000000000000 v = .ok (.wrDrL 3 v) ∧
    decode Params.reference false 0b0_01_10_0000001_00000000_000000000100 v = .ok (.rdDrH 1) ∧
    decode Params.reference false 0b1_01_10_0000001_00000000_000000000100 v = .ok (.wrDrH 1 v) ∧
    decode Params.reference false 0b0_01_10_0000010_00000000_000000001000 v = .ok (.rdDdrL 2) ∧
    decode Params.reference false 0b1_01_10_0000010_00000000_000000001000 v = .ok (.wrDdrL 2 v) ∧
    decode Params.reference false 0b0_01_10_0000000_00000000_000000001100 v = .ok (.rdDdrH 0) ∧
    decode Params.reference false 0b1_01_10_0000000_00000000_000000001100 v = .ok (.wrDdrH 0 v) :=
  ⟨rfl, rfl, rfl, rfl, rfl, rfl, rfl, rfl⟩

theorem test_decode_ioc (v : Word) :
    decode Params.reference false 0b0_10_10_0000000_00000000_000000101100 v = .ok (.rdIoc 0x02C) ∧
    decode Params.reference false 0b1_10_10_0000000_00000000_000000101100 v = .ok (.wrIoc 0x02C v) :=
  ⟨rfl, rfl⟩

theorem test_encode_words :
    encode (.wrLcr 0x83) = [0x9000000C, 0x83] ∧ encode .rdLsr = [0x10000014] ∧
    encode (.wrDdrH 1 0x00100010) = [0xB010000C, 0x00100010] ∧ encode (.wrIoc 0x02C 0x00FF00AA) = [0xD000002C, 0x00FF00AA] := by
  decide

theorem test_decodeTableWord :
    decodeTableWord 32 0x10000014 = some .rdLsr ∧ decodeTableWord 64 0x00000048_90000000 = some (.wrThr 0x48) ∧
    decodeTableWord 32 0xB0900004 = some (.wrDrH 9 0) ∧ decodeTableWord 32 0x50000FFC = some (.rdIoc 0xFFC) := by decide

theorem test_withFetchWord_runs :
    afterStep (State.reset.withFetchWord 64 0x0000005A_9000001C) (fun s => s.uart.scr) = some 0x5A := by decide

/-! ### Refusals (V-Q1 to V-Q14, V-D12, V-G12, V-I7) -/

theorem test_refused_width :
    refusal 0x80000014 0 State.reset = some (.unsupportedWidth 0x80000014) ∧
    refusal 0x88000000 0 State.reset = some (.unsupportedWidth 0x88000000) ∧
    refusal 0x98000000 0 State.reset = some (.unsupportedWidth 0x98000000) ∧
    refusal 0x80000016 0 State.reset = some (.unsupportedWidth 0x80000016) := by decide

theorem test_refused_misaligned :
    refusal 0x90000016 0 State.reset = some (.misaligned 0x90000016) ∧
    refusal 0x90000115 0 State.reset = some (.misaligned 0x90000115) := by decide

theorem test_refused_reserved :
    refusal 0x70000000 0 State.reset = some (.reservedDescriptor 0x70000000) ∧
    refusal 0x10001000 0 State.reset = some (.reservedDescriptor 0x10001000) ∧
    refusal 0x10100000 0 State.reset = some (.reservedDescriptor 0x10100000) := by decide

theorem test_refused_unmapped :
    refusal 0x90000100 0 State.reset = some (.unmappedAddress (.descriptor 0x90000100)) ∧
    refusal 0x90000FFC 0 State.reset = some (.unmappedAddress (.descriptor 0x90000FFC)) ∧
    refusal 0x30400000 0 State.reset = some (.unmappedAddress (.descriptor 0x30400000)) := by decide

theorem test_refused_offset :
    refusal 0x10000024 0 State.reset = some (.notModelledOffset .uart 0x024) ∧
    refusal 0x100000FC 0 State.reset = some (.notModelledOffset .uart 0x0FC) ∧
    refusal 0x30000010 0 State.reset = some (.notModelledOffset (.gpio 0) 0x010) ∧
    refusal 0x50000030 0 State.reset = some (.notModelledOffset .ioc 0x030) := by decide

/-- V-M9, V-D4, V-Q13: WR_LSR, WR_MSR, WR_USR. -/
theorem test_refused_read_only :
    refusal 0x90000014 0 State.reset = some (.writeReadOnly 0x014) ∧
    refusal 0x90000018 0 State.reset = some (.writeReadOnly 0x018) ∧
    refusal 0x9000007C 0 State.reset = some (.writeReadOnly 0x07C) := by decide

/-- V-M2, V-M3, V-Q14: WR_MCR. -/
theorem test_refused_mcr_bits :
    refusal 0x90000010 0x20 State.reset = some (.valueNotAdmitted 0x20) ∧
    refusal 0x90000010 0x43 State.reset = some (.valueNotAdmitted 0x43) ∧
    refusal 0x90000010 0x23 State.reset = some (.valueNotAdmitted 0x23) := by decide

/-! ### Offsets 0x000 and 0x004 -/

/-- V-U1, RD_RBR: the low byte is the character, the rest any value. -/
theorem test_rdRbr_pops :
    let s := withU { Uart.reset with rxq := [plain 0x41] }
    after 0x10000000 0 s (fun t => (t.uart.rxq, t.uart.dr)) = some ([], false) ∧
    after 0x10000000 0 s (fun t => t.rdata) = some (s.draw 0 24 ++ (0x41 : Byte)) := ⟨by decide, rfl⟩

/-- V-U3: the new head sets PE_S; the LSR read that follows would give 0xE5. -/
theorem test_rdRbr_reveals_error :
    after 0x10000000 0 (withU { Uart.reset with fifoe := true, rxq := [plain 0x41, ⟨0x42, true, false, false⟩] })
      (fun t => (t.uart.peS, lsr t.cfg t.uart)) = some (true, 0xE5) := by decide

/-- V-U4, V-U7, WR_THR. -/
theorem test_wrThr_queues :
    after 0x90000000 0x1234 State.reset (fun t => (t.uart.txq, t.uart.threIp, lsr t.cfg t.uart)) =
      some ([0x34], false, 0x00) := by decide

/-- V-U5, V-U6. -/
theorem test_wrThr_full :
    after 0x90000000 0x42 (withU { Uart.reset with txq := [0x41] }) (·.uart.txq) = some [0x42] ∧
    after 0x90000000 0x42 (withU { Uart.reset with fifoe := true, txq := List.replicate 16 0x41 }) (·.uart.txq) =
      some (List.replicate 16 0x41) := by decide

/-- V-U9, RD_DLL. -/
theorem test_rdDll :
    after 0x10000000 0 (withU { Uart.reset with lcr := 0x80, dll := 0x0D, rxq := [plain 0x41] })
      (fun t => (t.rdata, t.uart.rxq.length)) = some (0x0D, 1) := by decide

/-- V-U8, WR_DLL. -/
theorem test_wrDll :
    after 0x90000000 0x1 (withU { Uart.reset with lcr := 0x80 }) (fun t => (t.uart.dll, t.uart.txq)) = some (0x01, []) := by
  decide

/-- V-U12, WR_IER; the first IIR read after it would give 0x02. -/
theorem test_wrIer_masks :
    after 0x90000004 0xFF State.reset (fun t => (t.uart.ier, t.uart.threIp, iir t.cfg t.uart)) =
      some (0x0F, true, 0x02) := by decide

/-- V-U13, V-U14. -/
theorem test_wrIer_ptime_and_replace :
    after 0x90000004 0xFF (withP { Params.reference with threModePresent := true }) (·.uart.ier) = some 0x8F ∧
    after 0x90000004 0x01 (withU { Uart.reset with ier := 0x0F }) (·.uart.ier) = some 0x01 := by decide

/-- V-U12, RD_IER. -/
theorem test_rdIer : after 0x10000004 0 (withU { Uart.reset with ier := 0x0F }) (·.rdata) = some 0x0F := by decide

/-- V-U11, RD_DLH. -/
theorem test_rdDlh : after 0x10000004 0 (withU { Uart.reset with lcr := 0x80, dlh := 0x04 }) (·.rdata) = some 0x04 := by
  decide

/-- V-U10, WR_DLH. -/
theorem test_wrDlh :
    after 0x90000004 0x4 (withU { Uart.reset with lcr := 0x80, ier := 0x01 }) (fun t => (t.uart.dlh, t.uart.ier)) =
      some (0x04, 0x01) := by decide

/-! ### Offsets 0x008 and 0x00C -/

/-- V-L1, V-L2, RD_IIR. -/
theorem test_rdIir :
    after 0x10000008 0 State.reset (·.rdata) = some 0x01 ∧
    after 0x10000008 0 (withU { Uart.reset with fifoe := true }) (·.rdata) = some 0xC1 := by decide

/-- V-N4: reporting THRE clears it. -/
theorem test_rdIir_clears_thre :
    after 0x10000008 0 (withU { Uart.reset with ier := 0x02, threIp := true }) (fun t => (t.rdata, iir t.cfg t.uart)) =
      some (0x02, 0x01) := by decide

/-- V-L5, WR_FCR. -/
theorem test_wrFcr_fields :
    after 0x90000008 0xC7 State.reset (fun t => (t.uart.fifoe, t.uart.rt, t.uart.dmam, t.uart.tet, trigger t.cfg t.uart.rt)) =
      some (true, 3, false, 0, 14) := by decide

/-- V-L6: emptying a TXQ that held a character raises THRE_IP and the LSR reads 0x20. -/
theorem test_wrFcr_empties :
    after 0x90000008 0x7 (withU { Uart.reset with fifoe := true, tsrBusy := true, txq := [0x55] })
      (fun t => (t.uart.txq, t.uart.threIp, lsr t.cfg t.uart)) = some ([], true, 0x20) := by decide

/-- V-L8, RD_LCR. -/
theorem test_rdLcr : after 0x1000000C 0 (withU { Uart.reset with lcr := 0x83 }) (·.rdata) = some 0x83 := by decide

/-- V-L9, V-L10, WR_LCR. -/
theorem test_wrLcr_break :
    after 0x9000000C 0x43 (withU { Uart.reset with lcr := 0x03 }) (fun t => (t.uart.lcr, t.txlog)) =
      some (0x43, [.breakStart]) ∧
    after 0x9000000C 0x123456C3 (withU { Uart.reset with lcr := 0x40 }) (fun t => (t.uart.lcr, t.txlog)) =
      some (0xC3, []) := by decide

/-- V-N9. -/
theorem test_wrLcr_guarded :
    after 0x9000000C 0x83 { withP { Params.reference with busyGuard := true } with
      uart := { Uart.reset with tsrBusy := true } } (fun t => (t.uart.lcr, iir t.cfg t.uart, t.intr)) =
      some (0x00, 0x07, true) := by decide

/-! ### Offsets 0x010 to 0x01C -/

theorem test_rdMcr : after 0x10000010 0 (withU { Uart.reset with mcr := 0x13 }) (·.rdata) = some 0x13 := by decide

/-- V-M1, V-M4, WR_MCR. -/
theorem test_wrMcr_outputs :
    after 0x90000010 0x83 State.reset (fun t => (t.uart.mcr, t.uart.outputs, msr t.env t.uart)) =
      some (0x03, { dtr := true, rts := true, out1 := false, out2 := false }, 0x00) := by decide

/-- V-M5: entering loopback; the MSR read that follows would give 0x33. -/
theorem test_wrMcr_loopback :
    after 0x90000010 0x13 (withU { Uart.reset with mcr := 0x03 }) (fun t => (msr t.env t.uart, t.uart.outputs.dtr)) =
      some (0x33, false) := by decide

/-- V-M8, RD_LSR. -/
theorem test_rdLsr :
    after 0x10000014 0 (withU { Uart.reset with rxq := [plain 0x41], oe := true })
      (fun t => (t.rdata, lsr t.cfg t.uart)) = some (0x63, 0x61) := by decide

/-- V-U3: the second read, with the entry's error still in the queue. -/
theorem test_rdLsr_fifo_error :
    after 0x10000014 0 (withU { Uart.reset with fifoe := true, rxq := [⟨0x42, true, false, false⟩] }) (·.rdata) =
      some 0xE1 := by decide

/-- V-M5, RD_MSR. -/
theorem test_rdMsr :
    after 0x10000018 0 (withU { Uart.reset with mcr := 0x13, dcts := true, ddsr := true })
      (fun t => (t.rdata, msr t.env t.uart)) = some (0x33, 0x30) := by decide

/-- V-M10, WR_SCR and RD_SCR. -/
theorem test_wrScr : after 0x9000001C 0x1234565A State.reset (·.uart.scr) = some 0x5A := by decide
theorem test_rdScr : after 0x1000001C 0 (withU { Uart.reset with scr := 0x5A }) (·.rdata) = some 0x5A := by decide

/-! ### DesignWare extensions -/

/-- V-D9, WR_LPDLL and RD_LPDLL. -/
theorem test_wrLpdll : after 0x90000020 0xFF State.reset (·.uart.lpdll) = some 0xFF := by decide
theorem test_rdLpdll : after 0x10000020 0 (withU { Uart.reset with lpdll := 0xFF }) (·.rdata) = some 0xFF := by decide

/-- V-D2, RD_USR: the transmitter is busy, so no bit is a free value. -/
theorem test_rdUsr : after 0x1000007C 0 (withU { Uart.reset with txq := [0x41] }) (·.rdata) = some 0x01 := by decide

/-- V-D1, V-D3: whatever bit 0 reads as. -/
theorem test_usr_idle (b : Bool) :
    usr Params.reference Uart.reset b = (if b then 0x07 else 0x06) ∧
    usr Params.reference { Uart.reset with fifoe := true, rxq := List.replicate 16 (plain 0) } b =
      (if b then 0x1F else 0x1E) := by cases b <;> decide

/-- V-D5, RD_SRR. -/
theorem test_rdSrr : after 0x10000088 0 State.reset (·.rdata) = some 0x00 := by decide

/-- V-D6, V-D7, WR_SRR. -/
theorem test_wrSrr_queues :
    after 0x90000088 0x2 (withU { Uart.reset with rxq := [plain 0x41] }) (·.uart) = some Uart.reset ∧
    after 0x90000088 0x4 (withU { Uart.reset with txq := [0x41] }) (fun t => (t.uart.txq, t.uart.threIp)) =
      some ([], true) := by decide

/-- V-D8. -/
theorem test_wrSrr_reset :
    after 0x90000088 0x1 (withU { Uart.reset with lcr := 0x43, dll := 0x01, tsrBusy := true, ier := 0x01 })
      (fun t => (t.uart.lcr, t.uart.dll, t.uart.ier, t.uart.tsrBusy, t.txlog)) = some (0, 0, 0, false, [.breakEnd]) := by
  decide

/-- V-D10, V-D11, WR_DLF and RD_DLF. -/
theorem test_wrDlf :
    after 0x900000C0 0xF8 (withP { Params.reference with dlfSize := 4 }) (·.uart.dlf) = some 0x8 ∧
    after 0x900000C0 0xF8 State.reset (·.uart.dlf) = some 0x0 := by decide
theorem test_rdDlf : after 0x100000C0 0 (withU { Uart.reset with dlf := 0x8 }) (·.rdata) = some 0x8 := by decide

/-! ### GPIO and IOC -/

def bankA : GpioBank := { drL := 0x1234, drH := 0x0010, ddrL := 0x00FF, ddrH := 0x8000 }

/-- V-G11 and its three neighbours: bits 15:0 are the register, the rest any value. -/
theorem test_gpio_reads :
    let s := withBank bankA
    after 0x30000000 0 s (·.rdata) = some (s.draw 0 16 ++ (0x1234 : Half)) ∧
    after 0x30000004 0 s (·.rdata) = some (s.draw 0 16 ++ (0x0010 : Half)) ∧
    after 0x30000008 0 s (·.rdata) = some (s.draw 0 16 ++ (0x00FF : Half)) ∧
    after 0x3000000C 0 s (·.rdata) = some (s.draw 0 16 ++ (0x8000 : Half)) := ⟨rfl, rfl, rfl, rfl⟩

/-- V-G9, V-G10, WR_DR_L. -/
theorem test_wrDrL :
    after 0xB0000000 0x0000FFFF (withBank bankA) (·.gpio[0]?) = some (some bankA) ∧
    after 0xB0000000 0x00FF000F (withBank { bankA with drL := 0x00F0 }) (·.gpio[0]?) =
      some (some { bankA with drL := 0x000F }) := by decide

/-- V-G2, WR_DR_H; between the two writes the pin drives the old level. -/
theorem test_wrDrH :
    after 0xB0000004 0x00100000 (withBank { bankA with ddrH := 0x0010 }) (fun t => t.gpio[0]?.map fun b => (b.drH, b.drives 20)) =
      some (some (0x0000, some false)) := by decide

/-- V-G7, WR_DDR_L in bank 1. -/
theorem test_wrDdrL :
    after 0xB0100008 0x00200020 State.reset (fun t => (t.gpio[1]?.map (·.ddrL), t.gpio[0]?.map (·.ddrL))) =
      some (some 0x0020, some 0x0000) := by decide

/-- V-G2, WR_DDR_H. -/
theorem test_wrDdrH :
    after 0xB000000C 0x00100010 (withBank { bankA with ddrH := 0 }) (fun t => t.gpio[0]?.map fun b => (b.ddrH, b.drives 20)) =
      some (some (0x0010, some true)) := by decide

/-- V-I1, V-I3, WR_IOC. -/
theorem test_wrIoc :
    after 0xD000002C 0x00FF00AA (withIoc 0x1234) (·.ioc) = some [(0x02C, 0x12AA)] ∧
    after 0xD000002C 0x00010000 (withIoc 0x0001) (·.ioc) = some [] := by decide

theorem test_rdIoc :
    after 0x5000002C 0 (withIoc 0x12AA) (·.rdata) = some ((withIoc 0x12AA).draw 0 16 ++ (0x12AA : Half)) := rfl

/-! ### Device agents -/

/-- V-E1. -/
theorem test_txLoad :
    afterStep (next (.agent .txLoad) (withU { Uart.reset with lcr := 0x03, dll := 1, txq := [0x48] }))
      (fun t => (t.uart.tsr, t.uart.txq, t.uart.threIp, lsr t.cfg t.uart)) = some (0x48, [], true, 0x20) := by decide

/-- V-E2. -/
theorem test_txLoad_without_clock :
    afterStep (next (.agent .txLoad) (withU { Uart.reset with txq := [0x48] })) (fun t => lsr t.cfg t.uart) = some 0x00 := by
  decide

/-- V-E3. -/
theorem test_txDone_narrow :
    afterStep (next (.agent .txDone) (withU { Uart.reset with dll := 1, tsr := 0xFF, tsrBusy := true }))
      (fun t => (t.txlog, lsr t.cfg t.uart)) =
      some ([.char 0x1F { bits := 5, stop := .one, parity := .none }], 0x60) := by decide

/-- V-E11. -/
theorem test_txDone_loopback :
    afterStep (next (.agent .txDone)
        (withU { Uart.reset with lcr := 0x03, mcr := 0x10, dll := 1, tsr := 0x5A, tsrBusy := true, tsrFmt := fmtOf 0x03 }))
      (fun t => (t.uart.rxq, t.txlog)) = some ([plain 0x5A], []) := by decide

/-- V-E4, the second frame. -/
theorem test_rxFrame_overrun :
    afterStep (next (.agent (.rxFrame 0x42 false false false))
        (withU { Uart.reset with lcr := 0x03, dll := 1, rxq := [plain 0x41] }))
      (fun t => (t.uart.rxq, lsr t.cfg t.uart)) = some ([plain 0x42], 0x63) := by decide

/-- V-E6. -/
theorem test_rxFrame_break :
    afterStep (next (.agent (.rxFrame 0x55 false false true)) (withU { Uart.reset with dll := 1 }))
      (fun t => (t.uart.rxq, lsr t.cfg t.uart)) = some ([⟨0x00, false, false, true⟩], 0x71) := by decide

/-- V-E10. -/
theorem test_rxTimeout :
    afterStep (next (.agent .rxTimeout) (withU { Uart.reset with fifoe := true, rt := 2, ier := 1, rxq := [plain 0x41] }))
      (fun t => iir t.cfg t.uart) = some 0xCC := by decide

/-- V-E13; the MSR read that follows would give 0x81. -/
theorem test_modemChange :
    afterStep (next (.agent (.modemChange false false false true))
        { State.reset with env := { cts := true, dsr := false, ri := false, dcd := true } })
      (fun t => msr t.env t.uart) = some 0x81 := by decide

/-- V-M6, V-M7: only the trailing edge of the ring sets TERI. -/
theorem test_modemChange_ring :
    afterStep (next (.agent (.modemChange false false false false))
        { withU { Uart.reset with ier := 0x08 } with env := { cts := false, dsr := false, ri := true, dcd := false } })
      (fun t => (t.uart.teri, iir t.cfg t.uart, t.intr)) = some (true, 0x00, true) ∧
    afterStep (next (.agent (.modemChange false false true false)) State.reset) (·.uart.teri) = some false := by decide

/-! ### Derived quantities -/

/-- V-L11. -/
theorem test_fmt :
    fmtOf 0x03 = ⟨8, .one, .none⟩ ∧ fmtOf 0x04 = ⟨5, .onePointFive, .none⟩ ∧ fmtOf 0x07 = ⟨8, .two, .none⟩ ∧
    fmtOf 0x1B = ⟨8, .one, .even⟩ ∧ fmtOf 0x0B = ⟨8, .one, .odd⟩ ∧ fmtOf 0x3B = ⟨8, .one, .space⟩ ∧
    fmtOf 0x2B = ⟨8, .one, .mark⟩ := by decide

/-- V-N2, V-N3, V-N5 to V-N8. -/
theorem test_iir :
    let p := Params.reference
    iir p { Uart.reset with ier := 0x01, rxq := [plain 0x41] } = 0x04 ∧
    iir p { Uart.reset with ier := 0x05, rxq := [plain 0x41], oe := true } = 0x06 ∧
    iir p { Uart.reset with ier := 0x08, dcts := true } = 0x00 ∧
    iir p { Uart.reset with oe := true, dcts := true, rxq := [plain 0x41] } = 0x01 ∧
    iir p { Uart.reset with fifoe := true, rt := 1, ier := 1, rxq := List.replicate 3 (plain 0) } = 0xC1 ∧
    iir p { Uart.reset with fifoe := true, rt := 1, ier := 1, rxq := List.replicate 4 (plain 0) } = 0xC4 := by decide

/-- V-A1 to V-A9. -/
theorem test_compute_divisor :
    computeDivisor 24000000 1500000 = 1 ∧ computeDivisor 24000000 115200 = 13 ∧ computeDivisor 24000000 9600 = 156 ∧
    computeDivisor 24000000 1200 = 1250 ∧ computeDivisor 1843200 115200 = 1 ∧ computeDivisor 24 1 = 2 ∧
    computeDivisor 8 1 = 1 ∧ computeDivisor 7 1 = 0 ∧ computeDivisor 1048576 1 = 65536 := by decide

/-- V-A11 to V-A16. -/
theorem test_bit_range_mask :
    bitRangeMask 31 0 = 0xFFFFFFFF ∧ bitRangeMask 0 0 = 1 ∧ bitRangeMask 31 31 = 0x80000000 ∧ bitRangeMask 3 0 = 0x0F ∧
    bitRangeMask 7 4 = 0xF0 ∧ bitRangeMask 15 8 = 0xFF00 := by decide

/-- X5. -/
theorem test_clear_then_set_value :
    clearThenSetValue 0b0110 0b0010 = 0x00060002 ∧ wmUpdate 0x0004 0x00060002 = 0x0002 := by decide

/-! ### Host statements -/

/-- X4: the boundary value 0x1FF. -/
theorem test_receive_byte :
    RetArg.eval [(varU, .u32 0x1FF)] (.someByte (.and (.var varU) (.lit 0xFF))) = .ok (some (.opt (some 0xFF))) := by decide

/-- V-A17, V-A18, V-A10, V-G6, V-I5: the argument checks; the record names the call. -/
theorem test_argument_checks :
    let refused := fun p => stepRefusal (running (.call none p))
    let with_ := fun p e => some (Refusal.argOutOfRange (.call none p) e)
    let mask := fun h l => Proc.bitRangeMask (.lit h) (.lit l)
    let pin := Proc.gpioSetOutput (.lit 0xFD8A0000) (.lit 32) true
    let cts := Proc.clearThenSet (.lit 0xFE66000C) (.lit 0x80) (.lit 0)
    refused (mask 3 4) = with_ (mask 3 4) (.bitRange 3 4) ∧
    refused (mask 32 0) = with_ (mask 32 0) (.bitRange 32 0) ∧
    refused (.computeDivisor (.lit 24000000) (.lit 0)) = with_ (.computeDivisor (.lit 24000000) (.lit 0)) .baudZero ∧
    refused pin = with_ pin (.pin 32) ∧
    refused cts = with_ cts (.uartTarget 0xFE66000C) := by decide

/-- R900 code 4: a `bank_base` in no block, of either procedure; the pin is checked before it. -/
theorem test_bank_base_in_no_block :
    let refused := fun p => stepRefusal (running (.call none p))
    refused (.gpioClearAll (.lit 0xFEC41000)) = some (.unmappedAddress (.address 0xFEC41000)) ∧
    refused (.gpioSetOutput (.lit 0) (.lit 31) true) = some (.unmappedAddress (.address 0)) ∧
    refused (.gpioSetOutput (.lit 0) (.lit 32) true) =
      some (.argOutOfRange (.call none (.gpioSetOutput (.lit 0) (.lit 32) true)) (.pin 32)) := by decide

/-- R800 (3): with a `bank_base` that is no bank's base the writes go where the addresses above it lie, here to IOC 0x02C and
0x024, of which the model's IOC set has the first. -/
theorem test_bank_base_in_another_block :
    let p := Proc.gpioSetOutput (.lit 0xFD5F0024) (.lit 1) true
    ((p.body Params.reference []).toOption.map fun b =>
      b.map fun x => match x.stmt with
        | .wr a _ => (a.descriptor Params.reference true).toOption
        | _ => none) = some [some 0xD000002C, some 0xD0000024, none] := by decide

/-- R22 in Nat: the shift to the left and the complement are 32-bit values. -/
theorem test_nat_shl_not :
    NExpr.eval [] (.shl (.lit 0x80000001) (.lit 1)) = .ok 2 ∧ NExpr.eval [] (.shl (.lit 1) (.lit 32)) = .ok 0 ∧
    NExpr.eval [] (.not (.lit 0x80)) = .ok 0xFFFFFF7F ∧ NExpr.eval [] (.trunc (.lit 0x100000003)) = .ok 3 := by decide

/-- A result that is no number is some number in an expression, and is returned as it is. -/
theorem test_result_in_expression :
    (∃ n, NExpr.eval [(1, .timeout)] (.add (.var 1) (.lit 1)) = .ok (n + 1)) ∧
    RetArg.eval [(1, .opt (some 0x41))] (.value 1) = .ok (some (.opt (some 0x41))) := ⟨⟨_, rfl⟩, rfl⟩

/-- R803 step (h) on a divisor of 2^32 + 0x1234: the bytes are those of its low 16 bits. -/
theorem test_nat_bytes :
    NExpr.eval [(2, .nat 0x100001234)] (.and (.var 2) (.lit 0xFF)) = .ok 0x34 ∧
    NExpr.eval [(2, .nat 0x100001234)] (.and (.shr (.var 2) (.lit 8)) (.lit 0xFF)) = .ok 0x12 := by decide

/-- R315 with POLL_BOUND = 1: one read, then TIMEOUT. -/
theorem test_poll_bound :
    afterStep { running (.poll 1 (.uart 0x014) (.lit 0x01)) with cfg := { Params.reference with pollBound := some 1 } }
      (fun t => t.hosts.map fun c => (c.pc, getVar c.vars timeoutVar, getVar c.vars 1)) =
      some [(1, .u32 1, .u32 0x60)] := by decide

/-- R315, R310: a mask may be a host variable, here the very one that takes RDATA (log 31). -/
theorem test_poll_computed_mask :
    afterStep (running (.poll 1 (.uart 0x014) (.var 1))) (fun t => t.hosts.map (·.pc)) = some [1] := by decide

/-- R320, R315: a TIMEOUT that a called body sets is the caller's; the body's other variables are not. -/
theorem test_timeout_reaches_caller :
    let c := { HostCtx.start [] with
      vars := [(timeoutVar, .u32 1), (5, .nat 2)], callers := [{ body := [], pc := 1, vars := [(5, .nat 3)], dst := none }] }
    (c.doReturn none).vars = [(timeoutVar, .u32 1), (5, .nat 3)] := by decide

/-- R317: a program with a branch to a label it does not have is refused when it is loaded. -/
theorem test_load_refuses_missing_label :
    State.reset.load 0 [{ stmt := .bz 1 (.lit 1) 4 }] = .refused (.unformedProgram (some 4)) := rfl

/-- R605: what is sent between the start and the end of a break is not received. -/
theorem test_heardBy :
    heardBy false [.char 0x41 (fmtOf 3), .breakStart, .char 0x42 (fmtOf 3), .breakEnd, .char 0x43 (fmtOf 3), .breakStart,
      .char 0x44 (fmtOf 3)] = [(0x41, fmtOf 3), (0x43, fmtOf 3)] := by decide

/-- R317: a `bz` whose bits are clear goes to its label. -/
theorem test_bz_taken :
    afterStep { running .halt with hosts := [HostCtx.start [{ label := some 4, stmt := .bz 1 (.lit 0x1) 4 }]] }
      (fun t => t.hosts.map (·.pc)) = some [0] := by decide

/-- R311: running past the last statement is `halt`. -/
theorem test_run_past_end :
    afterStep (next (.agent (.host 0)) State.reset) (fun t => t.hosts.map (·.halted)) = some [true] := by decide

/-! ### Witnesses: a concrete state and operands that meet the hypotheses of each statement, clause by clause -/

/-- A state whose host 1 is about to call `p`, with its next `n` steps chosen. -/
def calling (p : Proc) (n : Nat) : State :=
  { State.reset with
    hosts := [HostCtx.start [], HostCtx.start [{ stmt := .call (some 7) p }]]
    inputs := List.replicate n (.agent (.host 1)) ++ [.hwReset] }

/-- The context of that host. -/
def caller (p : Proc) : HostCtx := HostCtx.start [{ stmt := .call (some 7) p }]

/-- The next `n` steps of `calling p n` are host 1's. -/
abbrev alone (p : Proc) (n : Nat) : Prop := (calling p n).RunsAlone 1 (caller p) (.call (some 7) p) n [.hwReset]

theorem calling_alone (p : Proc) (n : Nat) : alone p n :=
  ⟨rfl, rfl, rfl, none, rfl⟩

/-- The context of a host with one statement. -/
def only (st : Stmt) : HostCtx := HostCtx.start [{ stmt := st }]

/-- Host 0 of `running st` runs `st`. -/
abbrev ready (st : Stmt) : Prop := (running st).Runs 0 (only st) st

theorem running_runs (st : Stmt) : ready st := ⟨rfl, rfl, rfl, none, rfl⟩

theorem reset_inv : State.reset.Inv where
  params := by decide
  uart := by refine ⟨?_, ?_, ?_, ?_, ?_, ?_, ?_⟩ <;> decide
  banks := rfl
  iocWf := rfl
  iocSet := by decide

theorem witness_EncodedTransactionDecodesBack :
    Instr.wf Params.reference false (.wrDrH 3 0xFFFF0000) = true ∧ Instr.wf Params.reference true (.rdIoc 0x02C) = true := by
  decide

theorem witness_DecodedWordsAreTheEncoding :
    decode Params.reference false 0xB0300004 0xFFFF0000 = .ok (.wrDrH 3 0xFFFF0000) ∧
    decode Params.reference true 0x5000002C 0 = .ok (.rdIoc 0x02C) := by decide

/-- Offsets on both sides of 0x100, the first and the last bank, an IOC offset that is a register and one that is not. -/
theorem witness_TransactionMap :
    (0x024 : BitVec 12).toNat % 4 = 0 ∧
    (0x024 : BitVec 12).toNat ∉ [0x000, 0x004, 0x008, 0x00C, 0x010, 0x014, 0x018, 0x01C, 0x020, 0x07C, 0x088, 0x0C0] ∧
    (0x100 : BitVec 12).toNat % 4 = 0 ∧
    (0x100 : BitVec 12).toNat ∉ [0x000, 0x004, 0x008, 0x00C, 0x010, 0x014, 0x018, 0x01C, 0x020, 0x07C, 0x088, 0x0C0] ∧
    (3 : BitVec 7).toNat < Params.reference.gpioBanks ∧ (0x010 : BitVec 12).toNat ∉ [0x0, 0x4, 0x8, 0xC] ∧
    (0x02C : BitVec 12).toNat ∈ Params.reference.iocRegSet ∧ (0xFFC : BitVec 12).toNat ∉ Params.reference.iocRegSet := by
  decide

theorem witness_DlabChangesOnlyBankedOffsets : State.reset.cfg.busyGuard = false := rfl

theorem witness_AdmittedTransactionsComplete :
    Instr.wf State.reset.cfg State.reset.uart.dlab (.wrMcr 0x1F) = true ∧ State.reset.gpio.length = State.reset.cfg.gpioBanks ∧
    (∀ v, Instr.wrMcr 0x1F ≠ .wrLsr v ∧ Instr.wrMcr 0x1F ≠ .wrMsr v ∧ Instr.wrMcr 0x1F ≠ .wrUsr v) ∧
    ∀ v, Instr.wrMcr 0x1F = .wrMcr v → v.getLsbD 5 = false ∧ v.getLsbD 6 = false := by
  refine ⟨rfl, rfl, fun v => ⟨nofun, nofun, nofun⟩, fun v h => ?_⟩
  cases h
  decide

theorem witness_RbrReadPopsOldestCharacter :
    (withU { Uart.reset with rxq := [plain 0x41] }).uart.rxq = plain 0x41 :: [] ∧ State.reset.uart.rxq = [] := ⟨rfl, rfl⟩

theorem witness_StoredRegisterReads : (withU { Uart.reset with lcr := 0x80 }).uart.dlab = true := by decide

theorem witness_McrWriteSetsDeltas :
    (0x20 : Word).getLsbD 5 = true ∧ (0x40 : Word).getLsbD 6 = true ∧
    (0x1F : Word).getLsbD 5 = false ∧ (0x1F : Word).getLsbD 6 = false := by decide

theorem witness_MsrReadClearsDeltas :
    State.reset.uart.mcr.getLsbD 4 = false ∧ (withU { Uart.reset with mcr := 0x10 }).uart.mcr.getLsbD 4 = true := by decide

theorem witness_ScratchAndDividerFractionWrites :
    (withP { Params.reference with dlfSize := 8 }).cfg.dlfSize ≤ 8 ∧ State.reset.cfg.dlfSize = 0 := by decide

theorem witness_UsrReadClearsBusy :
    (withU { Uart.reset with tsrBusy := true }).uart.tsrBusy = true ∧ (withU { Uart.reset with txq := [0] }).uart.txq ≠ [] := by
  decide

theorem witness_SrrWriteEmptiesQueues : (0x6 : Word).getLsbD 0 = false := by decide

theorem witness_UartResetState : (0x1 : Word).getLsbD 0 = true ∧ (next .hwReset State.reset).nextEvent = .hwReset := by
  decide

theorem witness_GpioReads :
    State.reset.gpio[(3 : BitVec 7).toNat]? = some { drL := 0, drH := 0, ddrL := 0, ddrH := 0 } ∧
    State.reset.gpio[(4 : BitVec 7).toNat]? = none := by decide

theorem witness_GpioWrites :
    (withBank bankA).gpio[(0 : BitVec 7).toNat]? = some bankA ∧ (withBank bankA).gpio[(127 : BitVec 7).toNat]? = none :=
  ⟨rfl, rfl⟩

theorem witness_IocTransactions :
    (0x02C : BitVec 12).toNat ∈ (withIoc 0x1234).cfg.iocRegSet ∧ sparseWf 0 (withIoc 0x1234).ioc = true ∧
    (0x030 : BitVec 12).toNat ∉ (withIoc 0x1234).cfg.iocRegSet := by decide

/-- A state that meets the first clause's premises, and one for each way of the second. -/
theorem witness_TxLoadFillsShiftRegister :
    let ev := next (.agent .txLoad)
    let s := ev (withU { Uart.reset with dll := 1, txq := [0x48] })
    (s.nextEvent = .agent .txLoad ∧ s.uart.txq = 0x48 :: [] ∧ s.uart.tsrBusy = false ∧ s.uart.div ≠ 0) ∧
    (ev State.reset).uart.txq = [] ∧
    (ev (withU { Uart.reset with tsrBusy := true, dll := 1, txq := [1] })).uart.tsrBusy = true ∧
    (ev (withU { Uart.reset with txq := [1] })).uart.div = 0 := by decide

theorem witness_TxDoneDeliversCharacter :
    let s := fun m : BitVec 7 => next (.agent .txDone) (withU { Uart.reset with dll := 1, tsrBusy := true, mcr := m })
    (∀ m, (s m).nextEvent = .agent .txDone) ∧ (s 0).uart.tsrBusy = true ∧ (s 0).uart.div ≠ 0 ∧
    (s 0).uart.mcr.getLsbD 4 = false ∧ (s 0x10).uart.tsrBusy = true ∧ (s 0x10).uart.div ≠ 0 ∧
    (s 0x10).uart.mcr.getLsbD 4 = true ∧ (next (.agent .txDone) State.reset).uart.tsrBusy = false ∧
    (next (.agent .txDone) (withU { Uart.reset with tsrBusy := true })).uart.div = 0 :=
  ⟨fun _ => rfl, by decide, by decide, by decide, by decide, by decide, by decide, by decide, by decide⟩

/-- Each of the queue's three fillings, in both modes, with the receiver enabled; and a receiver that is not. -/
theorem witness_RxFrameQueuesCharacter :
    let s := fun (fifo : Bool) (n : Nat) =>
      next (.agent (.rxFrame 0x42 true false false))
        (withU { Uart.reset with fifoe := fifo, lcr := 0x08, dll := 1, rxq := List.replicate n (plain 0x41) })
    (∀ f n, (s f n).nextEvent = .agent (.rxFrame 0x42 true false false)) ∧
    (s false 0).uart.mcr.getLsbD 4 = false ∧ (s false 0).uart.div ≠ 0 ∧ (s false 0).uart.lcr.getLsbD 3 = true ∧
    (s false 0).uart.rxq = [] ∧
    ((s true 15).uart.rxq ≠ [] ∧ (s true 15).uart.rxq.length < (s true 15).cfg.fifoDepth) ∧
    ((s true 16).cfg.fifoDepth ≤ (s true 16).uart.rxq.length ∧ (s true 16).uart.fifoe = true) ∧
    (1 ≤ (s false 1).uart.rxq.length ∧ (s false 1).uart.fifoe = false) ∧
    (next (.agent (.rxFrame 0 false false false)) State.reset).uart.div = 0 :=
  ⟨fun _ _ => rfl, by decide, by decide, by decide, by decide, by decide, by decide, by decide, by decide⟩

theorem witness_TimeoutAndModemSteps :
    let s := next (.agent .rxTimeout) (withU { Uart.reset with fifoe := true, rxq := [plain 0] })
    let m := next (.agent (.modemChange true false true false)) State.reset
    (s.nextEvent = .agent .rxTimeout ∧ s.uart.fifoe = true ∧ s.uart.rxq ≠ [] ∧ s.uart.timeoutIp = false) ∧
    State.reset.uart.fifoe = false ∧ m.nextEvent = .agent (.modemChange true false true false) := by decide

theorem witness_PolledDriverInterrupts :
    State.reset.Inv ∧ State.reset.cfg.busyGuard = false ∧ State.reset.uart.ier = 0x00 ∧
    (withU { Uart.reset with ier := 0x01, rxq := [plain 0] }).Inv ∧
    (withU { Uart.reset with ier := 0x01, rxq := [plain 0] }).uart.ier = 0x01 ∧
    (withU { Uart.reset with ier := 0x01, rxq := [plain 0] }).uart.fifoe = false := by
  refine ⟨reset_inv, rfl, rfl, ⟨by decide, ?_, rfl, rfl, by decide⟩, rfl, rfl⟩
  refine ⟨?_, ?_, ?_, ?_, ?_, ?_, ?_⟩ <;> decide

theorem witness_PolledDriverInterrupts_step :
    afterStep (next (.agent .txLoad) State.reset) (fun t => (t.uart.ier, t.hlog)) = some (0x00, []) := by decide

theorem witness_StepRunsDecodedTransaction :
    ready (.txn 0x90000010 0x13) ∧
    decode (running .halt).cfg (running .halt).uart.dlab 0x90000010 0x13 = .ok (.wrMcr 0x13) ∧
    decode (running .halt).cfg (running .halt).uart.dlab 0x90000016 0 = .error (.misaligned 0x90000016) ∧
    State.reset.hosts ≠ [] := ⟨running_runs _, by decide, by decide, by decide⟩

theorem witness_ReadAndWriteStatements :
    ready (.rd 1 (.absolute 0xFE660014)) ∧
    (AddrOp.absolute 0xFE660014).descriptor Params.reference false = .ok 0x10000014 ∧
    (AddrOp.absolute 0xFE661000).descriptor Params.reference false = .error (.unmappedAddress (.address 0xFE661000)) ∧
    ready (.wr (.ioc 0x02C) (.div (.lit 1) (.lit 0))) ∧
    UExpr.eval [] (.div (.lit 1) (.lit 0)) = .error (.divisionByZero 1) ∧ UExpr.eval [] (.lit 5) = .ok 5 ∧
    (AddrOp.ioc 0x02C).descriptor Params.reference true = .ok 0xD000002C ∧
    (AddrOp.absolute 0).descriptor Params.reference true = .error (.unmappedAddress (.address 0)) ∧
    target Params.reference 0xFE660014 = some (.uart, 0x014) ∧ target Params.reference 0xFEC4000C = some (.gpio 3, 0x00C) ∧
    target Params.reference 0xFD5F002C = some (.ioc, 0x02C) ∧ target Params.reference 0 = none :=
  ⟨running_runs _, by decide, by decide, running_runs _, by decide, by decide, by decide, by decide, by decide, by decide,
    by decide, by decide⟩

/-- A poll that is answered, one whose address or whose read is refused, and a mask that has no value. -/
theorem witness_PollReadsUntilBitSet :
    let bad := UExpr.div (.lit 1) (.lit 0)
    ready (.poll 1 (.uart 0x014) (.lit 0x40)) ∧
    (AddrOp.uart 0x014).descriptor Params.reference false = .ok 0x10000014 ∧
    after 0x10000014 0 (running .halt) (·.rdata) = some 0x60 ∧
    sparseWf (Val.u32 0) (only .halt).vars = true ∧ UExpr.eval (setVar 1 (.u32 0x60) []) (.lit 0x40) = .ok 0x40 ∧
    ready (.poll 1 (.absolute 0) (.lit 0x40)) ∧
    (AddrOp.absolute 0).descriptor Params.reference false = .error (.unmappedAddress (.address 0)) ∧
    ready (.poll 1 (.uart 0x100) (.lit 0x40)) ∧
    (AddrOp.uart 0x100).descriptor Params.reference false = .ok 0x10000100 ∧
    refusal 0x10000100 0 (running .halt) = some (.unmappedAddress (.descriptor 0x10000100)) ∧
    ready (.poll 1 (.uart 0x014) bad) ∧ UExpr.eval (setVar 1 (.u32 0x60) []) bad = .error (.divisionByZero 1) :=
  ⟨running_runs _, by decide, by decide, rfl, rfl, running_runs _, by decide, running_runs _, by decide, by decide,
    running_runs _, by decide⟩

theorem witness_LetAndBranchStatements :
    let bad := UExpr.mod (.lit 1) (.lit 0)
    ready (.letU 1 (.lit 5)) ∧ ready (.letN 1 (.lit 5)) ∧
    ready (.bz 1 (.lit 0x1) 0) ∧ ready (.bnz 1 (.lit 0x1) 0) ∧ ready (.bz 1 bad 0) ∧ ready (.bnz 1 bad 0) ∧
    ready (.jmp 0) ∧ UExpr.eval [] (.lit 5) = .ok 5 ∧
    UExpr.eval [] bad = .error (.divisionByZero 1) ∧ NExpr.eval [] (.lit 5) = .ok 5 ∧
    NExpr.eval [] (.div (.lit 1) (.lit 0)) = .error (.divisionByZero 1) ∧
    UExpr.eval [(1, .u32 3)] (.var 1) = .ok 3 ∧
    getVar [(1, .u32 3)] 1 = .u32 3 ∧ getVar [(1, .nat 3)] 1 = .nat 3 ∧
    (3 : Word) &&& 0x1 ≠ 0 ∧ (3 : Word) &&& 0x4 = 0 ∧ labelIndex 0 [{ label := some 0, stmt := .jmp 0 }] = some 0 ∧
    labelIndex 0 [{ stmt := .jmp 0 }] = none ∧
    formed [{ label := some 0, stmt := .jmp 0 }] = true ∧ 0 ∈ (Stmt.jmp 0).targets :=
  ⟨running_runs _, running_runs _, running_runs _, running_runs _, running_runs _, running_runs _, running_runs _,
    by decide, by decide, by decide, by decide, by decide, by decide, by decide, by decide, by decide, by decide, by decide,
    by decide, by decide⟩

/-- A host in a called body, about to return. -/
def returning : State :=
  { State.reset with
    hosts := [{ HostCtx.start [{ stmt := .ret (.word (.lit 5)) }] with
      callers := [{ body := [{ stmt := .halt }], pc := 1, vars := [], dst := some 3 }] }]
    inputs := [.agent (.host 0)] }

theorem witness_ReturnAndHaltStatements :
    ready (.ret (.word (.lit 5))) ∧
    RetArg.eval [] (.word (.lit 5)) = .ok (some (.u32 5)) ∧
    (∃ c k rest, returning.Runs 0 c (.ret (.word (.lit 5))) ∧ c.callers = k :: rest ∧ k.dst = some 3) ∧
    ready (.ret (.word (.div (.lit 1) (.lit 0)))) ∧
    RetArg.eval [] (.word (.div (.lit 1) (.lit 0))) = .error (.divisionByZero 1) ∧
    ready .halt ∧
    (∃ c, (next (.agent (.host 0)) State.reset).hosts[0]? = some c ∧ c.halted = false ∧ c.body[c.pc]? = none) ∧
    (∃ c, ({ running .halt with hosts := [{ HostCtx.start [] with halted := true }] } : State).hosts[0]? = some c ∧
      c.halted = true) ∧
    sparseWf (Val.u32 0) [(timeoutVar, Val.u32 1)] = true ∧ 1 ≠ timeoutVar :=
  ⟨running_runs _, rfl, ⟨_, _, _, ⟨rfl, rfl, rfl, none, rfl⟩, rfl, rfl⟩, running_runs _, rfl, running_runs _,
    ⟨_, rfl, rfl, rfl⟩, ⟨_, rfl, rfl⟩, rfl, by decide⟩

/-- Calls that are entered and refused in both ways; an address that is in no block, or in the UART's, and 0x02C below one. -/
theorem witness_CallChecksArguments :
    let p := Params.reference
    ready (.call none .receive) ∧ Proc.receive.body p [] = .ok receiveBody ∧
    (Proc.bitRangeMask (.lit 3) (.lit 4)).body p [] = .error (.arg (.bitRange 3 4)) ∧
    (Proc.iomuxUart7M2 (.lit 0)).body p [] = .error (.unmapped 0x02C) ∧
    NExpr.eval [] (.lit 32) = .ok 32 ∧ UExpr.eval [] (.lit 5) = .ok 5 ∧ target p 0 = none ∧ target p (0 + 0x02C) = none ∧
    target p 0xFE660FFF = some (.uart, 0xFFF) ∧ target p (0xFE660FD3 + 0x02C) = some (.uart, 0xFFF) ∧
    NExpr.eval [] (.lit 31) = .ok 31 ∧ 0xFEC40004 ∉ p.gpioBase ∧ target p 0xFEC40004 ≠ none :=
  ⟨running_runs _, rfl, by decide, by decide, rfl, rfl, by decide, by decide, by decide, by decide, rfl, by decide,
    by decide⟩

/-- The first and the last address of a block, and the two addresses outside it. -/
theorem witness_AbsoluteAddressTargets :
    Params.reference.wf = true ∧ Params.reference.gpioBase[(3 : BitVec 7).toNat]? = some 0xFEC40000 ∧
    target Params.reference (0xFEC40000 + 0xFFF) = some (.gpio 3, 0xFFF) ∧
    (∀ b ∈ Params.reference.bases, ¬(b ≤ 0xFEC41000 ∧ 0xFEC41000 < b + 0x1000)) ∧
    ∀ b ∈ Params.reference.bases, ¬(b ≤ 0xFD5EFFFF ∧ 0xFD5EFFFF < b + 0x1000) := by decide

/-- A step from a state with the invariant; the reset state's programs are formed and its variables in canonical form. -/
theorem witness_EveryStepKeepsInvariant :
    State.reset.Inv ∧ State.reset.ProgramsFormed ∧ State.reset.VariablesWf ∧
    ∃ t, step (State.reset.withFetchWord 64 0x00000048_90000000) = .next t ∧ t.uart.txq = [0x48] := by
  refine ⟨reset_inv, ?_, ?_, _, rfl, rfl⟩ <;> intro c hc <;> obtain rfl := List.mem_singleton.mp hc <;> exact ⟨rfl, nofun⟩

theorem witness_RecordsOnlyGrow :
    ∃ t, step (State.reset.withFetchWord 64 0x00000040_9000000C) = .next t ∧ t.hlog.length = 1 ∧ t.txlog = [.breakStart] :=
  ⟨_, rfl, rfl, by decide⟩

/-- PassiveStateChangesOnlyByItsAgent: a step that changes each of the four. -/
theorem witness_PassiveStateChangesOnlyByItsAgent :
    (∃ t, step (State.reset.withFetchWord 64 0x00200020_B0000008) = .next t ∧ t.gpio ≠ State.reset.gpio) ∧
    (∃ t, step (State.reset.withFetchWord 64 0x00FF00AA_D000002C) = .next t ∧ t.ioc ≠ State.reset.ioc) ∧
    (∃ t, step (next (.agent (.modemChange true false false false)) State.reset) = .next t ∧ t.env ≠ State.reset.env) ∧
    ∃ t, step (running .halt) = .next t ∧ t.hosts[0]? ≠ (running .halt).hosts[0]? :=
  ⟨⟨_, rfl, by decide⟩, ⟨_, rfl, by decide⟩, ⟨_, rfl, by decide⟩, ⟨_, rfl, by decide⟩⟩

theorem witness_SideEffectsStayInTheirBlock :
    (∃ t, exec .rdLcr State.reset = .next t) ∧ Instr.wdata .rdLcr = none ∧
    Instr.rdLcr ∉ [Instr.rdRbr, .rdIir, .rdLsr, .rdMsr, .rdUsr] ∧
    (∃ t, exec (.wrDdrL 0 0x00200020) State.reset = .next t) ∧ (Instr.wrDdrL 0 0x00200020).descriptor.getLsbD 29 = true ∧
    (∃ t, exec (.wrIoc 0x02C 0x00FF00AA) State.reset = .next t) ∧
    (Instr.wrIoc 0x02C 0x00FF00AA).descriptor.getLsbD 30 = true ∧
    (∃ t, exec (.wrLcr 0x40) State.reset = .next t) ∧ (Instr.wrLcr 0x40).descriptor.getLsbD 29 = false ∧
    (Instr.wrLcr 0x40).descriptor.getLsbD 30 = false :=
  ⟨⟨_, rfl⟩, rfl, by decide, ⟨_, rfl⟩, by decide, ⟨_, rfl⟩, by decide, ⟨_, rfl⟩, by decide, by decide⟩

theorem witness_EffectIndependentOfMaster :
    (∃ t, exec (.wrThr 0x48) State.reset = .next t) ∧ exec (.wrLsr 0) State.reset = .refused (.writeReadOnly 0x014) :=
  ⟨⟨_, rfl⟩, rfl⟩

/-- BitRangeMaskCall at both ends of the range, and just outside it. -/
theorem witness_BitRangeMaskCall :
    alone (.bitRangeMask (.lit 31) (.lit 0)) 3 ∧ NExpr.eval [] (.lit 31) = .ok 31 ∧ 0 ≤ 31 ∧
    alone (.bitRangeMask (.lit 32) (.lit 0)) 3 ∧ NExpr.eval [] (.lit 32) = .ok 32 ∧ ¬(0 ≤ 32 ∧ 32 ≤ 31) :=
  ⟨calling_alone _ 3, rfl, by decide, calling_alone _ 3, rfl, by decide⟩

theorem witness_ComputeDivisorCall :
    alone (.computeDivisor (.lit 24000000) (.lit 1500000)) 3 ∧
    NExpr.eval [] (.lit 24000000) = .ok 24000000 ∧ NExpr.eval [] (.lit 1500000) = .ok 1500000 ∧ 0 < 1500000 :=
  ⟨calling_alone _ 3, rfl, rfl, by decide⟩

/-- `calling p n` under other parameters. -/
def callingP (p : Proc) (n : Nat) (bound : Option Nat) (guard : Bool) : State :=
  { calling p n with cfg := { Params.reference with pollBound := bound, busyGuard := guard } }

/-- Without and with a POLL_BOUND, without and with a busy guard. -/
theorem witness_InitializeProgramsUart :
    let p := Proc.initUart (.lit 24000000) (.lit 1500000)
    (∀ n bound guard, (callingP p n bound guard).RunsAlone 1 (caller p) (.call (some 7) p) n [.hwReset] ∧
      (callingP p n bound guard).cfg.pollBound = bound ∧ (callingP p n bound guard).cfg.busyGuard = guard ∧
      (callingP p n bound guard).transmitterEmpty) ∧
    NExpr.eval (caller p).vars (.lit 24000000) = .ok 24000000 ∧ NExpr.eval (caller p).vars (.lit 1500000) = .ok 1500000 :=
  ⟨fun _ _ _ => ⟨⟨rfl, rfl, rfl, none, rfl⟩, rfl, rfl, rfl, rfl⟩, rfl, rfl⟩

/-- Without and with a POLL_BOUND, with DLAB 0 and 1. -/
theorem witness_TransmitQueuesItsByte :
    let p := Proc.transmit (.lit 0x48)
    let s := fun n bound lcr => { callingP p n bound true with uart := { Uart.reset with lcr := lcr } }
    (∀ n bound lcr, (s n bound lcr).RunsAlone 1 (caller p) (.call (some 7) p) n [.hwReset] ∧
      (s n bound lcr).cfg.pollBound = bound ∧ (s n bound lcr).transmitterEmpty) ∧
    UExpr.eval (caller p).vars (.lit 0x48) = .ok 0x48 ∧
    (s 4 none 0x03).cfg.wf = true ∧ (s 5 (some 1) 0x03).cfg.wf = true ∧
    (s 4 none 0x03).uart.dlab = false ∧ (s 4 none 0x83).uart.dlab = true :=
  ⟨fun _ _ _ => ⟨⟨rfl, rfl, rfl, none, rfl⟩, rfl, rfl, rfl⟩, rfl, by decide, by decide, by decide, by decide⟩

/-- BoundedPollTimesOut with POLL_BOUND = 1, the least there is, for either procedure. -/
theorem witness_BoundedPollTimesOut :
    let s := fun p => { calling p 4 with
      cfg := { Params.reference with pollBound := some 1 }, uart := { Uart.reset with txq := [0x41] } }
    (∀ p, (s p).RunsAlone 1 (caller p) (.call (some 7) p) (1 + 3) [.hwReset] ∧ (s p).cfg.pollBound = some 1 ∧
      ¬(s p).transmitterEmpty) ∧
    (∃ e w, Proc.transmit (.lit 0x42) = .transmit e ∧ UExpr.eval [] e = .ok w) ∧
    ∃ a b src baud, Proc.initUart (.lit 24) (.lit 1) = .initUart a b ∧ NExpr.eval [] a = .ok src ∧ NExpr.eval [] b = .ok baud ∧
      0 < baud :=
  ⟨fun _ => ⟨⟨rfl, rfl, rfl, none, rfl⟩, rfl, by simp [State.transmitterEmpty]⟩, ⟨_, _, rfl, rfl⟩,
    ⟨_, _, _, _, rfl, rfl, rfl, by decide⟩⟩

theorem witness_ReceiveReturnsOldestCharacter :
    let s := fun (u : Uart) n => { calling .receive n with uart := u }
    let u := { Uart.reset with rxq := [plain 0x41] }
    (∀ u n, (s u n).RunsAlone 1 (caller .receive) (.call (some 7) .receive) n [.hwReset]) ∧
    (s Uart.reset 4).uart.rxq = [] ∧ (s u 5).uart.rxq = plain 0x41 :: [] ∧ (s u 5).uart.dlab = false ∧
    (s { u with lcr := 0x83 } 5).uart.rxq ≠ [] ∧ (s { u with lcr := 0x83 } 5).uart.dlab = true :=
  ⟨fun _ _ => ⟨rfl, rfl, rfl, none, rfl⟩, rfl, rfl, by decide, by decide, by decide⟩

theorem witness_SetInterruptEnableWritesIer : alone (.setInterruptEnable true) 3 := calling_alone _ 3

theorem calling_inv (p : Proc) (n : Nat) : (calling p n).Inv :=
  ⟨reset_inv.params, reset_inv.uart, reset_inv.banks, reset_inv.iocWf, reset_inv.iocSet⟩

/-- An IOC register, a GPIO register, and an offset of either that is misaligned or has no register. -/
theorem witness_ClearThenSetChangesMaskedBits :
    let p := fun addr => Proc.clearThenSet (.lit addr) (.lit 0x0F) (.lit 0x05)
    let q := Params.reference
    (∀ addr, alone (p addr) 4 ∧ (calling (p addr) 4).Inv ∧ NExpr.eval (caller (p addr)).vars (.lit addr) = .ok addr) ∧
    UExpr.eval [] (.lit 0x0F) = .ok 0x0F ∧ UExpr.eval [] (.lit 0x05) = .ok 0x05 ∧
    0xFD5F002C = q.iocBase + (0x02C : BitVec 12).toNat ∧ (0x02C : BitVec 12).toNat ∈ q.iocRegSet ∧
    q.gpioBase[(3 : BitVec 7).toNat]? = some 0xFEC40000 ∧
    State.reset.gpio[(3 : BitVec 7).toNat]? = some { drL := 0, drH := 0, ddrL := 0, ddrH := 0 } ∧
    0xFEC4000C = 0xFEC40000 + (0x00C : BitVec 12).toNat ∧ (0x00C : BitVec 12).toNat ∈ [0x0, 0x4, 0x8, 0xC] ∧
    target q 0xFD5F002D = some (.ioc, 0x02D) ∧ (0x02D : BitVec 12).toNat % 4 ≠ 0 ∧
    target q 0xFD5F0030 = some (.ioc, 0x030) ∧ (0x030 : BitVec 12).toNat ∉ q.iocRegSet ∧
    target q 0xFEC40FFF = some (.gpio 3, 0xFFF) ∧ (0xFFF : BitVec 12).toNat % 4 ≠ 0 ∧
    target q 0xFEC40010 = some (.gpio 3, 0x010) ∧ (0x010 : BitVec 12).toNat ∉ [0x0, 0x4, 0x8, 0xC] :=
  ⟨fun _ => ⟨calling_alone _ 4, calling_inv _ 4, rfl⟩, rfl, rfl, by decide, by decide, by decide, by decide, by decide,
    by decide, by decide, by decide, by decide, by decide, by decide, by decide, by decide, by decide⟩

theorem witness_IomuxRoutesBothSignals :
    let p := Proc.iomuxUart7M2 (.lit 0xFD5F0000)
    let r := Proc.pinMuxRoute (.lit 0xFD5F0000) (.lit 0x1A) (.lit 0x0F) (.lit 0) (.lit 10) (.lit 0xF0) (.lit 32)
    (calling p 16).Inv ∧ (calling r 8).Inv ∧ NExpr.eval (caller p).vars (.lit 0xFD5F0000) = .ok (calling p 16).cfg.iocBase ∧
    alone r 8 ∧ (∀ w, UExpr.eval (caller r).vars (.lit w) = .ok w) ∧ alone p 16 :=
  ⟨calling_inv _ 16, calling_inv _ 8, rfl, calling_alone _ 8, fun _ => rfl, calling_alone _ 16⟩

/-- GpioProceduresDrivePins on both sides of the halves' boundary and at the last pin. -/
theorem witness_GpioProceduresDrivePins :
    let p := fun n => Proc.gpioSetOutput (.lit 0xFEC40000) (.lit n) true
    let q := Proc.gpioClearAll (.lit 0xFEC40000)
    (∀ n, alone (p n) 4 ∧ (calling (p n) 4).Inv) ∧
    alone q 4 ∧
    NExpr.eval [] (.lit 0xFEC40000) = .ok 0xFEC40000 ∧ State.reset.cfg.gpioBase[(3 : BitVec 7).toNat]? = some 0xFEC40000 ∧
    State.reset.gpio[(3 : BitVec 7).toNat]? = some { drL := 0, drH := 0, ddrL := 0, ddrH := 0 } ∧
    NExpr.eval [] (.lit 15) = .ok 15 ∧ NExpr.eval [] (.lit 16) = .ok 16 ∧ NExpr.eval [] (.lit 31) = .ok 31 ∧ 31 ≤ 31 :=
  ⟨fun _ => ⟨calling_alone _ 4, calling_inv _ 4⟩, calling_alone _ 4, rfl, by decide, by decide, rfl, rfl, rfl, by decide⟩

/-- Two characters queued, DIV = 1, and the four steps that send them chosen. -/
theorem witness_QueuedCharactersReachTheLine :
    let s := { withU { Uart.reset with dll := 1, txq := [0x48, 0x69] } with
      inputs := [.agent .txLoad, .agent .txDone, .agent .txLoad, .agent .txDone, .hwReset] }
    s.uart.txq = [0x48, 0x69] ∧ s.uart.tsrBusy = false ∧ s.uart.div ≠ 0 ∧ s.uart.mcr.getLsbD 4 = false ∧
    s.inputs = (List.replicate [0x48, 0x69].length [Event.agent .txLoad, .agent .txDone]).flatten ++ [.hwReset] := by decide

theorem witness_ZeroDivisorKeepsTransmitterBusy :
    let s := next (.agent .txLoad) (withU { Uart.reset with txq := [0x41] })
    s.uart.div = 0 ∧ ¬s.transmitterEmpty ∧ ∃ t, step s = .next t ∧ leavesTransmitter s t := by
  refine ⟨by decide, by simp [State.transmitterEmpty, next, withU], _, rfl, by decide, fun x hx => ?_⟩
  exact absurd hx (by simp [next, withU, State.reset, State.taken, deviceStep, Uart.txLoadEnabled, Uart.div, Uart.reset])

theorem witness_OutputLevels : UartSignal.tx ≠ Params.reference.pinmuxARole ∧ 15 < 16 := by decide

/-! #### A fair run for TransmitterEventuallyEmpty: no host, one character queued, its two steps chosen, then any schedule -/

/-- The run from `s`. -/
def runFrom (s : State) : Nat → State
  | 0 => s
  | n + 1 =>
    match step (runFrom s n) with
    | .next t => t
    | .fault r => nomatch r
    | .refused _ => runFrom s n

def oneCharacter : State :=
  { withU { Uart.reset with dll := 1, txq := [0x41] } with
    hosts := [], inputs := [.agent .txLoad, .agent .txDone] }

/-- No host, DIV = 1, no reset chosen. -/
def Quiet (s : State) : Prop := s.hosts = [] ∧ s.uart.div = 1 ∧ .hwReset ∉ s.inputs

theorem deviceStep_quiet (a : AgentStep) (s : State) :
    (deviceStep a s).hosts = s.hosts ∧ (deviceStep a s).uart.div = s.uart.div ∧ (deviceStep a s).inputs = s.inputs ∧
    (deviceStep a s).hlog = s.hlog ∧ (s.transmitterEmpty → (deviceStep a s).transmitterEmpty) := by
  have push : ∀ p e (u : Uart),
      (pushRx p e u).div = u.div ∧ (pushRx p e u).txq = u.txq ∧ (pushRx p e u).tsrBusy = u.tsrBusy := by
    intro p e u
    simp only [pushRx]
    split <;> split <;> exact ⟨rfl, rfl, rfl⟩
  cases a with
  | host h => exact ⟨rfl, rfl, rfl, rfl, id⟩
  | txLoad =>
    simp only [deviceStep]
    split
    · rename_i h
      refine ⟨rfl, ?_, rfl, rfl, fun e => ?_⟩
      · simp only [txLoad, State.withUart]; split <;> rfl
      · simp [Uart.txLoadEnabled, e.1] at h
    · exact ⟨rfl, rfl, rfl, rfl, id⟩
  | txDone =>
    simp only [deviceStep]
    split
    · rename_i h
      simp only [txDone]
      split
      · exact ⟨rfl, (push ..).1, rfl, rfl, fun e => ⟨(push ..).2.1.trans e.1, rfl⟩⟩
      · exact ⟨rfl, rfl, rfl, rfl, fun e => ⟨e.1, rfl⟩⟩
    · exact ⟨rfl, rfl, rfl, rfl, id⟩
  | rxFrame d pe fe bi =>
    simp only [deviceStep]
    split
    · exact ⟨rfl, (push ..).1, rfl, rfl, fun e => ⟨(push ..).2.1.trans e.1, (push ..).2.2.trans e.2⟩⟩
    · exact ⟨rfl, rfl, rfl, rfl, id⟩
  | rxTimeout => simp only [deviceStep]; split <;> exact ⟨rfl, rfl, rfl, rfl, id⟩
  | modemChange => exact ⟨rfl, rfl, rfl, rfl, id⟩

theorem quiet_step {s : State} (q : Quiet s) :
    ∃ t, step s = .next t ∧ Quiet t ∧ t.hlog = s.hlog ∧ s.nextEvent ≠ .hwReset ∧
      (s.transmitterEmpty → t.transmitterEmpty) := by
  obtain ⟨hh, hd, hr⟩ := q
  have hq : Quiet s.taken := by
    refine ⟨by simp [hh], by simp [hd], ?_⟩
    unfold State.taken
    split
    · rename_i e rest hi
      intro hm
      exact hr (by rw [hi]; exact List.mem_cons_of_mem _ hm)
    · rename_i hi; simp [hi]
  have hne : s.nextEvent ≠ .hwReset := by
    unfold State.nextEvent
    split
    · rename_i e rest hi
      intro he
      exact hr (by rw [hi, he]; exact List.mem_cons_self)
    · exact nofun
  have hemp : s.transmitterEmpty → s.taken.transmitterEmpty := by simp [State.transmitterEmpty]
  match he : s.nextEvent with
  | .hwReset => exact absurd he hne
  | .agent a =>
    obtain ⟨h1, h2, h3, h4, h5⟩ := deviceStep_quiet a s.taken
    refine ⟨deviceStep a s.taken, ?_, ⟨h1.trans hq.1, h2.trans hq.2.1, h3 ▸ hq.2.2⟩, by simpa using h4, nofun,
      fun e => h5 (hemp e)⟩
    cases a with
    | host h => simp [step, he, runEvent, hostStep, hh, deviceStep]
    | txLoad | txDone | rxFrame | rxTimeout | modemChange => exact Laws.step_of_device he nofun

theorem oneCharacter_quiet (n : Nat) : Quiet (runFrom oneCharacter n) := by
  induction n with
  | zero => exact ⟨rfl, by decide, by decide⟩
  | succ n ih =>
    obtain ⟨t, hs, hq, -⟩ := quiet_step ih
    simpa [runFrom, hs] using hq

theorem oneCharacter_step (n : Nat) :
    let r := runFrom oneCharacter
    step (r n) = .next (r (n + 1)) ∧ (r (n + 1)).hlog = (r n).hlog ∧ (r n).nextEvent ≠ .hwReset ∧
      ((r n).transmitterEmpty → (r (n + 1)).transmitterEmpty) := by
  obtain ⟨t, hs, -, hl, hn, he⟩ := quiet_step (oneCharacter_quiet n)
  have : runFrom oneCharacter (n + 1) = t := by simp [runFrom, hs]
  simp only [this]
  exact ⟨hs, hl, hn, he⟩

theorem oneCharacter_empties (n : Nat) : (runFrom oneCharacter (n + 2)).transmitterEmpty := by
  induction n with
  | zero => exact ⟨rfl, rfl⟩
  | succ n ih => exact (oneCharacter_step (n + 2)).2.2.2 ih

theorem witness_TransmitterEventuallyEmpty :
    let r := runFrom oneCharacter
    IsFairRun r ∧ (r 0).uart.div ≠ 0 ∧ ¬(r 0).transmitterEmpty ∧ ∀ m, 0 ≤ m → leavesTransmitter (r m) (r (m + 1)) := by
  refine ⟨⟨fun n => (oneCharacter_step n).1, ?_, ?_, ?_⟩, by decide, ?_, ?_⟩
  · intro n hn
    have := hn (n + 2) (by omega)
    simp [Uart.txLoadEnabled, (oneCharacter_empties n).1] at this
  · intro n hn
    have := hn (n + 2) (by omega)
    simp [Uart.txDoneEnabled, (oneCharacter_empties n).2] at this
  · intro h n hn
    have := hn n (by omega)
    simp [hostEnabled, (oneCharacter_quiet n).1] at this
  · simp [State.transmitterEmpty, runFrom, oneCharacter, withU]
  · intro m _
    obtain ⟨-, hl, hn, -⟩ := oneCharacter_step m
    exact ⟨hn, fun x hx => absurd (hl.symm.trans hx) (by simp)⟩

end Sys2Proof.Tests
end

section
/-! PROOFS. Which step may change the GPIO and IOC registers, the modem inputs and the hosts (00_scope.md R8, 10_state.md
R126, R132). -/

namespace Sys2Proof.Proofs

open Sys2Proof.Machine Sys2Proof.Laws

/-! ### What a transaction may change outside the UART -/

/-- `t` records one write of GPIO bank `k` more than `s`, and the other banks are the same. -/
def GpioWritten (s t : State) : Prop :=
  ∃ x k, t.hlog = s.hlog ++ [x] ∧ x.dir = .write ∧ x.block = .gpio k ∧ ∀ j, j ≠ k.toNat → t.gpio[j]? = s.gpio[j]?

/-- `t` records one write of the IOC block more than `s`. -/
def IocWritten (s t : State) : Prop :=
  ∃ x, t.hlog = s.hlog ++ [x] ∧ x.dir = .write ∧ x.block = .ioc

section
variable {b : Block} {off : BitVec 12} {v : Word} {s s' t : State}

theorem readOk_keeps_gpio_ioc (h : s'.readOk b off v = .next t) (hg : s'.gpio = s.gpio) (hi : s'.ioc = s.ioc) :
    t.gpio = s.gpio ∧ t.ioc = s.ioc := by
  obtain rfl := readOk_next h
  exact ⟨hg, hi⟩

theorem writeOk_keeps_gpio_ioc (h : s'.writeOk b off v = .next t) (hg : s'.gpio = s.gpio) (hi : s'.ioc = s.ioc) :
    t.gpio = s.gpio ∧ t.ioc = s.ioc := by
  obtain rfl := writeOk_next h
  exact ⟨hg, hi⟩

end

theorem uartReset_gpio (s : State) : (uartReset s).gpio = s.gpio := by rw [uartReset_frame]

theorem uartReset_ioc (s : State) : (uartReset s).ioc = s.ioc := by rw [uartReset_frame]

/-- Of the performed transactions only a GPIO write changes a GPIO register, in its own bank, and only an IOC write an IOC
register (R8); each leaves everything else but HLOG. -/
theorem exec_gpio_ioc_cases {i : Instr} {s t : State} (h : exec i s = .next t) :
    (t.gpio = s.gpio ∧ t.ioc = s.ioc) ∨
    (∃ (k : BitVec 7) (g : GpioBank) (off : BitVec 12) (v : Word),
      t = { s with gpio := s.gpio.set k.toNat g }.logTxn (.gpio k) off .write v) ∨
    ∃ off r v, t = (s.setIocReg off r).logTxn .ioc off .write v := by
  cases i <;> simp only [exec] at h
  case rdDll | rdIer | rdDlh | rdIir | rdLcr | rdMcr | rdLsr | rdMsr | rdScr | rdLpdll | rdUsr | rdSrr | rdDlf =>
    exact .inl (readOk_keeps_gpio_ioc h rfl rfl)
  case wrThr | wrDll | wrIer | wrDlh | wrFcr | wrScr | wrLpdll | wrDlf =>
    exact .inl (writeOk_keeps_gpio_ioc h rfl rfl)
  case wrLsr | wrMsr | wrUsr => cases h
  case rdRbr =>
    unfold execRdRbr at h
    split at h <;> exact .inl (readOk_keeps_gpio_ioc h rfl rfl)
  case wrLcr v =>
    unfold execWrLcr at h
    split at h
    · exact .inl (writeOk_keeps_gpio_ioc h rfl rfl)
    · exact .inl (writeOk_keeps_gpio_ioc h (by simp) (by simp))
  case wrMcr v =>
    unfold execWrMcr at h
    split at h
    · cases h
    · exact .inl (writeOk_keeps_gpio_ioc h rfl rfl)
  case wrSrr v =>
    unfold execWrSrr at h
    split at h
    · exact .inl (writeOk_keeps_gpio_ioc h (uartReset_gpio s) (uartReset_ioc s))
    · exact .inl (writeOk_keeps_gpio_ioc h rfl rfl)
  case rdDrL | rdDrH | rdDdrL | rdDdrH =>
    obtain ⟨g, -, rfl⟩ := readGpio_next h
    exact .inl ⟨rfl, rfl⟩
  case wrDrL | wrDrH | wrDdrL | wrDdrH =>
    obtain ⟨g, -, rfl⟩ := writeGpio_next h
    exact .inr (.inl ⟨_, _, _, _, rfl⟩)
  case rdIoc off =>
    unfold execRdIoc at h
    split at h
    · exact .inl (readOk_keeps_gpio_ioc h rfl rfl)
    · cases h
  case wrIoc off v =>
    unfold execWrIoc at h
    split at h
    · exact .inr (.inr ⟨_, _, _, writeOk_next h⟩)
    · cases h

theorem exec_gpio {i : Instr} {s t : State} (h : exec i s = .next t) : t.gpio = s.gpio ∨ GpioWritten s t := by
  rcases exec_gpio_ioc_cases h with ⟨hg, -⟩ | ⟨k, g, off, v, rfl⟩ | ⟨off, r, v, rfl⟩
  · exact .inl hg
  · exact .inr ⟨_, k, rfl, rfl, rfl, fun j hj => List.getElem?_set_ne (Ne.symm hj)⟩
  · exact .inl rfl

theorem exec_ioc {i : Instr} {s t : State} (h : exec i s = .next t) : t.ioc = s.ioc ∨ IocWritten s t := by
  rcases exec_gpio_ioc_cases h with ⟨-, hi⟩ | ⟨k, g, off, v, rfl⟩ | ⟨off, r, v, rfl⟩
  · exact .inl hi
  · exact .inl rfl
  · exact .inr ⟨_, rfl, rfl, rfl⟩

/-! ### What a host's step may change -/

section
variable {h : Nat} {s t : State}

theorem hostStep_gpio (k : hostStep h s = .next t) : t.gpio = s.gpio ∨ GpioWritten s t := by
  rcases hostStep_next k with rfl | ⟨m, c, rfl⟩ | ⟨i, s', c, he, rfl⟩
  · exact .inl rfl
  · exact .inl rfl
  · exact (exec_gpio he :)

theorem hostStep_ioc (k : hostStep h s = .next t) : t.ioc = s.ioc ∨ IocWritten s t := by
  rcases hostStep_next k with rfl | ⟨m, c, rfl⟩ | ⟨i, s', c, he, rfl⟩
  · exact .inl rfl
  · exact .inl rfl
  · exact (exec_ioc he :)

theorem hostStep_env (k : hostStep h s = .next t) : t.env = s.env := by
  rcases hostStep_next k with rfl | ⟨m, c, rfl⟩ | ⟨i, s', c, he, rfl⟩
  · rfl
  · rfl
  · exact (exec_access he).env

/-- R132: a host's step leaves the context of every other host. -/
theorem hostStep_other_host (k : hostStep h s = .next t) {j : Nat} (hj : h ≠ j) : t.hosts[j]? = s.hosts[j]? := by
  rcases hostStep_next k with rfl | ⟨m, c, rfl⟩ | ⟨i, s', c, he, rfl⟩
  · rfl
  · exact List.getElem?_set_ne hj
  · rw [setHost_hosts, (exec_access he).hosts]
    exact List.getElem?_set_ne hj

end

/-! ### What the device agents and HW_RESET leave unchanged -/

theorem txDone_frame (s : State) : txDone s = { s with uart := (txDone s).uart, txlog := (txDone s).txlog } := by
  unfold txDone
  dsimp only
  split <;> rfl

/-- Of the steps of the device and environment agents MODEM_CHANGE alone changes the modem inputs (R126); the others change
the UART and TXLOG only. -/
theorem deviceStep_cases (a : AgentStep) (s : State) :
    (∃ cts dsr ri dcd, a = .modemChange cts dsr ri dcd) ∨
    deviceStep a s = { s with uart := (deviceStep a s).uart, txlog := (deviceStep a s).txlog } := by
  cases a with
  | host => exact .inr rfl
  | txLoad | rxFrame | rxTimeout => simp only [deviceStep]; split <;> exact .inr rfl
  | txDone =>
    simp only [deviceStep]
    split
    · exact .inr (txDone_frame s)
    · exact .inr rfl
  | modemChange cts dsr ri dcd => exact .inl ⟨cts, dsr, ri, dcd, rfl⟩

theorem deviceStep_frame (a : AgentStep) (s : State) :
    deviceStep a s =
      { s with uart := (deviceStep a s).uart, env := (deviceStep a s).env, txlog := (deviceStep a s).txlog } := by
  rcases deviceStep_cases a s with ⟨cts, dsr, ri, dcd, rfl⟩ | hf
  · rfl
  · rw [hf]

theorem hwReset_env (s : State) : (hwReset s).env = s.env := by
  show (uartReset s).env = s.env
  rw [uartReset_frame]

theorem hwReset_hosts (s : State) : (hwReset s).hosts = s.hosts := by
  show (uartReset s).hosts = s.hosts
  rw [uartReset_frame]

/-! ### Which step changed what -/

section
variable {s t : State}

theorem step_gpio (k : step s = .next t) (hg : t.gpio ≠ s.gpio) :
    s.nextEvent = .hwReset ∨ ∃ h, s.nextEvent = .agent (.host h) ∧ GpioWritten s t := by
  rcases step_next k with ⟨h, he, hs⟩ | ⟨a, -, -, rfl⟩ | ⟨he, -⟩
  · have hw : GpioWritten s.taken t := (hostStep_gpio hs).resolve_left (by simpa using hg)
    exact .inr ⟨h, he, by simpa [GpioWritten] using hw⟩
  · exact absurd (by rw [deviceStep_frame, taken_gpio]) hg
  · exact .inl he

theorem step_ioc (k : step s = .next t) (hi : t.ioc ≠ s.ioc) :
    s.nextEvent = .hwReset ∨ ∃ h, s.nextEvent = .agent (.host h) ∧ IocWritten s t := by
  rcases step_next k with ⟨h, he, hs⟩ | ⟨a, -, -, rfl⟩ | ⟨he, -⟩
  · have hw : IocWritten s.taken t := (hostStep_ioc hs).resolve_left (by simpa using hi)
    exact .inr ⟨h, he, by simpa [IocWritten] using hw⟩
  · exact absurd (by rw [deviceStep_frame, taken_ioc]) hi
  · exact .inl he

theorem step_env (k : step s = .next t) (hm : t.env ≠ s.env) :
    ∃ cts dsr ri dcd, s.nextEvent = .agent (.modemChange cts dsr ri dcd) := by
  rcases step_next k with ⟨h, -, hs⟩ | ⟨a, he, -, rfl⟩ | ⟨-, rfl⟩
  · exact absurd ((hostStep_env hs).trans (taken_env s)) hm
  · rcases deviceStep_cases a s.taken with ⟨cts, dsr, ri, dcd, rfl⟩ | hf
    · exact ⟨cts, dsr, ri, dcd, he⟩
    · exact absurd (by rw [hf, taken_env]) hm
  · exact absurd ((hwReset_env _).trans (taken_env s)) hm

theorem step_host (k : step s = .next t) {j : Nat} (hj : t.hosts[j]? ≠ s.hosts[j]?) :
    s.nextEvent = .agent (.host j) := by
  rcases step_next k with ⟨h, he, hs⟩ | ⟨a, -, -, rfl⟩ | ⟨-, rfl⟩
  · by_cases hne : h = j
    · rw [he, hne]
    · exact absurd (by rw [hostStep_other_host hs hne, taken_hosts]) hj
  · exact absurd (by rw [deviceStep_frame, taken_hosts]) hj
  · exact absurd (by rw [hwReset_hosts, taken_hosts]) hj

end

/-- Settles O45, by what each of the three kinds of step (`step_next`) may change. -/
theorem passiveStateChangesOnlyByItsAgent : Obligations.PassiveStateChangesOnlyByItsAgent := by
  intro s t k
  refine ⟨fun hg => ?_, fun hi => ?_, step_env k, fun h => step_host k⟩
  · exact (step_gpio k hg).imp_right fun ⟨h, he, x, b, hw⟩ => ⟨h, x, b, he, hw⟩
  · exact (step_ioc k hi).imp_right fun ⟨h, he, x, hw⟩ => ⟨h, x, he, hw⟩

end Sys2Proof.Proofs
end

section
/-! PROOFS. What a step may add to TXLOG and HLOG, and that it keeps the parameters (10_state.md R127, 20_memory.md R212,
60_exceptions.md R943). -/

namespace Sys2Proof.Proofs

open Sys2Proof.Machine Sys2Proof.Laws

/-- TXLOG of `t` is that of `s`, or has one event more. -/
def TxlogGrows (s t : State) : Prop := t.txlog = s.txlog ∨ ∃ e, t.txlog = s.txlog ++ [e]

theorem TxlogGrows.suffix {s t : State} (g : TxlogGrows s t) : ∃ l, t.txlog = s.txlog ++ l ∧ l.length ≤ 1 := by
  rcases g with h | ⟨e, h⟩
  · exact ⟨[], by simpa using h, Nat.zero_le 1⟩
  · exact ⟨[e], h, Nat.le_refl 1⟩

/-! ### A host's step -/

section
variable {h : Nat} {s t : State}

theorem hostStep_cfg (k : hostStep h s = .next t) : t.cfg = s.cfg := by
  rcases hostStep_next k with rfl | ⟨m, c, rfl⟩ | ⟨i, s', c, he, rfl⟩
  · rfl
  · rfl
  · exact (exec_access he).cfg

theorem hostStep_txlog (k : hostStep h s = .next t) : TxlogGrows s t := by
  rcases hostStep_next k with rfl | ⟨m, c, rfl⟩ | ⟨i, s', c, he, rfl⟩
  · exact .inl rfl
  · exact .inl rfl
  · exact (exec_access he).txlog

/-- A host's step records at most one transaction, under the host's number (R212). -/
theorem hostStep_hlog (k : hostStep h s = .next t) :
    t.hlog = s.hlog ∨ ∃ x : Txn, x.agent = h ∧ t.hlog = s.hlog ++ [x] := by
  rcases hostStep_next k with rfl | ⟨m, c, rfl⟩ | ⟨i, s', c, he, rfl⟩
  · exact .inl rfl
  · exact .inl rfl
  · exact .inr (exec_access he).hlog

end

/-! ### The device's steps and HW_RESET -/

theorem deviceStep_cfg (a : AgentStep) (s : State) : (deviceStep a s).cfg = s.cfg := by rw [deviceStep_frame]

theorem deviceStep_hlog (a : AgentStep) (s : State) : (deviceStep a s).hlog = s.hlog := by rw [deviceStep_frame]

/-- In loopback the character sent is no event on the line (R607). -/
theorem txDone_txlog (s : State) : TxlogGrows s (txDone s) := by
  unfold txDone
  dsimp only
  split
  · exact .inl rfl
  · exact .inr ⟨_, rfl⟩

/-- Of the steps of the device and environment agents TX_DONE alone adds to TXLOG (R603). -/
theorem deviceStep_txlog (a : AgentStep) (s : State) : TxlogGrows s (deviceStep a s) := by
  cases a with
  | host | modemChange => exact .inl rfl
  | txLoad | rxFrame | rxTimeout => simp only [deviceStep]; split <;> exact .inl rfl
  | txDone =>
    simp only [deviceStep]
    split
    · exact txDone_txlog s
    · exact .inl rfl

theorem hwReset_cfg (s : State) : (hwReset s).cfg = s.cfg := by
  show (uartReset s).cfg = s.cfg
  rw [uartReset_frame]

theorem hwReset_hlog (s : State) : (hwReset s).hlog = s.hlog := by
  show (uartReset s).hlog = s.hlog
  rw [uartReset_frame]

/-- HW_RESET keeps what TXLOG recorded and adds at most the end of a break (R605). -/
theorem hwReset_txlog (s : State) : TxlogGrows s (hwReset s) := logBreak_txlog_cases s s.uart.bc false

/-! ### Every step -/

section
variable {s t : State}

theorem step_cfg (k : step s = .next t) : t.cfg = s.cfg := by
  rcases step_next k with ⟨h, -, hs⟩ | ⟨a, -, -, rfl⟩ | ⟨-, rfl⟩
  · exact (hostStep_cfg hs).trans (taken_cfg s)
  · exact (deviceStep_cfg a _).trans (taken_cfg s)
  · exact (hwReset_cfg _).trans (taken_cfg s)

theorem step_txlog (k : step s = .next t) : TxlogGrows s t := by
  have hg : TxlogGrows s.taken t := by
    rcases step_next k with ⟨h, -, hs⟩ | ⟨a, -, -, rfl⟩ | ⟨-, rfl⟩
    · exact hostStep_txlog hs
    · exact deviceStep_txlog a _
    · exact hwReset_txlog _
  simpa [TxlogGrows] using hg

theorem step_hlog (k : step s = .next t) :
    t.hlog = s.hlog ∨ ∃ h x, s.nextEvent = .agent (.host h) ∧ x.agent = h ∧ t.hlog = s.hlog ++ [x] := by
  rcases step_next k with ⟨h, he, hs⟩ | ⟨a, -, -, rfl⟩ | ⟨-, rfl⟩
  · rw [← taken_hlog s]
    exact (hostStep_hlog hs).imp_right fun ⟨x, hx, hl⟩ => ⟨h, x, he, hx, hl⟩
  · exact .inl ((deviceStep_hlog a _).trans (taken_hlog s))
  · exact .inl ((hwReset_hlog _).trans (taken_hlog s))

end

/-- Settles O44, by what each of the three kinds of step (`step_next`) keeps and may append. -/
theorem recordsOnlyGrow : Obligations.RecordsOnlyGrow :=
  fun _ _ k => ⟨step_cfg k, (step_txlog k).suffix, step_hlog k⟩

end Sys2Proof.Proofs
end

section
/-! PROOFS. Which block an absolute address names (20_memory.md R203, 46_driver_procedures.md R800). -/

namespace Sys2Proof.Proofs

open Sys2Proof.Machine

/-! ### Addresses and blocks -/

theorem inBlock_iff {base addr : Nat} : inBlock base addr = true ↔ base ≤ addr ∧ addr < base + 0x1000 := by
  simp [inBlock]

/-- A 12-bit offset reaches every address of its block and no other. -/
@[simp] theorem inBlock_add_offset (base : Nat) (off : BitVec 12) : inBlock base (base + off.toNat) = true :=
  inBlock_iff.mpr ⟨Nat.le_add_right .., Nat.add_lt_add_left off.isLt base⟩

theorem not_inBlock_of_disjoint {a b addr : Nat} (d : disjointBlocks a b = true) (hb : inBlock b addr = true) :
    inBlock a addr = false := by
  simp only [disjointBlocks, Bool.or_eq_true, decide_eq_true_eq] at d
  rw [← Bool.not_eq_true, inBlock_iff]
  rw [inBlock_iff] at hb
  omega

theorem disjointBlocks_comm (a b : Nat) : disjointBlocks a b = disjointBlocks b a := Bool.or_comm ..

theorem allDisjoint_cons {a : Nat} {l : List Nat} :
    allDisjoint (a :: l) = true ↔ (∀ b ∈ l, disjointBlocks a b = true) ∧ allDisjoint l = true := by
  simp [allDisjoint]

theorem bankOf_eq_none {addr k : Nat} {l : List Nat} (h : ∀ b ∈ l, inBlock b addr = false) : bankOf addr k l = none := by
  induction l generalizing k with
  | nil => rfl
  | cons a l ih =>
    obtain ⟨ha, hl⟩ := List.forall_mem_cons.mp h
    simp [bankOf, ha, ih hl]

/-- Among disjoint banks the search meets the block of the address first at its own bank. -/
theorem bankOf_eq_some {addr k i b : Nat} {l : List Nat} (d : allDisjoint l = true) (hi : l[i]? = some b)
    (hb : inBlock b addr = true) : bankOf addr k l = some (k + i, b) := by
  induction l generalizing k i with
  | nil => simp at hi
  | cons a l ih =>
    obtain ⟨da, dl⟩ := allDisjoint_cons.mp d
    cases i with
    | zero =>
      obtain rfl : a = b := by simpa using hi
      simp [bankOf, hb]
    | succ i =>
      rw [List.getElem?_cons_succ] at hi
      have ha : inBlock a addr = false := not_inBlock_of_disjoint (da b (List.mem_of_getElem? hi)) hb
      simp only [bankOf, ha, ih dl hi, Bool.false_eq_true, if_false]
      rw [Nat.add_assoc, Nat.add_comm 1 i]

/-! ### The three kinds of block, and none -/

/-- No two blocks of admitted parameters overlap (R203). -/
theorem bases_disjoint {p : Params} (h : p.wf = true) :
    disjointBlocks p.uartBase p.iocBase = true ∧ (∀ b ∈ p.gpioBase, disjointBlocks p.uartBase b = true) ∧
    (∀ b ∈ p.gpioBase, disjointBlocks p.iocBase b = true) ∧ allDisjoint p.gpioBase = true := by
  have d : allDisjoint p.bases = true := by
    simp only [Params.wf, Bool.and_eq_true] at h
    obtain ⟨⟨-, hd⟩, -⟩ := h
    exact hd
  obtain ⟨du, d⟩ := allDisjoint_cons.mp d
  obtain ⟨di, dg⟩ := allDisjoint_cons.mp d
  obtain ⟨dui, dug⟩ := List.forall_mem_cons.mp du
  exact ⟨dui, dug, di, dg⟩

section
variable {p : Params}

theorem target_uart (p : Params) (off : BitVec 12) : target p (p.uartBase + off.toNat) = some (.uart, off) := by
  simp [target]

theorem target_ioc (h : p.wf = true) (off : BitVec 12) : target p (p.iocBase + off.toNat) = some (.ioc, off) := by
  obtain ⟨dui, -, dig, -⟩ := bases_disjoint h
  have hi := inBlock_add_offset p.iocBase off
  have hu : inBlock p.uartBase (p.iocBase + off.toNat) = false := not_inBlock_of_disjoint dui hi
  have hg : bankOf (p.iocBase + off.toNat) 0 p.gpioBase = none :=
    bankOf_eq_none fun b hb => not_inBlock_of_disjoint (disjointBlocks_comm .. ▸ dig b hb) hi
  simp [target, hu, hg]

theorem target_gpio (h : p.wf = true) {k : BitVec 7} {b : Nat} (hb : p.gpioBase[k.toNat]? = some b) (off : BitVec 12) :
    target p (b + off.toNat) = some (.gpio k, off) := by
  obtain ⟨-, dug, -, dg⟩ := bases_disjoint h
  have hi := inBlock_add_offset b off
  have hu : inBlock p.uartBase (b + off.toNat) = false := not_inBlock_of_disjoint (dug b (List.mem_of_getElem? hb)) hi
  have hg : bankOf (b + off.toNat) 0 p.gpioBase = some (0 + k.toNat, b) := bankOf_eq_some dg hb hi
  simp [target, hu, hg]

theorem target_eq_none {addr : Nat} (h : ∀ b ∈ p.bases, inBlock b addr = false) : target p addr = none := by
  obtain ⟨hu, h⟩ := List.forall_mem_cons.mp h
  obtain ⟨hi, hg⟩ := List.forall_mem_cons.mp h
  simp [target, hu, hi, bankOf_eq_none hg]

end

/-- Settles O41, block by block: an address of one block is in no other, so the search of `target` ends there. -/
theorem absoluteAddressTargets : Obligations.AbsoluteAddressTargets := by
  intro p hp
  refine ⟨fun off => ⟨target_uart p off, target_ioc hp off, fun k b hb => target_gpio hp hb off⟩, fun addr h => ?_⟩
  exact target_eq_none fun b hb => Bool.eq_false_iff.mpr (mt inBlock_iff.mp (h b hb))

end Sys2Proof.Proofs
end

section
/-! PROOFS. Which reads change the device, and that a transaction changes only the block it addresses (20_memory.md R209, R216,
00_scope.md R8). -/

namespace Sys2Proof.Proofs

open Sys2Proof.Machine Sys2Proof.Laws

/-! ### The block bits of a descriptor (30_encoding.md R301) -/

section
variable (w : Bool) (blk sz : BitVec 2) (bank : BitVec 7) (off : BitVec 12)

theorem descriptorOf_bit29 : (descriptorOf w blk sz bank off).getLsbD 29 = blk.getLsbD 0 := by
  simp only [descriptorOf, BitVec.getLsbD_append]
  rfl

theorem descriptorOf_bit30 : (descriptorOf w blk sz bank off).getLsbD 30 = blk.getLsbD 1 := by
  simp only [descriptorOf, BitVec.getLsbD_append]
  rfl

theorem uartT_bit29 : (uartT w off).getLsbD 29 = false := descriptorOf_bit29 ..
theorem uartT_bit30 : (uartT w off).getLsbD 30 = false := descriptorOf_bit30 ..
theorem gpioT_bit29 : (gpioT w bank off).getLsbD 29 = true := descriptorOf_bit29 ..
theorem gpioT_bit30 : (gpioT w bank off).getLsbD 30 = false := descriptorOf_bit30 ..
theorem iocT_bit29 : (iocT w off).getLsbD 29 = false := descriptorOf_bit29 ..
theorem iocT_bit30 : (iocT w off).getLsbD 30 = true := descriptorOf_bit30 ..

end

/-! ### What the entry of HLOG says (R212) -/

/-- `t` records one transaction more than `s`, with the block, the direction and the offset that the descriptor of `i` names,
and the value written or read. -/
def Records (i : Instr) (s t : State) : Prop :=
  ∃ x : Txn, t.hlog = s.hlog ++ [x] ∧ x.block.descriptor (decide (x.dir = .write)) x.offset = i.descriptor ∧
    x.value = i.wdata.getD t.rdata

section
variable {i : Instr} {b : Block} {off : BitVec 12} {v : Word} {s s' t : State}

theorem Records.of_readOk (h : s'.readOk b off v = .next t) (hl : s'.hlog = s.hlog)
    (hd : b.descriptor false off = i.descriptor) (hw : i.wdata = none) : Records i s t := by
  obtain rfl := readOk_next h
  exact ⟨_, congrArg (· ++ _) hl, hd, by rw [hw]; rfl⟩

theorem Records.of_writeOk (h : s'.writeOk b off v = .next t) (hl : s'.hlog = s.hlog)
    (hd : b.descriptor true off = i.descriptor) (hw : i.wdata = some v) : Records i s t := by
  obtain rfl := writeOk_next h
  exact ⟨_, congrArg (· ++ _) hl, hd, by rw [hw]; rfl⟩

end

theorem uartReset_hlog (s : State) : (uartReset s).hlog = s.hlog := by rw [uartReset_frame]

theorem exec_records {i : Instr} {s t : State} (h : exec i s = .next t) : Records i s t := by
  cases i <;> simp only [exec] at h
  case rdDll | rdIer | rdDlh | rdIir | rdLcr | rdMcr | rdLsr | rdMsr | rdScr | rdLpdll | rdUsr | rdSrr | rdDlf =>
    exact .of_readOk h rfl rfl rfl
  case wrThr | wrDll | wrIer | wrDlh | wrFcr | wrScr | wrLpdll | wrDlf => exact .of_writeOk h rfl rfl rfl
  case wrLsr | wrMsr | wrUsr => cases h
  case rdRbr =>
    unfold execRdRbr at h
    split at h <;> exact .of_readOk h rfl rfl rfl
  case wrLcr =>
    unfold execWrLcr at h
    split at h
    · exact .of_writeOk h rfl rfl rfl
    · exact .of_writeOk h (by simp) rfl rfl
  case wrMcr =>
    unfold execWrMcr at h
    split at h
    · cases h
    · exact .of_writeOk h rfl rfl rfl
  case wrSrr =>
    unfold execWrSrr at h
    split at h
    · exact .of_writeOk h (uartReset_hlog s) rfl rfl
    · exact .of_writeOk h rfl rfl rfl
  case rdDrL | rdDrH | rdDdrL | rdDdrH =>
    obtain ⟨g, -, rfl⟩ := readGpio_next h
    exact ⟨_, rfl, rfl, rfl⟩
  case wrDrL | wrDrH | wrDdrL | wrDdrH =>
    obtain ⟨g, -, rfl⟩ := writeGpio_next h
    exact ⟨_, rfl, rfl, rfl⟩
  case rdIoc =>
    unfold execRdIoc at h
    split at h
    · exact .of_readOk h rfl rfl rfl
    · cases h
  case wrIoc =>
    unfold execWrIoc at h
    split at h
    · exact .of_writeOk h rfl rfl rfl
    · cases h

/-! ### What a transaction changes -/

section
variable {i : Instr} {s t : State}

/-- The one entry a transaction adds to HLOG is to the block its descriptor names. -/
theorem Records.block_descriptor (r : Records i s t) {x : Txn} (hx : t.hlog = s.hlog ++ [x]) :
    x.block.descriptor (decide (x.dir = .write)) x.offset = i.descriptor := by
  obtain ⟨y, hy, hd, -⟩ := r
  obtain rfl : x = y := by simpa using hx.symm.trans hy
  exact hd

theorem exec_gpio_unless_addressed (h : exec i s = .next t) :
    t.gpio = s.gpio ∨ i.descriptor.getLsbD 29 = true ∧ i.descriptor.getLsbD 30 = false := by
  refine (exec_gpio h).imp_right ?_
  rintro ⟨x, k, hx, -, hk, -⟩
  rw [← (exec_records h).block_descriptor hx, hk]
  exact ⟨gpioT_bit29 .., gpioT_bit30 ..⟩

theorem exec_ioc_unless_addressed (h : exec i s = .next t) :
    t.ioc = s.ioc ∨ i.descriptor.getLsbD 29 = false ∧ i.descriptor.getLsbD 30 = true := by
  refine (exec_ioc h).imp_right ?_
  rintro ⟨x, hx, -, hk⟩
  rw [← (exec_records h).block_descriptor hx, hk]
  exact ⟨iocT_bit29 .., iocT_bit30 ..⟩

/-- A GPIO or IOC transaction changes neither the UART nor TXLOG. -/
theorem exec_uart_of_block_bit (h : exec i s = .next t)
    (hb : i.descriptor.getLsbD 29 = true ∨ i.descriptor.getLsbD 30 = true) : t.uart = s.uart ∧ t.txlog = s.txlog := by
  cases i
  case rdDrL | rdDrH | rdDdrL | rdDdrH =>
    obtain ⟨g, -, rfl⟩ := readGpio_next h
    exact ⟨rfl, rfl⟩
  case wrDrL | wrDrH | wrDdrL | wrDdrH =>
    obtain ⟨g, -, rfl⟩ := writeGpio_next h
    exact ⟨rfl, rfl⟩
  case rdIoc =>
    simp only [exec, execRdIoc] at h
    split at h
    · obtain rfl := readOk_next h
      exact ⟨rfl, rfl⟩
    · cases h
  case wrIoc =>
    simp only [exec, execWrIoc] at h
    split at h
    · obtain rfl := writeOk_next h
      exact ⟨rfl, rfl⟩
    · cases h
  all_goals simp only [Instr.descriptor, uartT_bit29, uartT_bit30, Bool.false_eq_true, or_self] at hb

/-- R209: the reads of RBR, IIR, LSR, MSR and USR are the only ones with a side effect. -/
theorem exec_read_frame (h : exec i s = .next t) (hw : i.wdata = none)
    (hn : i ∉ [Instr.rdRbr, .rdIir, .rdLsr, .rdMsr, .rdUsr]) :
    t = { s with rdata := t.rdata, hlog := t.hlog, draws := t.draws } := by
  cases i
  case rdRbr | rdIir | rdLsr | rdMsr | rdUsr => simp at hn
  case rdDll | rdIer | rdDlh | rdLcr | rdMcr | rdScr | rdLpdll | rdSrr | rdDlf =>
    obtain rfl := readOk_next h
    rfl
  case rdDrL | rdDrH | rdDdrL | rdDdrH =>
    obtain ⟨g, -, rfl⟩ := readGpio_next h
    rfl
  case rdIoc =>
    simp only [exec, execRdIoc] at h
    split at h
    · obtain rfl := readOk_next h
      rfl
    · cases h
  all_goals cases hw

end

/-- Settles O46, by the block bits of the descriptor and the reads without side effect. -/
theorem sideEffectsStayInTheirBlock : Obligations.SideEffectsStayInTheirBlock := by
  intro s t i h
  have hg := exec_gpio_unless_addressed h
  have hi := exec_ioc_unless_addressed h
  refine ⟨exec_read_frame h, fun h29 h30 => ⟨?_, ?_⟩, exec_uart_of_block_bit h, fun h29 => ?_, fun h30 => ?_⟩
  · exact hg.resolve_right fun ⟨g29, _⟩ => nomatch h29.symm.trans g29
  · exact hi.resolve_right fun ⟨_, i30⟩ => nomatch h30.symm.trans i30
  · exact hi.resolve_right fun ⟨i29, _⟩ => nomatch h29.symm.trans i29
  · exact hg.resolve_right fun ⟨_, g30⟩ => nomatch h30.symm.trans g30

end Sys2Proof.Proofs
end

section
/-! PROOFS. The decoder and the encoder are inverse to each other, row by row of the opcode maps (30_encoding.md R300 to
R307). -/

namespace Sys2Proof.Proofs

open Sys2Proof.Machine Sys2Proof.Laws

/-! ### The fields of a descriptor (R301) -/

section
variable (w : Bool) (blk sz : BitVec 2) (bank : BitVec 7) (off : BitVec 12)

theorem descriptorOf_getLsbD (i : Nat) : (descriptorOf w blk sz bank off).getLsbD i =
    if i < 12 then off.getLsbD i else if i < 20 then false else if i < 27 then bank.getLsbD (i - 20)
    else if i < 29 then sz.getLsbD (i - 27) else if i < 31 then blk.getLsbD (i - 29) else decide (i = 31) && w := by
  have h31 : 31 ≤ i → decide (i - 31 = 0) = decide (i = 31) := fun h => decide_eq_decide.mpr (by omega)
  simp only [descriptorOf, BitVec.getLsbD_append, BitVec.getLsbD_ofBool]
  grind

@[simp] theorem isWrite_descriptorOf : (descriptorOf w blk sz bank off).isWrite = w := by
  simp only [Word.isWrite, descriptorOf_getLsbD]
  rfl

@[simp] theorem blk_descriptorOf : (descriptorOf w blk sz bank off).blk = blk := by
  refine BitVec.eq_of_getLsbD_eq fun i hi => ?_
  simp only [Word.blk, BitVec.getLsbD_extractLsb', descriptorOf_getLsbD]
  grind

@[simp] theorem sz_descriptorOf : (descriptorOf w blk sz bank off).sz = sz := by
  refine BitVec.eq_of_getLsbD_eq fun i hi => ?_
  simp only [Word.sz, BitVec.getLsbD_extractLsb', descriptorOf_getLsbD]
  grind

@[simp] theorem bank_descriptorOf : (descriptorOf w blk sz bank off).bank = bank := by
  refine BitVec.eq_of_getLsbD_eq fun i hi => ?_
  simp only [Word.bank, BitVec.getLsbD_extractLsb', descriptorOf_getLsbD]
  grind

@[simp] theorem reserved_descriptorOf : (descriptorOf w blk sz bank off).reserved = 0 := by
  refine BitVec.eq_of_getLsbD_eq fun i hi => ?_
  simp only [Word.reserved, BitVec.getLsbD_extractLsb', descriptorOf_getLsbD]
  grind

@[simp] theorem off_descriptorOf : (descriptorOf w blk sz bank off).off = off := by
  refine BitVec.eq_of_getLsbD_eq fun i hi => ?_
  simp only [Word.off, BitVec.getLsbD_extractLsb', descriptorOf_getLsbD]
  grind

theorem descriptorOf_or_bank :
    descriptorOf w blk sz bank off = descriptorOf w blk sz 0 off ||| (bank.setWidth 32 <<< 20) := by
  refine BitVec.eq_of_getLsbD_eq fun i hi => ?_
  simp only [BitVec.getLsbD_or, descriptorOf_getLsbD, BitVec.getLsbD_shiftLeft, BitVec.getLsbD_setWidth]
  grind

theorem descriptorOf_or_off :
    descriptorOf w blk sz bank off = descriptorOf w blk sz bank 0 ||| off.setWidth 32 := by
  refine BitVec.eq_of_getLsbD_eq fun i hi => ?_
  simp only [BitVec.getLsbD_or, descriptorOf_getLsbD, BitVec.getLsbD_setWidth]
  grind

@[simp] theorem isWrite_uartT : (uartT w off).isWrite = w := isWrite_descriptorOf ..
@[simp] theorem isWrite_gpioT : (gpioT w bank off).isWrite = w := isWrite_descriptorOf ..
@[simp] theorem isWrite_iocT : (iocT w off).isWrite = w := isWrite_descriptorOf ..
@[simp] theorem off_uartT : (uartT w off).off = off := off_descriptorOf ..
@[simp] theorem off_gpioT : (gpioT w bank off).off = off := off_descriptorOf ..
@[simp] theorem off_iocT : (iocT w off).off = off := off_descriptorOf ..
@[simp] theorem bank_gpioT : (gpioT w bank off).bank = bank := bank_descriptorOf ..

end

section
variable {t : Word}

theorem reserved_bit (h : t.reserved = 0) {j : Nat} (hl : 12 ≤ j) (hu : j < 20) : t.getLsbD j = false := by
  have hj : t.reserved.getLsbD (j - 12) = false := by rw [h]; exact BitVec.getLsbD_zero
  simpa [Word.reserved, show j - 12 < 8 by omega, Nat.add_sub_cancel' hl] using hj

/-- A descriptor with zero reserved bits is put together from its fields. -/
theorem descriptorOf_fields (h : t.reserved = 0) : descriptorOf t.isWrite t.blk t.sz t.bank t.off = t := by
  refine BitVec.eq_of_getLsbD_eq fun i hi => ?_
  have hr : 12 ≤ i → i < 20 → t.getLsbD i = false := reserved_bit h
  simp only [descriptorOf_getLsbD, Word.isWrite, Word.blk, Word.sz, Word.bank, Word.off, BitVec.getLsbD_extractLsb']
  grind

theorem eq_uartT (hs : t.sz = 0b10) (hr : t.reserved = 0) (hb : t.blk = 0b00) (hk : t.bank = 0) :
    t = uartT t.isWrite t.off := by
  conv_lhs => rw [← descriptorOf_fields hr, hs, hb, hk]
  rfl

theorem eq_gpioT (hs : t.sz = 0b10) (hr : t.reserved = 0) (hb : t.blk = 0b01) : t = gpioT t.isWrite t.bank t.off := by
  conv_lhs => rw [← descriptorOf_fields hr, hs, hb]
  rfl

theorem eq_iocT (hs : t.sz = 0b10) (hr : t.reserved = 0) (hb : t.blk = 0b10) (hk : t.bank = 0) :
    t = iocT t.isWrite t.off := by
  conv_lhs => rw [← descriptorOf_fields hr, hs, hb, hk]
  rfl

end

theorem aligned_iff {off : BitVec 12} : off.extractLsb' 0 2 = 0 ↔ off.toNat % 4 = 0 := by
  rw [← BitVec.toNat_inj, BitVec.extractLsb'_toNat]
  rfl

/-! ### The maps of R304, R306 and R307 -/

/-- R304: the UART transaction at an offset, for either direction. -/
def uartRow (w : Bool) (off : Nat) (dlab : Bool) (v : Word) : Option Instr :=
  if w then uartWriteAt off dlab v else uartReadAt off dlab

/-- R306: the GPIO transaction at an offset, for either direction. -/
def gpioRow (w : Bool) (off : Nat) (bank : BitVec 7) (v : Word) : Option Instr :=
  if w then gpioWriteAt off bank v else gpioReadAt off bank

section
variable {p : Params} {w dlab : Bool} {off : BitVec 12} {k : BitVec 7} {v : Word} {i : Instr}

theorem uartRow_isSome (n : Nat) : (uartRow w n dlab v).isSome =
    decide (n ∈ [0x000, 0x004, 0x008, 0x00C, 0x010, 0x014, 0x018, 0x01C, 0x020, 0x07C, 0x088, 0x0C0]) := by
  unfold uartRow uartWriteAt uartReadAt
  split <;> split <;> simp_all

theorem gpioRow_isSome (n : Nat) : (gpioRow w n k v).isSome = decide (n ∈ [0x0, 0x4, 0x8, 0xC]) := by
  unfold gpioRow gpioWriteAt gpioReadAt
  split <;> split <;> simp_all

theorem eq_ofNat_of_toNat_eq {n : Nat} (h : off.toNat = n) : off = BitVec.ofNat 12 n := by
  rw [← h, BitVec.ofNat_toNat, BitVec.setWidth_eq]

/-- A row of the UART map is a well-formed transaction, encoded as the row's descriptor and, for a write, WDATA. -/
theorem uartRow_some (h : uartRow w off.toNat dlab v = some i) :
    i.wf p dlab = true ∧ i.descriptor = uartT w off ∧ i.wdata = if w then some v else none := by
  cases w <;> simp only [uartRow, uartWriteAt, uartReadAt, Bool.false_eq_true, if_false, if_true] at h <;>
    split at h <;> cases h
  all_goals
    rename_i ho
    obtain rfl := eq_ofNat_of_toNat_eq ho
    cases dlab <;> exact ⟨rfl, rfl, rfl⟩

/-- A row of the GPIO map on a bank that is there, likewise. -/
theorem gpioRow_some (hk : k.toNat < p.gpioBanks) (h : gpioRow w off.toNat k v = some i) :
    i.wf p dlab = true ∧ i.descriptor = gpioT w k off ∧ i.wdata = if w then some v else none := by
  cases w <;> simp only [gpioRow, gpioWriteAt, gpioReadAt, Bool.false_eq_true, if_false, if_true] at h <;>
    split at h <;> cases h
  all_goals
    rename_i ho
    obtain rfl := eq_ofNat_of_toNat_eq ho
    exact ⟨decide_eq_true hk, rfl, rfl⟩

/-- The two transactions of an IOC register, likewise. -/
theorem iocRow_wf (ha : off.toNat % 4 = 0) (hr : off.toNat ∈ p.iocRegSet) :
    let i : Instr := if w then .wrIoc off v else .rdIoc off
    i.wf p dlab = true ∧ i.descriptor = iocT w off ∧ i.wdata = if w then some v else none := by
  cases w <;> exact ⟨by simp [Instr.wf, ha, hr], rfl, rfl⟩

theorem uartRow_aligned (h : uartRow w off.toNat dlab v = some i) : off.toNat % 4 = 0 := by
  have hm := uartRow_isSome (w := w) (dlab := dlab) (v := v) off.toNat
  rw [h, Option.isSome_some, eq_comm, decide_eq_true_eq] at hm
  generalize off.toNat = n at hm
  revert n
  decide

theorem gpioRow_aligned (h : gpioRow w off.toNat k v = some i) : off.toNat % 4 = 0 := by
  have hm := gpioRow_isSome (w := w) (k := k) (v := v) off.toNat
  rw [h, Option.isSome_some, eq_comm, decide_eq_true_eq] at hm
  generalize off.toNat = n at hm
  revert n
  decide

/-! ### The decoder on the descriptors of each block (R303) -/

theorem decode_uartT (ha : off.toNat % 4 = 0) :
    decode p dlab (uartT w off) v = uartDecode (uartT w off) dlab v := by
  have ha' := aligned_iff.mpr ha
  simp [decode, uartT, ha']

theorem decode_gpioT (ha : off.toNat % 4 = 0) (hk : k.toNat < p.gpioBanks) :
    decode p dlab (gpioT w k off) v = gpioDecode (gpioT w k off) v := by
  have ha' := aligned_iff.mpr ha
  simp [decode, gpioT, ha', hk]

theorem decode_gpioT_absent (ha : off.toNat % 4 = 0) (hk : p.gpioBanks ≤ k.toNat) :
    decode p dlab (gpioT w k off) v = .error (.unmappedAddress (gpioT w k off)) := by
  have ha' := aligned_iff.mpr ha
  simp [decode, gpioT, ha', hk]

theorem decode_iocT (ha : off.toNat % 4 = 0) : decode p dlab (iocT w off) v = iocDecode p (iocT w off) v := by
  have ha' := aligned_iff.mpr ha
  simp [decode, iocT, ha']

theorem decode_uartT_row (h : uartRow w off.toNat dlab v = some i) : decode p dlab (uartT w off) v = .ok i := by
  rw [decode_uartT (uartRow_aligned h)]
  simp only [uartDecode, isWrite_uartT, off_uartT]
  rw [← uartRow, h]

theorem decode_uartT_no_row (ha : off.toNat % 4 = 0) (h : uartRow w off.toNat dlab v = none) :
    decode p dlab (uartT w off) v =
      .error (if off.toNat < 0x100 then .notModelledOffset (uartT w off) else .unmappedAddress (uartT w off)) := by
  rw [decode_uartT ha]
  simp only [uartDecode, isWrite_uartT, off_uartT]
  rw [← uartRow, h]
  dsimp only
  split <;> rfl

theorem decode_gpioT_row (hk : k.toNat < p.gpioBanks) (h : gpioRow w off.toNat k v = some i) :
    decode p dlab (gpioT w k off) v = .ok i := by
  rw [decode_gpioT (gpioRow_aligned h) hk]
  simp only [gpioDecode, isWrite_gpioT, bank_gpioT, off_gpioT]
  rw [← gpioRow, h]

theorem decode_gpioT_no_row (ha : off.toNat % 4 = 0) (hk : k.toNat < p.gpioBanks)
    (h : gpioRow w off.toNat k v = none) :
    decode p dlab (gpioT w k off) v = .error (.notModelledOffset (gpioT w k off)) := by
  rw [decode_gpioT ha hk]
  simp only [gpioDecode, isWrite_gpioT, bank_gpioT, off_gpioT]
  rw [← gpioRow, h]

theorem decode_iocT_register (ha : off.toNat % 4 = 0) (hr : off.toNat ∈ p.iocRegSet) :
    decode p dlab (iocT w off) v = .ok (if w then .wrIoc off v else .rdIoc off) := by
  simp [decode_iocT ha, iocDecode, hr]

theorem decode_iocT_no_register (ha : off.toNat % 4 = 0) (hr : off.toNat ∉ p.iocRegSet) :
    decode p dlab (iocT w off) v = .error (.notModelledOffset (iocT w off)) := by
  simp [decode_iocT ha, iocDecode, hr]

end

/-! ### What decodes, and to what -/

/-- `t` is the descriptor of a row of the maps, and `i` is what the row gives for it with WDATA `v`. -/
inductive Mapped (p : Params) (dlab : Bool) (v : Word) : Word → Instr → Prop
  | uart {w : Bool} {off : BitVec 12} {i : Instr} (h : uartRow w off.toNat dlab v = some i) :
    Mapped p dlab v (uartT w off) i
  | gpio {w : Bool} {k : BitVec 7} {off : BitVec 12} {i : Instr} (hk : k.toNat < p.gpioBanks)
    (h : gpioRow w off.toNat k v = some i) : Mapped p dlab v (gpioT w k off) i
  | ioc {w : Bool} {off : BitVec 12} (ha : off.toNat % 4 = 0) (hr : off.toNat ∈ p.iocRegSet) :
    Mapped p dlab v (iocT w off) (if w then .wrIoc off v else .rdIoc off)

section
variable {p : Params} {dlab : Bool} {t v : Word} {i : Instr}

theorem Mapped.decodes (m : Mapped p dlab v t i) : decode p dlab t v = .ok i := by
  cases m with
  | uart h => exact decode_uartT_row h
  | gpio hk h => exact decode_gpioT_row hk h
  | ioc ha hr => exact decode_iocT_register ha hr

/-- A descriptor that passes the checks of R303 belongs to one of the three blocks. -/
theorem block_cases (hs : t.sz = 0b10) (hr : ¬(t.blk = 0b11 ∨ t.reserved ≠ 0))
    (hb : ¬(t.blk ≠ 0b01 ∧ t.bank ≠ 0)) :
    t.blk = 0b00 ∧ t = uartT t.isWrite t.off ∨ t.blk = 0b01 ∧ t = gpioT t.isWrite t.bank t.off ∨
    t.blk = 0b10 ∧ t = iocT t.isWrite t.off := by
  obtain ⟨h3, hr⟩ := not_or.mp hr
  rw [not_ne_iff] at hr
  have hk : t.blk ≠ 0b01 → t.bank = 0 := fun h => by_contra fun hk => hb ⟨h, hk⟩
  have h4 : ∀ b : BitVec 2, b = 0b00 ∨ b = 0b01 ∨ b = 0b10 ∨ b = 0b11 := by decide
  rcases h4 t.blk with h | h | h | h
  · exact .inl ⟨h, eq_uartT hs hr h (hk (by rw [h]; decide))⟩
  · exact .inr (.inl ⟨h, eq_gpioT hs hr h⟩)
  · exact .inr (.inr ⟨h, eq_iocT hs hr h (hk (by rw [h]; decide))⟩)
  · exact absurd h h3

theorem checks_of_decode_ok (h : decode p dlab t v = .ok i) :
    t.sz = 0b10 ∧ t.off.toNat % 4 = 0 ∧ ¬(t.blk = 0b11 ∨ t.reserved ≠ 0) ∧ ¬(t.blk ≠ 0b01 ∧ t.bank ≠ 0) := by
  unfold decode at h
  split at h
  · cases h
  split at h
  · cases h
  split at h
  · cases h
  split at h
  · cases h
  rename_i hs ha hr hk
  exact ⟨not_ne_iff.mp hs, aligned_iff.mp (not_ne_iff.mp ha), hr, hk⟩

/-- The decoder gives a transaction exactly for the rows of the maps. -/
theorem decode_eq_ok_iff : decode p dlab t v = .ok i ↔ Mapped p dlab v t i := by
  refine ⟨fun h => ?_, Mapped.decodes⟩
  obtain ⟨hs, ha, hr, hb⟩ := checks_of_decode_ok h
  rcases block_cases hs hr hb with ⟨-, ht⟩ | ⟨-, ht⟩ | ⟨-, ht⟩ <;> generalize t.isWrite = w, t.off = off at ht ha
  · subst ht
    cases hrow : uartRow w off.toNat dlab v with
    | none => cases (decode_uartT_no_row ha hrow).symm.trans h
    | some j => cases (decode_uartT_row hrow).symm.trans h; exact .uart hrow
  · generalize t.bank = k at ht
    subst ht
    rcases Nat.lt_or_ge k.toNat p.gpioBanks with hk | hk
    · cases hrow : gpioRow w off.toNat k v with
      | none => cases (decode_gpioT_no_row ha hk hrow).symm.trans h
      | some j => cases (decode_gpioT_row hk hrow).symm.trans h; exact .gpio hk hrow
    · cases (decode_gpioT_absent ha hk).symm.trans h
  · subst ht
    by_cases hreg : off.toNat ∈ p.iocRegSet
    · cases (decode_iocT_register ha hreg).symm.trans h; exact .ioc ha hreg
    · cases (decode_iocT_no_register ha hreg).symm.trans h

/-- A row of the maps gives a well-formed transaction, with the row's descriptor and, for a write, WDATA. -/
theorem Mapped.encoding (m : Mapped p dlab v t i) :
    i.wf p dlab = true ∧ i.descriptor = t ∧ i.wdata = if t.isWrite then some v else none := by
  cases m with
  | uart h => rw [isWrite_uartT]; exact uartRow_some h
  | gpio hk h => rw [isWrite_gpioT]; exact gpioRow_some hk h
  | ioc ha hr => rw [isWrite_iocT]; exact iocRow_wf ha hr

/-- Every well-formed transaction stands in the maps at its own descriptor; the WDATA of a read does not matter. -/
theorem mapped_of_wf (h : i.wf p dlab = true) (v : Word) : Mapped p dlab (i.wdata.getD v) i.descriptor i := by
  cases i
  case rdRbr | wrThr | rdIer | wrIer =>
    obtain rfl : dlab = false := by simpa [Instr.wf] using h
    exact .uart rfl
  case rdDll | wrDll | rdDlh | wrDlh =>
    obtain rfl : dlab = true := h
    exact .uart rfl
  case rdDrL | wrDrL | rdDrH | wrDrH | rdDdrL | wrDdrL | rdDdrH | wrDdrH => exact .gpio (of_decide_eq_true h) rfl
  case rdIoc off =>
    obtain ⟨ha, hr⟩ : off.toNat % 4 = 0 ∧ off.toNat ∈ p.iocRegSet := by simpa [Instr.wf] using h
    exact .ioc (w := false) ha hr
  case wrIoc off v =>
    obtain ⟨ha, hr⟩ : off.toNat % 4 = 0 ∧ off.toNat ∈ p.iocRegSet := by simpa [Instr.wf] using h
    exact .ioc (w := true) ha hr
  all_goals exact .uart rfl

theorem decode_descriptor (h : i.wf p dlab = true) (v : Word) :
    decode p dlab i.descriptor (i.wdata.getD v) = .ok i := (mapped_of_wf h v).decodes

end

section
variable {p : Params} {dlab : Bool} {t v : Word} {rest : List Word}

theorem decodeWords_read (h : t.isWrite = false) :
    decodeWords p dlab (t :: rest) = some (decode p dlab t 0, rest) := by
  simp [decodeWords, h]

theorem decodeWords_write (h : t.isWrite = true) :
    decodeWords p dlab (t :: v :: rest) = some (decode p dlab t v, rest) := by
  simp [decodeWords, h]

end

/-- Settles O1: a well-formed transaction stands in the maps at its own descriptor. -/
theorem encodedTransactionDecodesBack : Obligations.EncodedTransactionDecodesBack := by
  intro p dlab i rest h
  have hd := decode_descriptor h 0
  obtain ⟨-, -, hw⟩ := (mapped_of_wf h 0).encoding
  unfold encode
  cases hv : i.descriptor.isWrite <;> rw [hv] at hw
  · have hw : i.wdata = none := hw
    rw [hw] at hd ⊢
    exact (decodeWords_read hv).trans (congrArg (fun r => some (r, rest)) hd)
  · have hw : i.wdata = some (i.wdata.getD 0) := hw
    rw [hw]
    exact (decodeWords_write hv).trans (congrArg (fun r => some (r, rest)) hd)

/-- Settles O2: what decodes stands in the maps. -/
theorem decodedWordsAreTheEncoding : Obligations.DecodedWordsAreTheEncoding := by
  intro p dlab t v i h
  obtain ⟨hwf, hd, hw⟩ := (decode_eq_ok_iff.mp h).encoding
  refine ⟨hwf, ?_⟩
  rw [encode, hd, hw]
  show _ = if t.isWrite then [t, v] else [t]
  split <;> rfl

end Sys2Proof.Proofs
end

section
/-! PROOFS. The opcode maps as the tables write them, what DLAB changes, and the reasons for which a descriptor is
refused (30_encoding.md R303 to R308, 43_uart_dw_extensions.md R558, 45_gpio_iomux.md R710, 60_exceptions.md R900,
R910). -/

namespace Sys2Proof.Proofs

open Sys2Proof.Machine Sys2Proof.Laws

/-! ### Descriptors as the tables write them: constant bits, with the operands put in by `|||` -/

theorem gpioT_or_bank (w : Bool) (k : BitVec 7) (off : BitVec 12) :
    gpioT w k off = gpioT w 0 off ||| (k.setWidth 32 <<< 20) := descriptorOf_or_bank ..

theorem uartT_or_off (w : Bool) (off : BitVec 12) : uartT w off = uartT w 0 ||| off.setWidth 32 :=
  descriptorOf_or_off ..

theorem gpioT_or_off (w : Bool) (k : BitVec 7) (off : BitVec 12) :
    gpioT w k off = gpioT w k 0 ||| off.setWidth 32 := descriptorOf_or_off ..

theorem iocT_or_off (w : Bool) (off : BitVec 12) : iocT w off = iocT w 0 ||| off.setWidth 32 :=
  descriptorOf_or_off ..

section
variable {p : Params} {w dlab : Bool} {off : BitVec 12} {k : BitVec 7} {v : Word} {i : Instr}

theorem uartRow_eq_none {n : Nat}
    (h : n ∉ [0x000, 0x004, 0x008, 0x00C, 0x010, 0x014, 0x018, 0x01C, 0x020, 0x07C, 0x088, 0x0C0]) :
    uartRow w n dlab v = none :=
  Option.isNone_iff_eq_none.mp (Option.isSome_eq_false_iff.mp ((uartRow_isSome n).trans (decide_eq_false h)))

theorem gpioRow_eq_none {n : Nat} (h : n ∉ [0x0, 0x4, 0x8, 0xC]) : gpioRow w n k v = none :=
  Option.isNone_iff_eq_none.mp (Option.isSome_eq_false_iff.mp ((gpioRow_isSome n).trans (decide_eq_false h)))

theorem decode_gpio_row (hk : k.toNat < p.gpioBanks) (h : gpioRow w off.toNat k v = some i) :
    decode p dlab (gpioT w 0 off ||| (k.setWidth 32 <<< 20)) v = .ok i := by
  rw [← gpioT_or_bank]
  exact decode_gpioT_row hk h

theorem decode_ioc_row (ha : off.toNat % 4 = 0) (hr : off.toNat ∈ p.iocRegSet) :
    decode p dlab (iocT w 0 ||| off.setWidth 32) v = .ok (if w then .wrIoc off v else .rdIoc off) := by
  rw [← iocT_or_off]
  exact decode_iocT_register ha hr

end

/-- Settles O3: each row holds a well-formed transaction (R304), a row's bank or offset is put in by `|||` (R306,
R307), and what is no row is refused. -/
theorem transactionMap : Obligations.TransactionMap := by
  intro p dlab v
  have uart : ∀ {d : Bool} (i : Instr), i.wf p d = true → decode p d i.descriptor (i.wdata.getD v) = .ok i :=
    fun i h => decode_descriptor h v
  refine ⟨uart .rdRbr rfl, uart (.wrThr v) rfl, uart .rdDll rfl, uart (.wrDll v) rfl,
    uart .rdIer rfl, uart (.wrIer v) rfl, uart .rdDlh rfl, uart (.wrDlh v) rfl,
    uart .rdIir rfl, uart (.wrFcr v) rfl, uart .rdLcr rfl, uart (.wrLcr v) rfl,
    uart .rdMcr rfl, uart (.wrMcr v) rfl, uart .rdLsr rfl, uart (.wrLsr v) rfl,
    uart .rdMsr rfl, uart (.wrMsr v) rfl, uart .rdScr rfl, uart (.wrScr v) rfl,
    uart .rdLpdll rfl, uart (.wrLpdll v) rfl, uart .rdUsr rfl, uart (.wrUsr v) rfl,
    uart .rdSrr rfl, uart (.wrSrr v) rfl, uart .rdDlf rfl, uart (.wrDlf v) rfl,
    fun w off ha hn => decode_uartT_no_row ha (uartRow_eq_none hn), fun k hk => ?_,
    fun off ha => ⟨fun hr => ?_, fun hr w => decode_iocT_no_register ha hr⟩⟩
  · have gpio : ∀ (w : Bool) (off : BitVec 12) (i : Instr), gpioRow w off.toNat k v = some i →
        decode p dlab (gpioT w 0 off ||| (k.setWidth 32 <<< 20)) v = .ok i := fun _ _ _ => decode_gpio_row hk
    exact ⟨gpio false 0x0 (.rdDrL k) rfl, gpio true 0x0 (.wrDrL k v) rfl,
      gpio false 0x4 (.rdDrH k) rfl, gpio true 0x4 (.wrDrH k v) rfl,
      gpio false 0x8 (.rdDdrL k) rfl, gpio true 0x8 (.wrDdrL k v) rfl,
      gpio false 0xC (.rdDdrH k) rfl, gpio true 0xC (.wrDdrH k v) rfl,
      fun w off ha hn => decode_gpioT_no_row ha hk (gpioRow_eq_none hn)⟩
  · exact ⟨decode_ioc_row (w := false) ha hr, decode_ioc_row (w := true) ha hr⟩

/-! ### DLAB (R305) -/

section
variable {p : Params} {t v : Word}

/-- DLAB is looked at for the rows of offsets 0x000 and 0x004 only. -/
theorem uartRow_dlab {w : Bool} {n : Nat} (h0 : n ≠ 0x000) (h4 : n ≠ 0x004) :
    uartRow w n true v = uartRow w n false v := by
  unfold uartRow uartWriteAt uartReadAt
  split <;> split <;> simp_all

theorem decode_dlab (h : ∀ w off, t = uartT w off → uartRow w off.toNat true v = uartRow w off.toNat false v) :
    decode p true t v = decode p false t v := by
  unfold decode
  split_ifs with hs ha hr hb hu
  any_goals rfl
  have ht : t = uartT t.isWrite t.off := by
    obtain ⟨-, hr⟩ := not_or.mp hr
    refine eq_uartT (not_ne_iff.mp hs) (not_ne_iff.mp hr) hu (by_contra fun hk => hb ⟨?_, hk⟩)
    rw [hu]
    decide
  have hrow := h _ _ ht
  unfold uartDecode
  rw [← uartRow, ← uartRow, hrow]

theorem Mapped.decode_ne {i j : Instr} (m : Mapped p true v t i) (n : Mapped p false v t j) (h : i ≠ j) :
    decode p true t v ≠ decode p false t v := by
  rw [m.decodes, n.decodes]
  exact fun e => h (Except.ok.inj e)

theorem decode_dlab_ne_iff :
    decode p true t v ≠ decode p false t v ↔ t ∈ [0x10000000, 0x90000000, 0x10000004, 0x90000004] := by
  constructor
  · intro hne
    by_contra hmem
    refine hne (decode_dlab fun w off ht => uartRow_dlab (fun h0 => hmem ?_) fun h4 => hmem ?_)
    · rw [ht, eq_ofNat_of_toNat_eq h0]
      cases w <;> decide
    · rw [ht, eq_ofNat_of_toNat_eq h4]
      cases w <;> decide
  · simp only [List.mem_cons, List.not_mem_nil, or_false]
    rintro (rfl | rfl | rfl | rfl)
    · exact (mapped_of_wf (i := .rdDll) rfl v).decode_ne (mapped_of_wf (i := .rdRbr) rfl v) nofun
    · exact (mapped_of_wf (i := .wrDll v) rfl v).decode_ne (mapped_of_wf (i := .wrThr v) rfl v) nofun
    · exact (mapped_of_wf (i := .rdDlh) rfl v).decode_ne (mapped_of_wf (i := .rdIer) rfl v) nofun
    · exact (mapped_of_wf (i := .wrDlh v) rfl v).decode_ne (mapped_of_wf (i := .wrIer v) rfl v) nofun

end

/-- An LCR write that takes effect replaces LCR, and keeps the parameters (41_uart_line_control.md R453). -/
theorem exec_wrLcr_unguarded {s : State} (h : s.guarded = false) (v : Word) :
    ∃ s', exec (.wrLcr v) s = .next s' ∧ s'.uart.lcr = v.setWidth 8 ∧ s'.cfg = s.cfg := by
  refine ⟨_, by simp only [exec, execWrLcr, h]; rfl, rfl, ?_⟩
  simp

/-- Settles O5: only the UART rows look at DLAB, and an LCR write that takes effect leaves its bit 7 as DLAB. -/
theorem dlabChangesOnlyBankedOffsets : Obligations.DlabChangesOnlyBankedOffsets := by
  refine ⟨fun p t v => decode_dlab_ne_iff, fun s v hg => ?_⟩
  obtain ⟨s', he, hl, hc⟩ := exec_wrLcr_unguarded (s := s) (by simp [State.guarded, hg]) v
  have hd : s'.uart.dlab = v.getLsbD 7 := by simp [Uart.dlab, hl]
  exact ⟨s', he, fun t w => by rw [← hc, ← hd]; rfl⟩

/-! ### The fields of a descriptor as numbers -/

section
variable (t : Word)

theorem toNat_sz : t.sz.toNat = t.toNat / 2 ^ 27 % 4 := by
  rw [Word.sz, BitVec.extractLsb'_toNat, Nat.shiftRight_eq_div_pow]

theorem toNat_blk : t.blk.toNat = t.toNat / 2 ^ 29 % 4 := by
  rw [Word.blk, BitVec.extractLsb'_toNat, Nat.shiftRight_eq_div_pow]

theorem toNat_bank : t.bank.toNat = t.toNat / 2 ^ 20 % 128 := by
  rw [Word.bank, BitVec.extractLsb'_toNat, Nat.shiftRight_eq_div_pow]

theorem toNat_reserved : t.reserved.toNat = t.toNat / 2 ^ 12 % 256 := by
  rw [Word.reserved, BitVec.extractLsb'_toNat, Nat.shiftRight_eq_div_pow]

theorem toNat_off : t.off.toNat = t.toNat % 4096 := by
  rw [Word.off, BitVec.extractLsb'_toNat, Nat.shiftRight_zero]

theorem toNat_off_mod : t.off.toNat % 4 = t.toNat % 4 := by
  rw [toNat_off]
  omega

end

/-! ### The reasons of R900, in the order of R910 -/

section
variable {p : Params} {dlab : Bool} {t v : Word}

theorem decode_unsupportedWidth (hs : t.sz ≠ 0b10) : decode p dlab t v = .error (.unsupportedWidth t) := if_pos hs

theorem decode_misaligned (hs : t.sz = 0b10) (ha : t.off.toNat % 4 ≠ 0) :
    decode p dlab t v = .error (.misaligned t) := by
  rw [decode, if_neg (not_not.mpr hs), if_pos (mt aligned_iff.mp ha)]

/-- Both reasons of code 3: a bad block or reserved bit, and a bank field outside the GPIO block. -/
theorem decode_reservedDescriptor (hs : t.sz = 0b10) (ha : t.off.toNat % 4 = 0)
    (h : (t.blk = 0b11 ∨ t.reserved ≠ 0) ∨ t.blk ≠ 0b01 ∧ t.bank ≠ 0) :
    decode p dlab t v = .error (.reservedDescriptor t) := by
  rw [decode, if_neg (not_not.mpr hs), if_neg (not_not.mpr (aligned_iff.mpr ha))]
  by_cases hr : t.blk = 0b11 ∨ t.reserved ≠ 0
  · rw [if_pos hr]
  · rw [if_neg hr, if_pos (h.resolve_left hr)]

end

section
variable {t v : Word} {s : State}

theorem perform_ok {i : Instr} (h : decode s.cfg s.uart.dlab t v = .ok i) : perform t v s = exec i s := by
  simp only [perform, h]

theorem perform_error {e : DecodeError} (h : decode s.cfg s.uart.dlab t v = .error e) :
    perform t v s = .refused (DecodeError.toRefusal e) := by
  simp only [perform, h]

end

theorem toRefusal_uartT (w : Bool) (off : BitVec 12) :
    DecodeError.toRefusal (.notModelledOffset (uartT w off)) = .notModelledOffset .uart off := by
  simp [DecodeError.toRefusal, uartT]

theorem toRefusal_gpioT (w : Bool) (k : BitVec 7) (off : BitVec 12) :
    DecodeError.toRefusal (.notModelledOffset (gpioT w k off)) = .notModelledOffset (.gpio k) off := by
  simp [DecodeError.toRefusal, gpioT]

theorem toRefusal_iocT (w : Bool) (off : BitVec 12) :
    DecodeError.toRefusal (.notModelledOffset (iocT w off)) = .notModelledOffset .ioc off := by
  simp [DecodeError.toRefusal, iocT]

/-- The transaction is refused for `r`, whose code in R900 is `code`. -/
def Refuses (s : State) (t v : Word) (r : Refusal) (code : Nat) : Prop :=
  perform t v s = .refused r ∧ r.code = some code

/-- The transaction decodes, and what it decodes to is performed. -/
def Performs (s : State) (t v : Word) : Prop :=
  ∃ i, decode s.cfg s.uart.dlab t v = .ok i ∧ perform t v s = exec i s

section
variable {s : State} {t v : Word} {w : Bool} {k : BitVec 7} {off : BitVec 12}

theorem Refuses.of_decode {e : DecodeError} {r : Refusal} {code : Nat} (h : decode s.cfg s.uart.dlab t v = .error e)
    (hr : DecodeError.toRefusal e = r) (hc : r.code = some code) : Refuses s t v r code :=
  ⟨hr ▸ perform_error h, hc⟩

theorem Performs.of_decode {i : Instr} (h : decode s.cfg s.uart.dlab t v = .ok i) : Performs s t v :=
  ⟨i, h, perform_ok h⟩

/-- R304, R558: the UART block. -/
theorem uart_reasons (ha : off.toNat % 4 = 0) :
    if 0x100 ≤ off.toNat then Refuses s (uartT w off) v (.unmappedAddress (.descriptor (uartT w off))) 4
    else if off.toNat ∈ [0x000, 0x004, 0x008, 0x00C, 0x010, 0x014, 0x018, 0x01C, 0x020, 0x07C, 0x088, 0x0C0] then
      Performs s (uartT w off) v
    else Refuses s (uartT w off) v (.notModelledOffset .uart off) 5 := by
  split_ifs with h100 hm
  · have hn : off.toNat ∉ [0x000, 0x004, 0x008, 0x00C, 0x010, 0x014, 0x018, 0x01C, 0x020, 0x07C, 0x088, 0x0C0] := by
      simp only [List.mem_cons, List.not_mem_nil, or_false]
      omega
    have hd := decode_uartT_no_row (p := s.cfg) ha (uartRow_eq_none (w := w) (dlab := s.uart.dlab) (v := v) hn)
    rw [if_neg (Nat.not_lt.mpr h100)] at hd
    exact .of_decode hd rfl rfl
  · have hs : (uartRow w off.toNat s.uart.dlab v).isSome = true := (uartRow_isSome _).trans (decide_eq_true hm)
    obtain ⟨i, hi⟩ := Option.isSome_iff_exists.mp hs
    exact .of_decode (decode_uartT_row hi)
  · have hd := decode_uartT_no_row (p := s.cfg) ha (uartRow_eq_none (w := w) (dlab := s.uart.dlab) (v := v) hm)
    rw [if_pos (Nat.not_le.mp h100)] at hd
    exact .of_decode hd (toRefusal_uartT w off) rfl

/-- R306, R710: the GPIO block. -/
theorem gpio_reasons (ha : off.toNat % 4 = 0) :
    if s.cfg.gpioBanks ≤ k.toNat then Refuses s (gpioT w k off) v (.unmappedAddress (.descriptor (gpioT w k off))) 4
    else if off.toNat ∈ [0x0, 0x4, 0x8, 0xC] then Performs s (gpioT w k off) v
    else Refuses s (gpioT w k off) v (.notModelledOffset (.gpio k) off) 5 := by
  split_ifs with hk hm
  · exact .of_decode (decode_gpioT_absent ha hk) rfl rfl
  · have hs : (gpioRow w off.toNat k v).isSome = true := (gpioRow_isSome _).trans (decide_eq_true hm)
    obtain ⟨i, hi⟩ := Option.isSome_iff_exists.mp hs
    exact .of_decode (decode_gpioT_row (Nat.not_le.mp hk) hi)
  · exact .of_decode (decode_gpioT_no_row ha (Nat.not_le.mp hk) (gpioRow_eq_none hm)) (toRefusal_gpioT w k off) rfl

/-- R307, R710: the IOC block. -/
theorem ioc_reasons (ha : off.toNat % 4 = 0) :
    if off.toNat ∈ s.cfg.iocRegSet then Performs s (iocT w off) v
    else Refuses s (iocT w off) v (.notModelledOffset .ioc off) 5 := by
  split_ifs with hr
  · exact .of_decode (decode_iocT_register ha hr)
  · exact .of_decode (decode_iocT_no_register ha hr) (toRefusal_iocT w off) rfl

end

/-- Settles O4: the numeric tests are those of the fields, and what passes the checks belongs to one block
(`block_cases`). -/
theorem refusalReasonsInOrder : Obligations.RefusalReasonsInOrder := by
  intro t v s n blk bank off refuses performs
  have hsz : n / 2 ^ 27 % 4 = 2 ↔ t.sz = 0b10 := by rw [← BitVec.toNat_inj, toNat_sz]; rfl
  have hal : n % 4 = 0 ↔ t.off.toNat % 4 = 0 := by rw [toNat_off_mod]
  have hres : n / 2 ^ 12 % 256 = 0 ↔ t.reserved = 0 := by rw [← BitVec.toNat_inj, toNat_reserved]; rfl
  have hb0 : blk = 0 ↔ t.blk = 0b00 := by rw [← BitVec.toNat_inj, toNat_blk]; rfl
  have hb1 : blk = 1 ↔ t.blk = 0b01 := by rw [← BitVec.toNat_inj, toNat_blk]; rfl
  have hb3 : blk = 3 ↔ t.blk = 0b11 := by rw [← BitVec.toNat_inj, toNat_blk]; rfl
  have hk0 : bank = 0 ↔ t.bank = 0 := by rw [← BitVec.toNat_inj, toNat_bank]; rfl
  have hk : bank = t.bank.toNat := (toNat_bank t).symm
  have ho : off = t.off.toNat := (toNat_off t).symm
  simp only [ne_eq, hsz, hal, hres, hb0, hb1, hb3, hk0]
  simp only [hk, ho, BitVec.ofNat_toNat, BitVec.setWidth_eq]
  by_cases hs : t.sz = 0b10
  case neg => rw [if_pos hs]; exact Refuses.of_decode (decode_unsupportedWidth hs) rfl rfl
  rw [if_neg (not_not.mpr hs)]
  by_cases ha : t.off.toNat % 4 = 0
  case neg => rw [if_pos ha]; exact Refuses.of_decode (decode_misaligned hs ha) rfl rfl
  rw [if_neg (not_not.mpr ha)]
  by_cases hr : t.blk = 0b11 ∨ t.reserved ≠ 0
  case pos => rw [if_pos hr]; exact Refuses.of_decode (decode_reservedDescriptor hs ha (.inl hr)) rfl rfl
  rw [if_neg hr]
  by_cases hb : t.blk ≠ 0b01 ∧ t.bank ≠ 0
  case pos => rw [if_pos hb]; exact Refuses.of_decode (decode_reservedDescriptor hs ha (.inr hb)) rfl rfl
  rw [if_neg hb]
  rcases block_cases hs hr hb with ⟨h, ht⟩ | ⟨h, ht⟩ | ⟨h, ht⟩
  · rw [if_pos h]
    have hu := uart_reasons (s := s) (w := t.isWrite) (v := v) ha
    rwa [← ht] at hu
  · rw [if_neg (by rw [h]; decide), if_pos h]
    have hg := gpio_reasons (s := s) (w := t.isWrite) (v := v) (k := t.bank) ha
    rwa [← ht] at hg
  · rw [if_neg (by rw [h]; decide), if_neg (by rw [h]; decide)]
    have hi := ioc_reasons (s := s) (w := t.isWrite) (v := v) ha
    rwa [← ht] at hi

end Sys2Proof.Proofs
end

section
/-! PROOFS. Every admitted transaction completes and is recorded (30_encoding.md R309, 20_memory.md R212,
60_exceptions.md R903). -/

namespace Sys2Proof.Proofs

open Sys2Proof.Machine Sys2Proof.Laws

section
variable {s : State} {i : Instr} {v : Word}

theorem readGpio_completes {k : BitVec 7} (hk : k.toNat < s.gpio.length) (off : BitVec 12) (reg : GpioBank → Half) :
    ∃ t, s.readGpio k off reg = .next t :=
  ⟨_, by simp only [State.readGpio, List.getElem?_eq_getElem hk]; rfl⟩

theorem writeGpio_completes {k : BitVec 7} (hk : k.toNat < s.gpio.length) (off : BitVec 12) (v : Word)
    (upd : GpioBank → GpioBank) : ∃ t, s.writeGpio k off v upd = .next t :=
  ⟨_, by simp only [State.writeGpio, List.getElem?_eq_getElem hk]; rfl⟩

theorem execRdRbr_completes (s : State) : ∃ t, exec .rdRbr s = .next t := by
  simp only [exec, execRdRbr]
  split <;> exact ⟨_, rfl⟩

theorem execWrLcr_completes (s : State) (v : Word) : ∃ t, exec (.wrLcr v) s = .next t := by
  simp only [exec, execWrLcr]
  split <;> exact ⟨_, rfl⟩

theorem execWrMcr_completes (h : v.getLsbD 5 = false ∧ v.getLsbD 6 = false) : ∃ t, exec (.wrMcr v) s = .next t := by
  obtain ⟨h5, h6⟩ := h
  simp only [exec, execWrMcr, h5, h6]
  exact ⟨_, rfl⟩

theorem execWrSrr_completes (s : State) (v : Word) : ∃ t, exec (.wrSrr v) s = .next t := by
  simp only [exec, execWrSrr]
  split <;> exact ⟨_, rfl⟩

/-- Only the writes of the read-only registers and of MCR bits 5 and 6 are refused; a well-formed GPIO or IOC transaction
finds its bank or register. -/
theorem exec_completes (hwf : i.wf s.cfg s.uart.dlab = true) (hg : s.gpio.length = s.cfg.gpioBanks)
    (hro : ∀ v, i ≠ .wrLsr v ∧ i ≠ .wrMsr v ∧ i ≠ .wrUsr v)
    (hmcr : ∀ v, i = .wrMcr v → v.getLsbD 5 = false ∧ v.getLsbD 6 = false) : ∃ t, exec i s = .next t := by
  cases i
  case rdRbr => exact execRdRbr_completes s
  case wrLcr v => exact execWrLcr_completes s v
  case wrMcr v => exact execWrMcr_completes (hmcr v rfl)
  case wrSrr v => exact execWrSrr_completes s v
  case wrLsr v | wrMsr v | wrUsr v =>
    obtain ⟨hlsr, hmsr, husr⟩ := hro v
    contradiction
  case rdDrL | rdDrH | rdDdrL | rdDdrH => exact readGpio_completes (hg ▸ of_decide_eq_true hwf) _ _
  case wrDrL | wrDrH | wrDdrL | wrDdrH => exact writeGpio_completes (hg ▸ of_decide_eq_true hwf) _ _ _
  case rdIoc off =>
    obtain ⟨-, hr⟩ := Bool.and_eq_true_iff.mp hwf
    exact ⟨_, if_pos hr⟩
  case wrIoc off v =>
    obtain ⟨-, hr⟩ := Bool.and_eq_true_iff.mp hwf
    exact ⟨_, if_pos hr⟩
  all_goals exact ⟨_, rfl⟩

end

/-- Settles O7, by `exec_completes`; what the entry says is `exec_records` and `exec_access`. -/
theorem admittedTransactionsComplete : Obligations.AdmittedTransactionsComplete := by
  intro s i hwf hg hro hmcr
  obtain ⟨t, ht⟩ := exec_completes hwf hg hro hmcr
  obtain ⟨x, hx, hd, hv⟩ := exec_records ht
  obtain ⟨y, hy, hl⟩ := (exec_access ht).hlog
  obtain rfl : x = y := by simpa using hx.symm.trans hl
  exact ⟨t, x, ht, hx, hy, hd, hv⟩

end Sys2Proof.Proofs
end

section
/-! PROOFS. What one host statement that performs a transaction does (30_encoding.md R303, R305, R310 to R315). -/

namespace Sys2Proof.Proofs

open Sys2Proof.Machine Sys2Proof.Laws

/-! ### Transactions of host statements -/

section
variable {a : AddrOp} {w : Bool} {t v : Word} {r : Refusal} {s : State}

theorem transact_ok (h : a.descriptor s.cfg w = .ok t) : transact a w v s = perform t v s := by
  simp only [transact, h]

theorem transact_error (h : a.descriptor s.cfg w = .error r) : transact a w v s = .refused r := by
  simp only [transact, h]

/-- A performed transaction keeps the parameters. -/
theorem perform_cfg {s' : State} (h : perform t v s = .next s') : s'.cfg = s.cfg := by
  obtain ⟨i, -, hi⟩ := perform_next h
  exact (exec_access hi).cfg

end

theorem andThen_eq_match (o : Host.Outcome State Fault Refusal) (f : State → State) :
    andThen o f = match o with
      | .next s => .next (f s)
      | .fault r => .fault r
      | .refused r => .refused r := by
  cases o <;> rfl

/-! ### A raw transaction, and where `withFetchWord` puts one (logs 9, 10) -/

theorem getElem?_putLine (x : Line) (n : Nat) (l : List Line) : (putLine x n l)[n]? = some x := by
  induction n generalizing l with
  | zero => cases l <;> rfl
  | succ n ih => cases l <;> exact ih _

section
variable {s : State} {h : Nat} {c : HostCtx} {hs : List HostCtx} {t v : Word}

theorem step_txn (r : s.Runs h c (.txn t v)) :
    step s = andThen (perform t v { s.taken with master := h }) fun s' => s'.setHost h c.advance :=
  step_of_runs r

theorem withNextTxn_runs (t v : Word) (hh : s.hosts = c :: hs) :
    (s.withNextTxn t v).Runs 0 (c.withNext { stmt := .txn t v }) (.txn t v) where
  event := rfl
  host := by simp [State.withNextTxn, hh]
  alive := rfl
  atPc := ⟨none, getElem?_putLine ..⟩

theorem withNextTxn_taken (t v : Word) (hh : s.hosts = c :: hs) :
    (s.withNextTxn t v).taken = { s with hosts := s.hosts.set 0 (c.withNext { stmt := .txn t v }) } := by
  simp [State.withNextTxn, State.taken, hh]

end

/-- Settles O35, by `step_of_runs`. -/
theorem stepRunsDecodedTransaction : Obligations.StepRunsDecodedTransaction := by
  refine ⟨fun s h c t v r => ⟨fun i hi => ?_, fun e he => ?_⟩, fun s nbits w hne => ?_⟩
  · rw [step_txn r, perform_ok (by simpa using hi), andThen_eq_match]
    rfl
  · rw [step_txn r, perform_error (by simpa using he)]
    rfl
  · obtain ⟨c, hs, hh⟩ := List.exists_cons_of_ne_nil hne
    exact ⟨_, withNextTxn_runs _ _ hh, withNextTxn_taken _ _ hh⟩

/-! ### `rd` and `wr` -/

section
variable {s : State} {h : Nat} {c : HostCtx} {a : AddrOp} {x : Var} {e : UExpr} {v : Word}

theorem step_rd (r : s.Runs h c (.rd x a)) :
    step s = andThen (transact a false 0 { s.taken with master := h }) fun s' =>
      s'.setHost h (c.assign x (.u32 s'.rdata)).advance :=
  step_of_runs r

theorem step_wr (r : s.Runs h c (.wr a e)) (hv : e.eval c.vars = .ok v) :
    step s = andThen (transact a true v { s.taken with master := h }) fun s' => s'.setHost h c.advance := by
  rw [step_of_runs r]
  simp only [stmtStep, hv]

theorem step_wr_error {y : ArgError} (r : s.Runs h c (.wr a e)) (hv : e.eval c.vars = .error y) :
    step s = .refused (.argOutOfRange (.wr a e) y) := by
  rw [step_of_runs r]
  simp only [stmtStep, hv]

end

section
variable (w : Bool) (k : BitVec 7) (off : BitVec 12)

theorem uartT_eq_or : uartT w off = (if w then 0x90000000 else 0x10000000 : Word) ||| off.setWidth 32 := by
  rw [uartT_or_off]
  cases w <;> rfl

theorem gpioT_eq_or :
    gpioT w k off = (if w then 0xB0000000 else 0x30000000 : Word) ||| (k.setWidth 32 <<< 20) ||| off.setWidth 32 := by
  rw [gpioT_or_off, gpioT_or_bank]
  cases w <;> rfl

theorem iocT_eq_or : iocT w off = (if w then 0xD0000000 else 0x50000000 : Word) ||| off.setWidth 32 := by
  rw [iocT_or_off]
  cases w <;> rfl

end

theorem descriptor_absolute {p : Params} {w : Bool} {addr : Nat} {b : Block} {off : BitVec 12}
    (h : target p addr = some (b, off)) : (AddrOp.absolute addr).descriptor p w = .ok (b.descriptor w off) := by
  simp only [AddrOp.descriptor, h]

theorem descriptor_absolute_unmapped {p : Params} {w : Bool} {addr : Nat} (h : target p addr = none) :
    (AddrOp.absolute addr).descriptor p w = .error (.unmappedAddress (.address addr)) := by
  simp only [AddrOp.descriptor, h]

/-- Settles O36: `step_rd` and `step_wr` for the statements, then the descriptors. -/
theorem readAndWriteStatements : Obligations.ReadAndWriteStatements := by
  refine ⟨fun s h c a => ⟨fun x r => ⟨fun y hd => ?_, fun t hd => ?_⟩, fun e r => ⟨fun y hv => step_wr_error r hv,
    fun v hv => ⟨fun y hd => ?_, fun t hd => ?_⟩⟩⟩, fun p w off k => ⟨?_, ?_, ?_, fun addr => ⟨?_, ?_, ?_, ?_⟩⟩⟩
  · rw [step_rd r, transact_error (by simpa using hd)]
    rfl
  · rw [step_rd r, transact_ok (by simpa using hd), andThen_eq_match]
    rfl
  · rw [step_wr r hv, transact_error (by simpa using hd)]
    rfl
  · rw [step_wr r hv, transact_ok (by simpa using hd), andThen_eq_match]
    rfl
  · exact congrArg Except.ok (uartT_eq_or w off)
  · exact congrArg Except.ok (gpioT_eq_or w k off)
  · exact congrArg Except.ok (iocT_eq_or w off)
  · exact fun ht => descriptor_absolute ht
  · exact fun ht => descriptor_absolute ht
  · exact fun ht => descriptor_absolute ht
  · exact fun ht => descriptor_absolute_unmapped ht

/-! ### Masks (R315, R317) -/

section
variable {vars : List (Nat × Val)} {c : HostCtx} {x : Var} {m : UExpr} {w mask : Word} {y : ArgError}

/-- A variable never fails: it enters as `trunc_32` of what it holds (log 19). -/
theorem eval_var (vars : List (Nat × Val)) (x : Var) :
    (UExpr.var x).eval vars = .ok (BitVec.ofNat 32 (getVar vars x).toNat) := rfl

theorem eval_and (vars : List (Nat × Val)) (a b : UExpr) :
    (UExpr.and a b).eval vars = both (a.eval vars) (b.eval vars) fun m n => .ok (m &&& n) := rfl

theorem maskedZero_ok (hw : (UExpr.var x).eval c.vars = .ok w) (hm : m.eval c.vars = .ok mask) :
    maskedZero c x m = .ok (w &&& mask == 0) := by
  rw [maskedZero, eval_and, hw, hm]
  rfl

theorem maskedZero_error (hm : m.eval c.vars = .error y) : maskedZero c x m = .error y := by
  rw [maskedZero, eval_and, eval_var, hm]
  rfl

theorem getVar_setVar_same (h : sparseWf (.u32 0) vars = true) (x : Var) (v : Val) :
    getVar (setVar x v vars) x = v := sparseGet_sparseSet_same _ _ _ h

theorem eval_var_setVar_u32 (h : sparseWf (.u32 0) vars = true) (x : Var) (w : Word) :
    (UExpr.var x).eval (setVar x (.u32 w) vars) = .ok w := by
  rw [eval_var, getVar_setVar_same h]
  simp [Val.toNat]

end

/-! ### `poll` (R315) -/

section
variable {s s' : State} {h : Nat} {c : HostCtx} {x : Var} {a : AddrOp} {m : UExpr}

theorem step_poll_refused {e : Refusal} (r : s.Runs h c (.poll x a m))
    (ht : transact a false 0 { s.taken with master := h } = .refused e) : step s = .refused e := by
  rw [step_of_runs r]
  simp only [stmtStep, ht]

theorem step_poll_next (r : s.Runs h c (.poll x a m))
    (ht : transact a false 0 { s.taken with master := h } = .next s') : step s = afterPollRead h c x a m s' := by
  rw [step_of_runs r]
  simp only [stmtStep, ht]

theorem afterPollRead_error {y : ArgError} (hm : m.eval (setVar x (.u32 s'.rdata) c.vars) = .error y) :
    afterPollRead h c x a m s' = .refused (.argOutOfRange (.poll x a m) y) := by
  have hz : maskedZero (c.assign x (.u32 s'.rdata)) x m = .error y := maskedZero_error hm
  simp only [afterPollRead, hz]

theorem afterPollRead_ok {mask : Word} (hw : sparseWf (.u32 0) c.vars = true)
    (hm : m.eval (setVar x (.u32 s'.rdata) c.vars) = .ok mask) :
    afterPollRead h c x a m s' =
      .next (s'.setHost h (pollNext s'.cfg.pollBound (s'.rdata &&& mask == 0) (c.assign x (.u32 s'.rdata)))) := by
  have hz : maskedZero (c.assign x (.u32 s'.rdata)) x m = .ok (s'.rdata &&& mask == 0) :=
    maskedZero_ok (eval_var_setVar_u32 hw x _) hm
  simp only [afterPollRead, hz]

/-- A masked bit was set: the poll is left. -/
theorem pollNext_set (bound : Option Nat) {w : Word} (hw : w ≠ 0) (c : HostCtx) :
    pollNext bound (w == 0) c = { c with pc := c.pc + 1, polls := 0 } := by
  rw [beq_eq_false_iff_ne.mpr hw]
  rfl

/-- No masked bit was set and there is no bound: the poll stays. -/
theorem pollNext_unbounded (c : HostCtx) : pollNext none ((0 : Word) == 0) c = c := rfl

/-- No masked bit was set: under a bound the poll stays until its last read, which leaves with TIMEOUT set. -/
theorem pollNext_bounded (n : Nat) (c : HostCtx) : pollNext (some n) ((0 : Word) == 0) c =
    if c.polls + 1 < n then { c with polls := c.polls + 1 }
    else { c with vars := setVar timeoutVar (.u32 1) c.vars, pc := c.pc + 1, polls := 0 } := by
  by_cases hn : c.polls + 1 < n
  · simp [pollNext, hn, Nat.not_le.mpr hn]
  · simp [pollNext, hn, Nat.not_lt.mp hn, HostCtx.advance, HostCtx.assign]

end

/-- Settles O37: the read (`step_poll_next`), then the mask (`afterPollRead_ok`), then where the poll goes on. -/
theorem pollReadsUntilBitSet : Obligations.PollReadsUntilBitSet := by
  intro s h c x a m r
  refine ⟨fun y hd => step_poll_refused r (transact_error (by simpa using hd)), fun t hd => ?_⟩
  have htr : transact a false 0 { s.taken with master := h } = perform t 0 { s.taken with master := h } :=
    transact_ok (by simpa using hd)
  refine ⟨fun y hp => step_poll_refused r (htr.trans hp), ?_⟩
  intro s' hp vars hw
  have hcfg : s'.cfg = s.cfg := (perform_cfg hp).trans (taken_cfg s)
  rw [step_poll_next r (htr.trans hp)]
  refine ⟨fun y hm => afterPollRead_error hm, fun mask hm => ?_⟩
  rw [afterPollRead_ok hw hm, ← hcfg]
  by_cases hz : s'.rdata &&& mask = 0
  · rw [if_neg (not_not.mpr hz), hz]
    cases s'.cfg.pollBound with
    | none => rw [pollNext_unbounded]; rfl
    | some n => rw [pollNext_bounded]; rfl
  · rw [if_pos hz, pollNext_set _ hz]
    rfl

end Sys2Proof.Proofs
end

section
/-! PROOFS. What one host statement that performs no transaction does (30_encoding.md R311, R312, R316 to R319). -/

namespace Sys2Proof.Proofs

open Sys2Proof.Machine Sys2Proof.Laws

/-! ### The step of such a statement -/

section
variable {s : State} {h : Nat} {c c' : HostCtx} {st : Stmt}

theorem setHost_taken (s : State) (h : Nat) (c : HostCtx) :
    ({ s.taken with master := h } : State).setHost h c = { s.taken with master := h, hosts := s.hosts.set h c } := by
  simp [State.setHost]

/-- The step of a statement that changes only its host; what it does may depend on the parameters. -/
theorem step_goes (r : s.Runs h c st) (hs : ∀ s', s'.cfg = s.cfg → stmtStep h c st s' = .next (s'.setHost h c')) :
    step s = .next { s.taken with master := h, hosts := s.hosts.set h c' } := by
  rw [← setHost_taken]
  exact (step_of_runs r).trans (hs _ (taken_cfg s))

theorem step_refuses {e : Refusal} (r : s.Runs h c st) (hs : ∀ s', s'.cfg = s.cfg → stmtStep h c st s' = .refused e) :
    step s = .refused e :=
  (step_of_runs r).trans (hs _ (taken_cfg s))

end

/-! ### `let` and branches (R316 to R318) -/

section
variable {s : State} {h : Nat} {c : HostCtx} {x : Var} {m : UExpr} {l : Label} {w mask : Word}

theorem branch_ok {n : Nat} (hl : labelIndex l c.body = some n) (s : State) :
    branch h c l s = .next (s.setHost h { c with pc := n }) := by
  simp only [branch, hl]

theorem branch_missing (hl : labelIndex l c.body = none) (s : State) :
    branch h c l s = .refused (.unformedProgram (some l)) := by
  simp only [branch, hl]

theorem stmtStep_bz (hw : (UExpr.var x).eval c.vars = .ok w) (hm : m.eval c.vars = .ok mask) (s : State) :
    stmtStep h c (.bz x m l) s = if w &&& mask = 0 then branch h c l s else .next (s.setHost h c.advance) := by
  simp only [stmtStep, maskedZero_ok hw hm, beq_iff_eq]

theorem stmtStep_bnz (hw : (UExpr.var x).eval c.vars = .ok w) (hm : m.eval c.vars = .ok mask) (s : State) :
    stmtStep h c (.bnz x m l) s = if w &&& mask = 0 then .next (s.setHost h c.advance) else branch h c l s := by
  simp only [stmtStep, maskedZero_ok hw hm, beq_iff_eq]

end

/-- The step of a statement that branches to `l`: control goes to the label's statement, if there is one. -/
theorem step_jumps {s : State} {h : Nat} {c : HostCtx} {st : Stmt} {l : Label} (r : s.Runs h c st)
    (hs : ∀ s', stmtStep h c st s' = branch h c l s') :
    (∀ n, labelIndex l c.body = some n →
      step s = .next { s.taken with master := h, hosts := s.hosts.set h { c with pc := n } }) ∧
    (labelIndex l c.body = none → step s = .refused (.unformedProgram (some l))) :=
  ⟨fun _ hl => step_goes r fun s' _ => (hs s').trans (branch_ok hl s'),
    fun hl => step_refuses r fun s' _ => (hs s').trans (branch_missing hl s')⟩

/-- A program with a branch to a label that is not there is not formed, and such a label is named. -/
theorem load_missing_label {prog : List Line} {x : Line} {l : Label} (hx : x ∈ prog) (hl : l ∈ x.stmt.targets)
    (hi : labelIndex l prog = none) (s : State) (h : Nat) :
    ∃ l', s.load h prog = .refused (.unformedProgram (some l')) ∧ labelIndex l' prog = none ∧
      ∃ y ∈ prog, l' ∈ y.stmt.targets := by
  have hf : formed prog ≠ true := by
    intro hf
    simp only [formed, Bool.and_eq_true, List.all_eq_true] at hf
    obtain ⟨hlines, -⟩ := hf
    obtain ⟨-, htargets⟩ := hlines x hx
    have hs := htargets l hl
    rw [hi] at hs
    cases hs
  have hsome : (missingLabel prog).isSome = true := by
    rw [missingLabel, List.find?_isSome]
    exact ⟨l, List.mem_flatMap.mpr ⟨x, hx, hl⟩, by simp [hi]⟩
  obtain ⟨l', hl'⟩ := Option.isSome_iff_exists.mp hsome
  refine ⟨l', by rw [State.load, if_neg hf, hl'], ?_, ?_⟩
  · simpa using List.find?_some hl'
  · exact List.mem_flatMap.mp (List.mem_of_find?_eq_some hl')

/-- Settles O38, statement by statement; the branches by `step_jumps`. -/
theorem letAndBranchStatements : Obligations.LetAndBranchStatements := by
  refine ⟨?_, fun vars x => ⟨fun w hv => ?_, fun n hv => ?_, _, rfl, rfl⟩, fun s h prog => ⟨fun hf => if_pos hf,
    fun x hx l hl hi => load_missing_label hx hl hi s h⟩⟩
  · intro s h c goes refuses jumps
    refine ⟨fun x e r => ⟨fun w hv => ?_, fun y hv => ?_⟩, fun x e r => ⟨fun n hv => ?_, fun y hv => ?_⟩,
      fun x m l r => ⟨fun w mask hw hm => ⟨fun hz => ?_, fun hz => ?_⟩, fun y hm => ?_⟩,
      fun x m l r => ⟨fun w mask hw hm => ⟨fun hz => ?_, fun hz => ?_⟩, fun y hm => ?_⟩, fun l r => ?_⟩
    · exact step_goes r fun s' _ => by simp only [stmtStep, hv]; rfl
    · exact step_refuses r fun s' _ => by simp only [stmtStep, hv]
    · exact step_goes r fun s' _ => by simp only [stmtStep, hv]; rfl
    · exact step_refuses r fun s' _ => by simp only [stmtStep, hv]
    · exact step_jumps r fun s' => (stmtStep_bz hw hm s').trans (if_pos hz)
    · exact step_goes r fun s' _ => (stmtStep_bz hw hm s').trans (if_neg hz)
    · exact step_refuses r fun s' _ => by simp only [stmtStep, maskedZero_error hm]
    · exact step_jumps r fun s' => (stmtStep_bnz hw hm s').trans (if_neg hz)
    · exact step_goes r fun s' _ => (stmtStep_bnz hw hm s').trans (if_pos hz)
    · exact step_refuses r fun s' _ => by simp only [stmtStep, maskedZero_error hm]
    · exact step_jumps r fun s' => rfl
  · simp [UExpr.eval, NExpr.eval, hv, Val.toNat]
  · simp [UExpr.eval, NExpr.eval, hv, Val.toNat]

/-! ### `ret`, `halt` and the end of a program (R311, R312, R319) -/

section
variable {s : State} {h : Nat} {c : HostCtx}

/-- A host that has run past its last statement halts. -/
theorem step_past_end (he : s.nextEvent = .agent (.host h)) (hh : s.hosts[h]? = some c) (ha : c.halted = false)
    (hb : c.body[c.pc]? = none) :
    step s = .next { s.taken with hosts := s.hosts.set h { c with halted := true } } := by
  simp [step, he, runEvent, hostStep, hh, ha, hb, State.setHost]

/-- A halted host takes no step (log 1). -/
theorem step_halted (he : s.nextEvent = .agent (.host h)) (hh : s.hosts[h]? = some c) (ha : c.halted = true) :
    step s = .next s.taken := by
  simp [step, he, runEvent, hostStep, hh, ha]

theorem doReturn_top (v : Option Val) (hc : c.callers = []) :
    c.doReturn v = { c with halted := true, result := v } := by
  simp [HostCtx.doReturn, hc]

/-- The context of a caller once its call has returned (R319, logs 12, 29). -/
theorem doReturn_called {k : Caller} {rest : List Caller} (v : Option Val) (hc : c.callers = k :: rest) :
    let vars := carryTimeout (getVar c.vars timeoutVar) k.vars
    let c' := c.doReturn v
    c'.body = k.body ∧ c'.pc = k.pc ∧ c'.callers = rest ∧ c'.halted = c.halted ∧ c'.result = c.result ∧
      (∀ x y, k.dst = some x → v = some y → c'.vars = setVar x y vars) ∧
      (k.dst = none ∨ v = none → c'.vars = vars) := by
  simp only [HostCtx.doReturn, hc]
  refine ⟨trivial, trivial, trivial, trivial, trivial, fun x y hx hy => by rw [hx, hy], ?_⟩
  rintro (hk | hv)
  · rw [hk]
    cases v <;> rfl
  · rw [hv]
    cases k.dst <;> rfl

end

section
variable {v : Val} {vars : List (Nat × Val)}

/-- TIMEOUT is carried over, and no other variable is touched (logs 12, 17). -/
theorem getVar_carryTimeout (h : sparseWf (.u32 0) vars = true) : getVar (carryTimeout v vars) timeoutVar = v := by
  unfold carryTimeout
  split
  · assumption
  · exact getVar_setVar_same h _ _

theorem getVar_carryTimeout_other {x : Var} (hx : x ≠ timeoutVar) : getVar (carryTimeout v vars) x = getVar vars x := by
  unfold carryTimeout
  split
  · rfl
  · exact getVar_setVar_other hx _ _

end

/-- Settles O39: a `ret` does what `doReturn` does. -/
theorem returnAndHaltStatements : Obligations.ReturnAndHaltStatements := by
  refine ⟨fun s h c => ⟨fun a v r hv => ?_, fun a y r hv => ?_, fun r => ?_, step_past_end, step_halted⟩,
    fun v vars hw => ⟨getVar_carryTimeout hw, fun x hx => getVar_carryTimeout_other hx⟩⟩
  · have hs : step s = .next { s.taken with master := h, hosts := s.hosts.set h (c.doReturn v) } :=
      step_goes r fun s' _ => by simp only [stmtStep, hv]
    refine ⟨fun hc => by rw [hs, doReturn_top v hc], ?_⟩
    intro k rest hc vars
    have hret := doReturn_called v hc
    rw [r.alive] at hret
    exact ⟨_, hs, hret⟩
  · exact step_refuses r fun s' _ => by simp only [stmtStep, hv]
  · exact step_goes r fun s' _ => rfl

end Sys2Proof.Proofs
end

section
/-! PROOFS. What a procedure call checks before it enters the body (30_encoding.md R320, 46_driver_procedures.md R800 to
R811, 60_exceptions.md R900, R901). -/

namespace Sys2Proof.Proofs

open Sys2Proof.Machine Sys2Proof.Laws

/-! ### The address a write-mask procedure writes (R800, R807, log 44) -/

section
variable {p : Params} {vars : List (Nat × Val)} {a b : NExpr} {m n : Nat}

theorem checkMaskTarget_none {x : Nat} (h : target p n = none) : checkMaskTarget p x n = .error (.unmapped n) := by
  simp only [checkMaskTarget, h]

theorem checkMaskTarget_uart {x : Nat} {off : BitVec 12} (h : target p n = some (.uart, off)) :
    checkMaskTarget p x n = .error (.arg (.uartTarget x)) := by
  simp only [checkMaskTarget, h]

/-! ### The body of a call whose argument expressions have values -/

theorem body_bitRangeMask (ha : a.eval vars = .ok m) (hb : b.eval vars = .ok n) :
    (Proc.bitRangeMask a b).body p vars =
      if n ≤ m ∧ m ≤ 31 then .ok (bitRangeMaskBody m n) else .error (.arg (.bitRange m n)) := by
  simp only [Proc.body, ha, hb]
  rfl

theorem body_computeDivisor (ha : a.eval vars = .ok m) (hb : b.eval vars = .ok n) :
    (Proc.computeDivisor a b).body p vars =
      if n = 0 then .error (.arg .baudZero) else .ok (computeDivisorBody m n) := by
  simp only [Proc.body, ha, hb]
  rfl

theorem body_initUart (ha : a.eval vars = .ok m) (hb : b.eval vars = .ok n) :
    (Proc.initUart a b).body p vars = if n = 0 then .error (.arg .baudZero) else .ok (initUartBody p m n) := by
  simp only [Proc.body, ha, hb]
  rfl

theorem body_gpioSetOutput (ha : a.eval vars = .ok m) (hb : b.eval vars = .ok n) (level : Bool) :
    (Proc.gpioSetOutput a b level).body p vars =
      if 31 < n then .error (.arg (.pin n))
      else (bankOperand p m).bind fun bank => .ok (gpioSetOutputBody bank n level) := by
  simp only [Proc.body, ha, hb]
  rfl

theorem body_gpioClearAll (ha : a.eval vars = .ok m) :
    (Proc.gpioClearAll a).body p vars = (bankOperand p m).bind fun bank => .ok (gpioClearAllBody bank) := by
  simp only [Proc.body, ha]
  rfl

theorem body_clearThenSet {x y : UExpr} {u w : Word} (ha : a.eval vars = .ok m) (hx : x.eval vars = .ok u)
    (hy : y.eval vars = .ok w) : (Proc.clearThenSet a x y).body p vars =
      (checkMaskTarget p m m).bind fun _ => .ok (clearThenSetBody m u w) := by
  simp only [Proc.body, ha, hx, hy]
  rfl

theorem body_iomuxUart7M2 (ha : a.eval vars = .ok m) : (Proc.iomuxUart7M2 a).body p vars =
    (checkMaskTarget p m (m + 0x02C)).bind fun _ => .ok (iomuxUart7M2Body m) := by
  simp only [Proc.body, ha]
  rfl

theorem body_pinMuxRoute {x y e f g i : UExpr} {u w u' w' u'' w'' : Word} (ha : a.eval vars = .ok m)
    (hx : x.eval vars = .ok u) (hy : y.eval vars = .ok w) (he : e.eval vars = .ok u') (hf : f.eval vars = .ok w')
    (hg : g.eval vars = .ok u'') (hi : i.eval vars = .ok w'') : (Proc.pinMuxRoute a x y e f g i).body p vars =
      (checkMaskTarget p m (m + 0x02C)).bind fun _ => .ok (pinMuxRouteBody m u w u' w' u'' w'') := by
  simp only [Proc.body, ha, hx, hy, he, hf, hg, hi]
  rfl

end

theorem one_shiftLeft (k : Nat) : ((1 <<< k : Nat) : Word) = BitVec.ofNat 32 (2 ^ k) := by
  rw [Nat.shiftLeft_eq, one_mul]
  rfl

/-- The body of `gpio_set_output` at the absolute addresses above `m` (log 15). -/
theorem gpioSetOutputBody_absolute (m n : Nat) (level : Bool) :
    gpioSetOutputBody (fun off => .absolute (m + off.toNat)) n level =
      let half := if 16 ≤ n then 0x4 else 0x0
      let one : Word := BitVec.ofNat 32 (2 ^ (n % 16))
      unlabelled [.wr (.absolute (m + (0x8 + half))) (.lit (one ||| one <<< 16)),
        .wr (.absolute (m + half)) (.lit ((if level then one else 0) ||| one <<< 16)), .ret .nothing] := by
  simp only [gpioSetOutputBody, one_shiftLeft]
  split <;> rfl

/-- Settles O40: the step by what the body is, and the body by what its arguments are. -/
theorem callChecksArguments : Obligations.CallChecksArguments := by
  refine ⟨fun s h c dst p r => ⟨fun b hb => ?_, fun y hb => ?_, fun addr hb => ?_⟩, fun p vars a b m n ha hb => ?_⟩
  · exact step_goes r fun s' hc => by simp only [stmtStep, hc, hb]; rfl
  · exact step_refuses r fun s' hc => by simp only [stmtStep, hc, hb]; rfl
  · exact step_refuses r fun s' hc => by simp only [stmtStep, hc, hb]; rfl
  refine ⟨fun hr => ?_, fun hn => ⟨?_, ?_⟩, fun hn level => ?_, fun ht => ⟨?_, fun hn level => ?_⟩,
    fun hm ht => ⟨?_, fun hn level => ?_⟩, fun ht => ?_, fun off ht => ?_,
    fun x y u w hx hy => ⟨fun ht => ?_, fun off ht => ?_,
      fun e f g i u' w' u'' w'' he hf hg hi => ⟨fun ht => ?_, fun off ht => ?_⟩⟩⟩
  · rw [body_bitRangeMask ha hb, if_neg hr]
  · rw [body_computeDivisor ha hb, if_pos hn]
  · rw [body_initUart ha hb, if_pos hn]
  · rw [body_gpioSetOutput ha hb, if_pos hn]
  · rw [body_gpioClearAll ha, bankOperand_unmapped ht]
    rfl
  · rw [body_gpioSetOutput ha hb, if_neg (Nat.not_lt.mpr hn), bankOperand_unmapped ht]
    rfl
  · rw [body_gpioClearAll ha, bankOperand_absolute hm ht]
    rfl
  · rw [body_gpioSetOutput ha hb, if_neg (Nat.not_lt.mpr hn), bankOperand_absolute hm ht]
    exact congrArg Except.ok (gpioSetOutputBody_absolute m n level)
  · rw [body_iomuxUart7M2 ha, checkMaskTarget_none ht]
    rfl
  · rw [body_iomuxUart7M2 ha, checkMaskTarget_uart ht]
    rfl
  · rw [body_clearThenSet ha hx hy, checkMaskTarget_none ht]
    rfl
  · rw [body_clearThenSet ha hx hy, checkMaskTarget_uart ht]
    rfl
  · rw [body_pinMuxRoute ha hx hy he hf hg hi, checkMaskTarget_none ht]
    rfl
  · rw [body_pinMuxRoute ha hx hy he hf hg hi, checkMaskTarget_uart ht]
    rfl

end Sys2Proof.Proofs
end

section
/-! PROOFS. What the transactions at the banked offsets, and the reads of stored registers, do (40_uart_banked.md R400 to
R408). -/

namespace Sys2Proof.Proofs

open Sys2Proof.Machine Sys2Proof.Laws

/-! ### What a completed access leaves -/

section
variable (s : State) (b : Block) (off : BitVec 12) (v : Word)

theorem readOk_eq_afterRead : s.readOk b off v = .next (s.afterRead b off v) := rfl

theorem readStored_eq_afterRead (r : Byte) :
    s.readStored off r = .next (s.afterRead .uart off (r.setWidth 32)) := rfl

theorem writeUart_eq_afterWrite (u : Uart) :
    s.writeUart off v u = .next ({ s with uart := u }.afterWrite .uart off v) := rfl

end

theorem setWidth_eq_lowByte (v : Word) : v.setWidth 8 = v.extractLsb' 0 8 :=
  BitVec.setWidth_eq_extractLsb' (by decide)

/-! ### RBR and THR (R400, R401) -/

/-- A pop reveals the errors of the new head, if there is one (44_uart_engines.md R608). -/
theorem popRx_eq (q : List RxEntry) (u : Uart) :
    popRx q u = { u with
      rxq := q
      timeoutIp := false
      peS := u.peS || q.head?.any RxEntry.pe
      feS := u.feS || q.head?.any RxEntry.fe
      biS := u.biS || q.head?.any RxEntry.bi } := by
  cases q with
  | nil => simp [popRx]
  | cons e q => rfl

/-- Settles O8: the read takes the branch of its queue; the free bits are draws, and the counter of draws moves on. -/
theorem rbrReadPopsOldestCharacter : Obligations.RbrReadPopsOldestCharacter := by
  refine fun s => ⟨fun e q hq => ⟨s.draw 0 24, s.draws + 1, ?_⟩, fun hq => ⟨s.draw 0 24 ++ s.draw 1 8, s.draws + 2, ?_⟩⟩
  · simp only [exec, execRdRbr, hq, popRx_eq, readOk_eq_afterRead]
    rfl
  · simp only [exec, execRdRbr, hq, readOk_eq_afterRead]
    rfl

/-- The three cases of `enqueueTx_cases`, tried in order. -/
theorem enqueueTx_eq (p : Params) (b : Byte) (u : Uart) :
    enqueueTx p b u = { u with
      threIp := false
      txq := if u.txq.length < txcap p u then u.txq ++ [b] else if u.fifoe then u.txq else [b] } := by
  rcases enqueueTx_cases p b u with ⟨hl, he⟩ | ⟨hl, hf, he⟩ | ⟨hl, hf, he⟩
  · rw [he, if_pos hl]
  · rw [he, if_neg (Nat.not_lt.mpr hl), if_pos hf]
  · rw [he, if_neg (Nat.not_lt.mpr hl), if_neg (Bool.not_eq_true _ ▸ hf)]

/-- Settles O9, by `enqueueTx_eq`. -/
theorem thrWriteQueuesCharacter : Obligations.ThrWriteQueuesCharacter := by
  intro s v
  simp only [exec, execWrThr, writeUart_eq_afterWrite, enqueueTx_eq, setWidth_eq_lowByte]
  rfl

/-! ### Reads of stored registers (R402, R404, R406, R452, R500, R506, R550, R554, R556) -/

/-- MCR is stored in its seven implemented bits and read through a byte (R500). -/
theorem execRdMcr_eq_afterRead (s : State) :
    execRdMcr s = .next (s.afterRead .uart 0x010 (s.uart.mcr.setWidth 32)) := by
  rw [execRdMcr, readStored_eq_afterRead, BitVec.setWidth_setWidth (by decide)]

/-- Settles O10: each read is `readStored` of its register, and the descriptors are those of `decode_descriptor`. -/
theorem storedRegisterReads : Obligations.StoredRegisterReads := fun s v =>
  ⟨fun h => decode_descriptor (i := .rdDll) h v, readStored_eq_afterRead .., readStored_eq_afterRead ..,
    fun h => decode_descriptor (i := .rdDlh) h v, readStored_eq_afterRead .., readStored_eq_afterRead ..,
    execRdMcr_eq_afterRead s, readStored_eq_afterRead ..,
    decode_descriptor (i := .rdLpdll) rfl v, readStored_eq_afterRead ..,
    decode_descriptor (i := .rdSrr) rfl v, readStored_eq_afterRead .., readStored_eq_afterRead ..⟩

/-! ### Divisor latches and IER (R403, R405, R407, R408) -/

/-- Settles O11: receiver activity is the draw that the busy guard uses, if it uses one (R408). -/
theorem divisorLatchWrites : Obligations.DivisorLatchWrites := by
  refine fun s v => ⟨(s.draw 0 1).getLsbD 0, s.draws + s.guardDraws, ?_⟩
  simp only [exec, execWrDll, execWrDlh, writeUart_eq_afterWrite, setWidth_eq_lowByte]
  exact ⟨rfl, rfl⟩

/-- ETBEI is among the implemented bits whatever the parameters (10_state.md R105). -/
theorem ierMask_etbei (p : Params) : (ierMask p).getLsbD 1 = true := by
  rw [ierMask]
  split <;> rfl

/-- When a write of IER raises THRE_IP (R405): ETBEI goes from 0 to 1 while no character is queued. -/
theorem etbeiEnabled_iff (s : State) (v : Word) :
    (!s.uart.ier.getLsbD 1 && (v.setWidth 8 &&& ierMask s.cfg).getLsbD 1 && s.uart.txq.isEmpty) = true ↔
      s.uart.ier.getLsbD 1 = false ∧ v.getLsbD 1 = true ∧ s.uart.txq = [] := by
  rw [BitVec.getLsbD_and, ierMask_etbei, BitVec.getLsbD_setWidth]
  simp [and_assoc]

/-- Settles O12, by `etbeiEnabled_iff`: the latch `or` the condition is `true` under it and the latch otherwise. -/
theorem ierWriteReplacesRegister : Obligations.IerWriteReplacesRegister := by
  intro s v
  simp only [exec, execWrIer, writeUart_eq_afterWrite, ← etbeiEnabled_iff, Bool.if_true_left, Bool.decide_eq_true,
    Bool.or_comm s.uart.threIp, setWidth_eq_lowByte]
  rfl

end Sys2Proof.Proofs
end

section
/-! PROOFS. What the transactions at the offsets of IIR, FCR and LCR do (41_uart_line_control.md R450 to R453). -/

namespace Sys2Proof.Proofs

open Sys2Proof.Machine Sys2Proof.Laws

/-! ### IIR (R450) -/

/-- The two FIFOSE bits stand above the six of `00` and the identification (10_state.md R112). -/
theorem iir_toNat (p : Params) (u : Uart) :
    (iir p u).toNat = (if u.fifoe then 0xC0 else 0x00) + (iid p u).toNat := by
  have hlow : ((0b00 : BitVec 2) ++ iid p u).toNat = (iid p u).toNat := by
    rw [BitVec.toNat_append]; simp
  have hroom : (iid p u).toNat < 2 ^ (2 + 4) := by omega
  rw [iir, BitVec.toNat_append, hlow, ← Nat.shiftLeft_add_eq_or_of_lt hroom]
  cases u.fifoe <;> rfl

/-- The conditional write of R450 as one update: the latch stays only where the read does not report it. -/
theorem threIp_cleared_if_reported (p : Params) (u : Uart) :
    (if iid p u = 0b0010 then { u with threIp := false } else u) =
      { u with threIp := u.threIp && iid p u != 0b0010 } := by
  by_cases h : iid p u = 0b0010
  · rw [if_pos h, h, bne_self_eq_false, Bool.and_false]
  · rw [if_neg h, bne_iff_ne.mpr h, Bool.and_true]

/-- Settles O13: the value is IIR (`iir_toNat`), the latch is `threIp_cleared_if_reported`. -/
theorem iirReadReportsInterrupt : Obligations.IirReadReportsInterrupt := by
  refine fun s => ⟨(iir s.cfg s.uart).setWidth 32, ?_, ?_⟩
  · simp only [exec, execRdIir, threIp_cleared_if_reported, readStored_eq_afterRead]
    rfl
  · rw [BitVec.toNat_setWidth_of_le (by decide), iir_toNat]

/-! ### FCR (R451) -/

section
variable (c : Bool) (u : Uart)

theorem ite_clearRx_eq :
    (if c then clearRx u else u) =
      { u with rxq := if c then [] else u.rxq, timeoutIp := u.timeoutIp && !c } := by
  cases c <;> simp [clearRx]

theorem ite_clearTx_eq : (if c then clearTx u else u) = { u with txq := if c then [] else u.txq } := by
  cases c <;> rfl

end

/-- THRE_IP is raised exactly when there was something to empty (D38). -/
theorem raiseThreIfEmptied_eq (old u : Uart) :
    raiseThreIfEmptied old u = { u with threIp := u.threIp || (!old.txq.isEmpty && u.txq.isEmpty) } := by
  rw [raiseThreIfEmptied]
  by_cases h : old.txq ≠ [] ∧ u.txq = []
  · simp [h]
  · have hc : (!old.txq.isEmpty && u.txq.isEmpty) = false := by simpa using h
    rw [if_neg h, hc, Bool.or_false]

/-- A change of FIFOE resets both queues; bits 1 and 2 reset theirs whatever FIFOE does (D12). -/
theorem writeFcr_eq (v : Word) (u : Uart) :
    writeFcr v u = { u with
      fifoe := v.getLsbD 0
      rxq := if (v.getLsbD 0 != u.fifoe) || v.getLsbD 1 then [] else u.rxq
      timeoutIp := u.timeoutIp && !((v.getLsbD 0 != u.fifoe) || v.getLsbD 1)
      txq := if (v.getLsbD 0 != u.fifoe) || v.getLsbD 2 then [] else u.txq
      dmam := v.getLsbD 3
      tet := v.extractLsb' 4 2
      rt := v.extractLsb' 6 2 } := by
  simp only [writeFcr, ite_clearRx_eq, ite_clearTx_eq]
  by_cases h : v.getLsbD 0 ≠ u.fifoe
  · simp only [if_pos h, bne_iff_ne.mpr h, clearRx, clearTx, Bool.true_or, Bool.not_true, Bool.and_false,
      Bool.false_and, ite_self, if_true]
  · have hc : (v.getLsbD 0 != u.fifoe) = false := by simpa using h
    simp only [if_neg h, hc, Bool.false_or]

/-- A queue that may have been reset went from some characters to none exactly when it was reset and held some. -/
theorem emptied_eq_reset {α : Type} (c : Bool) (q : List α) :
    (!q.isEmpty && (if c then [] else q).isEmpty) = (c && !q.isEmpty) := by
  cases c <;> simp

/-- Settles O14: the fields by `writeFcr_eq`, THRE_IP by `raiseThreIfEmptied_eq` and `emptied_eq_reset`. -/
theorem fcrWriteResetsQueues : Obligations.FcrWriteResetsQueues := by
  intro s v
  simp only [exec, execWrFcr, writeUart_eq_afterWrite, raiseThreIfEmptied_eq, writeFcr_eq, emptied_eq_reset]

/-! ### LCR (R453) -/

/-- `logBreak_txlog` with its changes in the order of 44_uart_engines.md R605; nothing else differs. -/
theorem logBreak_eq (s : State) (old new : Bool) :
    s.logBreak old new = { s with txlog := s.txlog ++
      (if old = false ∧ new = true then [LineEvent.breakStart]
       else if old = true ∧ new = false then [LineEvent.breakEnd]
       else []) } := by
  rw [logBreak_frame, logBreak_txlog]
  cases old <;> cases new <;> rfl

/-- Settles O15: receiver activity is the draw of the busy guard, as in O11; the line is `logBreak_eq`. -/
theorem lcrWriteAndBreak : Obligations.LcrWriteAndBreak := by
  refine fun s v => ⟨(s.draw 0 1).getLsbD 0, s.draws + s.guardDraws, ?_⟩
  have hg : (s.cfg.busyGuard && (s.uart.tsrBusy || !s.uart.txq.isEmpty || (s.draw 0 1).getLsbD 0)) = s.guarded := rfl
  rw [hg]
  simp only [exec, execWrLcr, writeUart_eq_afterWrite]
  cases s.guarded
  · rw [logBreak_eq, setWidth_eq_lowByte]
    rfl
  · rfl

end Sys2Proof.Proofs
end

section
/-! PROOFS. What the transactions at the offsets of MCR, LSR, MSR and SCR, and the writes of LPDLL and DLF, do
(42_uart_modem_status.md R501 to R507, 43_uart_dw_extensions.md R551, R553, R557). -/

namespace Sys2Proof.Proofs

open Sys2Proof.Machine Sys2Proof.Laws

/-! ### Writes of the read-only registers (R503, R505, R553) -/

/-- Settles O6: the descriptors are those of `decode_descriptor`, and the three transactions are refused by definition. -/
theorem readOnlyRegisterWritesRefused : Obligations.ReadOnlyRegisterWritesRefused := fun v _ =>
  ⟨decode_descriptor (i := .wrLsr v) rfl v, rfl, decode_descriptor (i := .wrMsr v) rfl v, rfl,
    decode_descriptor (i := .wrUsr v) rfl v, rfl, fun _ => rfl⟩

/-! ### The effective modem inputs and MCR (R501, 44_uart_engines.md R612) -/

section
variable {env : ModemLines} {u : Uart}

theorem effModem_line (h : u.mcr.getLsbD 4 = false) : effModem env u = env :=
  if_neg (Bool.eq_false_iff.mp h)

theorem effModem_loopback (h : u.mcr.getLsbD 4 = true) : effModem env u =
    { cts := u.mcr.getLsbD 1, dsr := u.mcr.getLsbD 0, ri := u.mcr.getLsbD 2, dcd := u.mcr.getLsbD 3 } :=
  if_pos h

end

/-- The effective modem inputs once MCR holds bits 6:0 of `v`. -/
theorem effModem_mcrWritten (env : ModemLines) (u : Uart) (v : Word) :
    effModem env { u with mcr := v.setWidth 7 } =
      if v.getLsbD 4 then { cts := v.getLsbD 1, dsr := v.getLsbD 0, ri := v.getLsbD 2, dcd := v.getLsbD 3 } else env := by
  simp [effModem, Uart.loop]

section
variable {s : State} {v : Word}

theorem execWrMcr_refused (h : v.getLsbD 5 = true ∨ v.getLsbD 6 = true) :
    exec (.wrMcr v) s = .refused (.valueNotAdmitted v) :=
  if_pos (Bool.or_eq_true_iff.mpr h)

theorem execWrMcr_admitted (h5 : v.getLsbD 5 = false) (h6 : v.getLsbD 6 = false) :
    exec (.wrMcr v) s = s.writeUart 0x010 v
      (updateDeltas (effModem s.env s.uart) (effModem s.env { s.uart with mcr := v.setWidth 7 })
        { s.uart with mcr := v.setWidth 7 }) := by
  have hadm : (v.getLsbD 5 || v.getLsbD 6) = false := Bool.or_eq_false_iff.mpr ⟨h5, h6⟩
  exact if_neg (Bool.eq_false_iff.mp hadm)

end

/-- Settles O16: the deltas compare the effective inputs before with those of `effModem_mcrWritten`. -/
theorem mcrWriteSetsDeltas : Obligations.McrWriteSetsDeltas := by
  refine fun s v => ⟨fun h => ⟨execWrMcr_refused h, rfl⟩, fun h5 h6 => ?_⟩
  rw [execWrMcr_admitted h5 h6, effModem_mcrWritten, BitVec.setWidth_eq_extractLsb' (by decide)]
  rfl

/-! ### The status bytes LSR and MSR (R502, R504, 10_state.md R114, R115) -/

section
variable (b7 b6 b5 b4 b3 b2 b1 b0 : Bool)

theorem byteOf_eq_concat : byteOf b7 b6 b5 b4 b3 b2 b1 b0 =
    (((((((BitVec.ofBool b7).concat b6).concat b5).concat b4).concat b3).concat b2).concat b1).concat b0 := rfl

/-- Bit `i` of a byte put together from eight bits. -/
theorem byteOf_getLsbD (i : Nat) :
    (byteOf b7 b6 b5 b4 b3 b2 b1 b0).getLsbD i = [b0, b1, b2, b3, b4, b5, b6, b7].getD i false := by
  rw [byteOf_eq_concat]
  simp only [BitVec.getLsbD_concat, BitVec.getLsbD_ofBool]
  rcases i with _ | _ | _ | _ | _ | _ | _ | _ | i <;> simp

end

/-- RDATA of a byte register stays below 2^8. -/
theorem toNat_readByte_lt (b : Byte) : (b.setWidth 32).toNat < 256 := by
  rw [BitVec.toNat_setWidth_of_le (by decide)]
  exact b.isLt

/-- THRE counts against FIFO_DEPTH in programmable mode, which only an enabled FIFO has. -/
theorem thre_eq (p : Params) (u : Uart) :
    thre p u = if u.fifoe = true ∧ u.ier.getLsbD 7 = true then decide (u.txq.length = p.fifoDepth)
      else u.txq.isEmpty := by
  rw [thre, txcap]
  cases u.fifoe <;> cases u.ier.getLsbD 7 <;> rfl

/-- Settles O17: each bit is the argument of `byteOf` at its place, THRE by `thre_eq`. -/
theorem lsrReadClearsErrors : Obligations.LsrReadClearsErrors := by
  refine fun s => ⟨(lsr s.cfg s.uart).setWidth 32, rfl, toNat_readByte_lt _, ?_⟩
  simp only [BitVec.getLsbD_setWidth, Nat.reduceLT, decide_true, Bool.true_and, lsr, byteOf_getLsbD, ← thre_eq]
  exact ⟨rfl, rfl, rfl, rfl, rfl, rfl, rfl, rfl⟩

/-- Settles O18: each bit is the argument of `byteOf` at its place; LOOP chooses the effective inputs. -/
theorem msrReadClearsDeltas : Obligations.MsrReadClearsDeltas := by
  refine fun s => ⟨(msr s.env s.uart).setWidth 32, rfl, toNat_readByte_lt _, ?_⟩
  simp only [BitVec.getLsbD_setWidth, Nat.reduceLT, decide_true, Bool.true_and, msr, byteOf_getLsbD]
  refine ⟨rfl, rfl, rfl, rfl, fun hline => ?_, fun hloop => ?_⟩
  · rw [effModem_line hline]
    exact ⟨rfl, rfl, rfl, rfl⟩
  · rw [effModem_loopback hloop]
    exact ⟨rfl, rfl, rfl, rfl⟩

/-! ### SCR, LPDLL and DLF (R507, R551, R557) -/

/-- The mask of `n` low bits, at most 8, keeps the value modulo 2^n. -/
theorem setWidth_and_lowMask {n : Nat} (h : n ≤ 8) (v : Word) :
    v.setWidth 8 &&& lowMask n = BitVec.ofNat 8 (v.toNat % 2 ^ n) := by
  have hmask : (2 ^ n - 1) % 2 ^ 8 = 2 ^ n - 1 :=
    Nat.mod_eq_of_lt (Nat.sub_one_lt_of_le (Nat.two_pow_pos n) (Nat.pow_le_pow_right (by decide) h))
  apply BitVec.eq_of_toNat_eq
  calc (v.setWidth 8 &&& lowMask n).toNat
      _ = (v.toNat % 2 ^ 8) &&& (2 ^ n - 1) := by
        rw [BitVec.toNat_and, BitVec.toNat_setWidth, lowMask, BitVec.toNat_ofNat, hmask]
      _ = v.toNat % 2 ^ n := by
        rw [Nat.and_two_pow_sub_one_eq_mod, Nat.mod_mod_of_dvd _ (Nat.pow_dvd_pow 2 h)]
      _ = (BitVec.ofNat 8 (v.toNat % 2 ^ n)).toNat := by
        rw [BitVec.toNat_ofNat, Nat.mod_mod_of_dvd' (Nat.pow_dvd_pow 2 h)]

/-- Settles O19: SCR and LPDLL take the low byte; for DLF the mask is `setWidth_and_lowMask`. -/
theorem scratchAndDividerFractionWrites : Obligations.ScratchAndDividerFractionWrites := by
  intro s v
  simp only [exec, execWrScr, execWrLpdll, execWrDlf, writeUart_eq_afterWrite, ← setWidth_eq_lowByte]
  refine ⟨trivial, trivial, fun h => ?_⟩
  rw [setWidth_and_lowMask h]

end Sys2Proof.Proofs
end

section
/-! PROOFS. What a read of USR and a write of SRR do, and what a reset of the UART leaves (43_uart_dw_extensions.md R552,
R555, 70_reset_and_hazards.md R1000 to R1002). -/

namespace Sys2Proof.Proofs

open Sys2Proof.Machine Sys2Proof.Laws

/-! ### USR (R552, 10_state.md R116) -/

/-- The three bits above the five of USR are zero. -/
theorem byteOf_toNat_lt (b4 b3 b2 b1 b0 : Bool) : (byteOf false false false b4 b3 b2 b1 b0).toNat < 32 := by
  decide +revert

theorem usr_toNat_lt (p : Params) (u : Uart) (idleBusy : Bool) : ((usr p u idleBusy).setWidth 32).toNat < 32 := by
  rw [BitVec.toNat_setWidth_of_le (by decide)]
  exact byteOf_toNat_lt ..

theorem txBusy_iff (u : Uart) : u.txBusy = true ↔ u.tsrBusy = true ∨ u.txq ≠ [] := by
  simp [Uart.txBusy]

/-- Settles O20: each bit is the argument of `byteOf` at its place; BUSY of an idle transmitter is the draw (D41). -/
theorem usrReadClearsBusy : Obligations.UsrReadClearsBusy := by
  refine fun s => ⟨(usr s.cfg s.uart ((s.draw 0 1).getLsbD 0)).setWidth 32, s.draws + s.uart.busyDraws, rfl,
    usr_toNat_lt .., ?_⟩
  simp only [BitVec.getLsbD_setWidth, Nat.reduceLT, decide_true, Bool.true_and, usr, byteOf_getLsbD, ← txBusy_iff]
  exact ⟨fun hbusy => Bool.or_eq_true_iff.mpr (.inl hbusy), rfl, rfl, rfl, rfl⟩

/-! ### SRR with UR = 0 (R555) -/

theorem softFifoReset_eq (v : Word) (u : Uart) :
    softFifoReset v u = { u with
      rxq := if v.getLsbD 1 then [] else u.rxq
      timeoutIp := u.timeoutIp && !v.getLsbD 1
      txq := if v.getLsbD 2 then [] else u.txq } := by
  simp only [softFifoReset, ite_clearRx_eq, ite_clearTx_eq]

/-- Settles O21: the queues by `softFifoReset_eq`, THRE_IP by `raiseThreIfEmptied_eq` and `emptied_eq_reset`. -/
theorem srrWriteEmptiesQueues : Obligations.SrrWriteEmptiesQueues := by
  intro s v hur
  have hexec : exec (.wrSrr v) s = s.writeUart 0x088 v (raiseThreIfEmptied s.uart (softFifoReset v s.uart)) :=
    if_neg (Bool.eq_false_iff.mp hur)
  rw [hexec, writeUart_eq_afterWrite, raiseThreIfEmptied_eq, softFifoReset_eq, emptied_eq_reset]

/-! ### The UART after a reset (70_reset_and_hazards.md R1000) -/

/-- The UART at its reset values, with `b` in TSR and `f` in TSR_FMT, which R1000 leaves free. -/
def resetUart (b : Byte) (f : Fmt) : Uart := { Uart.reset with tsr := b, tsrFmt := f }

/-- TXLOG of `s`, and the end of the break if the line is in one (44_uart_engines.md R605). -/
def breakEnded (s : State) : List LineEvent := s.txlog ++ if s.uart.lcr.getLsbD 6 then [.breakEnd] else []

theorem uartReset_eq (s : State) :
    uartReset s = { s with
      uart := resetUart (s.draw 0 8) (fmtOf (s.draw 1 8)), txlog := breakEnded s, draws := s.draws + 2 } := by
  have hlog : (s.logBreak s.uart.bc false).txlog = breakEnded s := by
    rw [logBreak_txlog, breakEnded, Uart.bc]
    cases s.uart.lcr.getLsbD 6 <;> rfl
  rw [uartReset_frame, hlog]
  rfl

/-- The UART's part of HW_RESET is `uartReset`; what it puts in the GPIO and IOC registers is free (R1001, R1002). -/
theorem hwReset_eq (s : State) :
    hwReset s = { s with
      uart := resetUart (s.draw 0 8) (fmtOf (s.draw 1 8)), txlog := breakEnded s
      gpio := (hwReset s).gpio, ioc := (hwReset s).ioc, draws := (hwReset s).draws } := by
  simp only [hwReset, uartReset_eq]

theorem hwReset_gpio_length (s : State) : (hwReset s).gpio.length = s.cfg.gpioBanks := by
  rw [hwReset, drawnBanks_length, uartReset_frame]

theorem hwReset_ioc_wf (s : State) : sparseWf 0 (hwReset s).ioc = true := drawnIoc_wf _ _ _ _ rfl

theorem hwReset_ioc_mem (s : State) {x : Nat × Half} (h : x ∈ (hwReset s).ioc) : x.1 ∈ s.cfg.iocRegSet := by
  have hcfg : (uartReset s).cfg = s.cfg := by rw [uartReset_frame]
  exact hcfg ▸ (drawnIoc_mem _ _ _ _ h).resolve_right List.not_mem_nil

theorem step_of_hwReset {s : State} (e : s.nextEvent = .hwReset) : step s = .next (hwReset s.taken) := by
  rw [step, e, runEvent]

theorem taken_draw (s : State) (i n : Nat) : s.taken.draw i n = s.draw i n := by
  rw [State.draw, taken_draws, State.draw]

/-! ### What the registers read as after a reset (R1000, the last column) -/

section
variable (b : Byte) (f : Fmt)

@[simp] theorem resetUart_ier : (resetUart b f).ier = 0 := rfl
@[simp] theorem resetUart_mcr : (resetUart b f).mcr = 0 := rfl
@[simp] theorem resetUart_fifoe : (resetUart b f).fifoe = false := rfl
@[simp] theorem resetUart_busyIp : (resetUart b f).busyIp = false := rfl
@[simp] theorem resetUart_loop : (resetUart b f).loop = false := BitVec.getLsbD_zero

/-- With IER = 0 no source but the busy one can be pending, and BUSY_IP is 0 (60_exceptions.md R916). -/
theorem iid_resetUart (p : Params) : iid p (resetUart b f) = 0b0001 := by
  simp [iid]

theorem iir_resetUart (p : Params) : iir p (resetUart b f) = 0x01 := by
  simp [iir, iid_resetUart]

/-- Without FIFO mode THRE says that TXQ is empty, as TEMT says of the whole transmitter. -/
theorem lsr_resetUart (p : Params) : lsr p (resetUart b f) = 0x60 := by
  have hbits : lsr p (resetUart b f) = byteOf false true true false false false false false := rfl
  rw [hbits]
  decide

/-- Without FIFO mode each queue holds one character: TXQ has room and RXQ is not full. -/
theorem usr_resetUart (p : Params) (idleBusy : Bool) :
    usr p (resetUart b f) idleBusy = byteOf false false false false false true true idleBusy := rfl

/-- With LOOP = 0 the upper half of MSR is the modem inputs themselves, and the deltas below it are clear. -/
theorem msr_resetUart (env : ModemLines) :
    msr env (resetUart b f) = byteOf env.dcd env.ri env.dsr env.cts false false false false := by
  rw [msr, effModem_line (resetUart_loop b f)]
  rfl

theorem outputs_resetUart : (resetUart b f).outputs = { dtr := false, rts := false, out1 := false, out2 := false } := by
  simp [Uart.outputs]

end

section
variable (b7 b6 b5 b4 b3 b2 b1 b0 : Bool)

theorem byteOf_lowNibble : (byteOf b7 b6 b5 b4 b3 b2 b1 b0).extractLsb' 0 4 =
    BitVec.ofBool b3 ++ BitVec.ofBool b2 ++ BitVec.ofBool b1 ++ BitVec.ofBool b0 := by
  decide +revert

theorem byteOf_highNibble : (byteOf b7 b6 b5 b4 b3 b2 b1 b0).extractLsb' 4 4 =
    BitVec.ofBool b7 ++ BitVec.ofBool b6 ++ BitVec.ofBool b5 ++ BitVec.ofBool b4 := by
  decide +revert

end

/-- Settles O22: both resets are `uartReset_eq`; taking the event draws nothing, so HW_RESET draws the TSR and the TSR_FMT
that a write of SRR would. -/
theorem uartResetState : Obligations.UartResetState := by
  intro s
  refine ⟨s.draw 0 8, fmtOf (s.draw 1 8), fun v hur => ⟨s.draws + 2, ?_⟩, fun he => ?_, iir_resetUart ..,
    lsr_resetUart .., ?_, congrArg (BitVec.extractLsb' 1 4) (usr_resetUart ..), ?_, outputs_resetUart ..,
    iid_resetUart ..⟩
  · have hexec : exec (.wrSrr v) s = (uartReset s).writeOk .uart 0x088 v := if_pos hur
    rw [hexec, uartReset_eq]
    rfl
  · refine ⟨(hwReset s.taken).draws, (hwReset s.taken).gpio, (hwReset s.taken).ioc, ?_, ?_, hwReset_ioc_wf _, ?_⟩
    · rw [step_of_hwReset he, hwReset_eq, taken_draw, taken_draw, breakEnded, taken_txlog, taken_uart]
      rfl
    · rw [hwReset_gpio_length, taken_cfg]
    · exact fun x hx => taken_cfg s ▸ hwReset_ioc_mem _ hx
  · exact (congrArg (BitVec.extractLsb' 0 4) (msr_resetUart ..)).trans (byteOf_lowNibble ..)
  · exact (congrArg (BitVec.extractLsb' 4 4) (msr_resetUart ..)).trans (byteOf_highNibble ..)

end Sys2Proof.Proofs
end

section
/-! PROOFS. What the steps of the device and environment agents do (44_uart_engines.md R601 to R612). -/

namespace Sys2Proof.Proofs

open Sys2Proof.Machine Sys2Proof.Laws

/-! ### When a step is enabled (R601, R602, R603, R606, R610) -/

section
variable (u : Uart)

theorem txLoadEnabled_iff : u.txLoadEnabled = true ↔ u.tsrBusy = false ∧ u.txq ≠ [] ∧ u.div ≠ 0 := by
  simp [Uart.txLoadEnabled, and_assoc]

theorem txDoneEnabled_iff : u.txDoneEnabled = true ↔ u.tsrBusy = true ∧ u.div ≠ 0 := by
  simp [Uart.txDoneEnabled]

theorem rxFrameEnabled_iff (pe : Bool) : u.rxFrameEnabled pe = true ↔
    u.mcr.getLsbD 4 = false ∧ u.div ≠ 0 ∧ (pe = true → u.lcr.getLsbD 3 = true) := by
  cases pe <;> simp [Uart.rxFrameEnabled, Uart.loop, Uart.pen, and_assoc]

theorem rxTimeoutEnabled_iff : u.rxTimeoutEnabled = true ↔ u.fifoe = true ∧ u.rxq ≠ [] ∧ u.timeoutIp = false := by
  simp [Uart.rxTimeoutEnabled, and_assoc]

end

/-! ### TX_LOAD (R602) -/

section
variable {s : State}

theorem txLoad_cons {u : Uart} {b : Byte} {q : List Byte} (h : u.txq = b :: q) :
    txLoad u = { u with
      tsr := b, tsrFmt := fmtOf u.lcr, txq := q, tsrBusy := true, threIp := u.threIp || q.isEmpty } := by
  simp only [txLoad, h]

theorem deviceStep_txLoad (h : s.uart.txLoadEnabled = true) : deviceStep .txLoad s = s.withUart (txLoad s.uart) :=
  if_pos h

theorem deviceStep_txLoad_disabled (h : ¬s.uart.txLoadEnabled = true) : deviceStep .txLoad s = s := if_neg h

/-! ### TX_DONE (R603, R607) -/

/-- Outside loopback the character goes out on the line. -/
theorem txDone_line (h : s.uart.mcr.getLsbD 4 = false) :
    txDone s = { s with
      uart := { s.uart with tsrBusy := false }, txlog := s.txlog ++ [.char s.uart.shiftedData s.uart.tsrFmt] } :=
  if_neg (Bool.eq_false_iff.mp h)

/-- In loopback the character is received. -/
theorem txDone_loopback (h : s.uart.mcr.getLsbD 4 = true) :
    txDone s = s.withUart
      { pushRx s.cfg { data := s.uart.shiftedData &&& s.uart.dmask, pe := false, fe := false, bi := false } s.uart with
        tsrBusy := false } :=
  if_pos h

theorem deviceStep_txDone (h : s.uart.txDoneEnabled = true) : deviceStep .txDone s = txDone s := if_pos h

theorem deviceStep_txDone_disabled (h : ¬s.uart.txDoneEnabled = true) : deviceStep .txDone s = s := if_neg h

/-! ### RX_FRAME (R606, R608, R609) -/

section
variable {p : Params} {u : Uart} (e : RxEntry)

/-- There is room: the character is queued, and one that becomes the head reveals its errors. -/
theorem pushRx_of_room (h : u.rxq.length < rxcap p u) :
    pushRx p e u =
      if u.rxq = [] then headArrival e { u with rxq := u.rxq ++ [e], timeoutIp := false }
      else { u with rxq := u.rxq ++ [e], timeoutIp := false } :=
  if_pos h

/-- An overrun: the new character is lost in FIFO mode, the old one else. -/
theorem pushRx_of_full (h : rxcap p u ≤ u.rxq.length) :
    pushRx p e u =
      if u.fifoe then { u with oe := true, timeoutIp := false }
      else headArrival e { u with rxq := [e], oe := true, timeoutIp := false } :=
  if_neg (Nat.not_lt.mpr h)

end

theorem deviceStep_rxFrame {d : Byte} {pe fe bi : Bool} (h : s.uart.rxFrameEnabled pe = true) :
    deviceStep (.rxFrame d pe fe bi) s = s.withUart (rxFrame s.cfg d pe fe bi s.uart) :=
  if_pos h

theorem deviceStep_rxFrame_disabled {d : Byte} {pe fe bi : Bool} (h : ¬s.uart.rxFrameEnabled pe = true) :
    deviceStep (.rxFrame d pe fe bi) s = s :=
  if_neg h

/-! ### RX_TIMEOUT and MODEM_CHANGE (R610, R611, R612) -/

theorem deviceStep_rxTimeout (h : s.uart.rxTimeoutEnabled = true) :
    deviceStep .rxTimeout s = s.withUart { s.uart with timeoutIp := true } :=
  if_pos h

theorem deviceStep_rxTimeout_disabled (h : ¬s.uart.rxTimeoutEnabled = true) : deviceStep .rxTimeout s = s := if_neg h

end

/-- In loopback the effective inputs do not follow the lines, so a change of the lines is no delta. -/
theorem updateDeltas_modemChange (old new : ModemLines) (u : Uart) :
    let out := !u.mcr.getLsbD 4
    updateDeltas (effModem old u) (effModem new u) u = { u with
      dcts := u.dcts || (out && old.cts != new.cts)
      ddsr := u.ddsr || (out && old.dsr != new.dsr)
      teri := u.teri || (out && old.ri && !new.ri)
      ddcd := u.ddcd || (out && old.dcd != new.dcd) } := by
  cases hloop : u.mcr.getLsbD 4
  · rw [effModem_line hloop, effModem_line hloop]
    rfl
  · simp [effModem_loopback hloop, updateDeltas]

/-! ### The steps of the device's agents -/

/-- Settles O27: TX_LOAD is `deviceStep_txLoad` while it is enabled, and `deviceStep_txLoad_disabled` while it is not. -/
theorem txLoadFillsShiftRegister : Obligations.TxLoadFillsShiftRegister := by
  intro s he
  rw [step_of_device he nofun]
  refine ⟨fun b q hq hb hd => ?_, fun hdis => ?_⟩
  · have hen : s.taken.uart.txLoadEnabled = true := by
      rw [taken_uart, txLoadEnabled_iff, hq]
      exact ⟨hb, List.cons_ne_nil b q, hd⟩
    rw [deviceStep_txLoad hen, taken_uart, txLoad_cons hq]
    rfl
  · rw [deviceStep_txLoad_disabled]
    rw [taken_uart, txLoadEnabled_iff]
    rcases hdis with h | h | h <;> simp [h]

/-- Settles O28: TX_DONE, while it is enabled, is `txDone`, on the line or in loopback. -/
theorem txDoneDeliversCharacter : Obligations.TxDoneDeliversCharacter := by
  intro s he
  rw [step_of_device he nofun]
  have hen : s.uart.tsrBusy = true → s.uart.div ≠ 0 → deviceStep .txDone s.taken = txDone s.taken := fun hb hd =>
    deviceStep_txDone (by rw [taken_uart, txDoneEnabled_iff]; exact ⟨hb, hd⟩)
  refine ⟨fun hb hd hline => ?_, fun hb hd hloop => ?_, fun hdis => ?_⟩
  · rw [hen hb hd, txDone_line (by rwa [taken_uart]), taken_uart, taken_txlog]
    rfl
  · rw [hen hb hd, txDone_loopback (by rwa [taken_uart]), taken_uart, taken_cfg]
    rfl
  · rw [deviceStep_txDone_disabled]
    rw [taken_uart, txDoneEnabled_iff]
    rcases hdis with h | h <;> simp [h]

/-- Settles O29: RX_FRAME, while it is enabled, is `pushRx` of the masked character, with room or without. -/
theorem rxFrameQueuesCharacter : Obligations.RxFrameQueuesCharacter := by
  intro s d pe fe bi he e cap enabled
  rw [step_of_device he nofun]
  have hiff : s.taken.uart.rxFrameEnabled pe = true ↔ enabled := by rw [taken_uart]; exact rxFrameEnabled_iff ..
  have hpush : enabled → deviceStep (.rxFrame d pe fe bi) s.taken = s.taken.withUart (pushRx s.cfg e s.uart) :=
    fun hen => by rw [deviceStep_rxFrame (hiff.mpr hen), taken_uart, taken_cfg]; rfl
  refine ⟨fun hen hq hcap => ?_, fun hen hq hroom => ?_, fun hen hfull hf => ?_, fun hen hfull hf => ?_, fun hdis => ?_⟩
  · rw [hpush hen, pushRx_of_room e (by rw [hq]; exact hcap), if_pos hq, hq]
    rfl
  · rw [hpush hen, pushRx_of_room e hroom, if_neg hq]
    rfl
  · rw [hpush hen, pushRx_of_full e hfull, if_pos hf]
    rfl
  · rw [hpush hen, pushRx_of_full e hfull, if_neg (Bool.eq_false_iff.mp hf)]
    rfl
  · rw [deviceStep_rxFrame_disabled (mt hiff.mp hdis)]

/-- Settles O30: the deltas of MODEM_CHANGE are `updateDeltas_modemChange`. -/
theorem timeoutAndModemSteps : Obligations.TimeoutAndModemSteps := by
  refine fun s => ⟨fun he => ⟨fun hf hq ht => ?_, fun hdis => ?_⟩, fun cts dsr ri dcd he => ?_⟩
  · have hen : s.taken.uart.rxTimeoutEnabled = true := by
      rw [taken_uart, rxTimeoutEnabled_iff]; exact ⟨hf, hq, ht⟩
    rw [step_of_device he nofun, deviceStep_rxTimeout hen, taken_uart]
    rfl
  · rw [step_of_device he nofun, deviceStep_rxTimeout_disabled]
    rw [taken_uart, rxTimeoutEnabled_iff]
    rcases hdis with h | h | h <;> simp [h]
  · rw [step_of_device he nofun, deviceStep, modemChange, updateDeltas_modemChange, taken_uart, taken_env]

end Sys2Proof.Proofs
end

section
/-! PROOFS. The line format of an LCR value (44_uart_engines.md R604), and the output levels as functions of the registers
(R605, R613, 10_state.md R130, 45_gpio_iomux.md R709). -/

namespace Sys2Proof.Proofs

open Sys2Proof.Machine Sys2Proof.Laws

/-! ### The line format (R604) -/

theorem toNat_wordLength (lcr : Byte) : (lcr.extractLsb' 0 2).toNat = lcr.toNat % 4 := by
  rw [BitVec.extractLsb'_toNat, Nat.shiftRight_zero]

theorem dataBitsOf_eq (lcr : Byte) : dataBitsOf lcr = 5 + lcr.toNat % 4 := by
  rw [dataBitsOf, toNat_wordLength]

theorem wordLength_eq_zero_iff (lcr : Byte) : lcr.extractLsb' 0 2 = 0b00 ↔ lcr.toNat % 4 = 0 := by
  rw [← BitVec.toNat_inj, toNat_wordLength]
  rfl

/-- Settles O31: the data bits by `dataBitsOf_eq`, the stop bits by `wordLength_eq_zero_iff`. -/
theorem lineFormatOfLcr : Obligations.LineFormatOfLcr := by
  refine fun lcr => ⟨dataBitsOf_eq lcr, ?_, rfl, rfl⟩
  simp only [fmtOf, wordLength_eq_zero_iff]

/-! ### The pins and the pin multiplexer (R130, R709) -/

section
variable {p : Nat} (b : GpioBank)

theorem drives_low (h : p < 16) : b.drives p = if b.ddrL.getLsbD p then some (b.drL.getLsbD p) else none := by
  simp only [GpioBank.drives, GpioBank.isOutput, if_pos h]

theorem drives_high (p : Nat) :
    b.drives (16 + p) = if b.ddrH.getLsbD p then some (b.drH.getLsbD p) else none := by
  have hge : ¬16 + p < 16 := by omega
  simp only [GpioBank.drives, GpioBank.isOutput, if_neg hge, Nat.add_sub_cancel_left]

end

/-- A mux field, the four bits from `i` on of a register, selects function 10. -/
theorem muxField_eq_ten_iff (r : Half) (i : Nat) : (r.extractLsb' i 4 == 10) = true ↔ r.toNat / 2 ^ i % 16 = 10 := by
  rw [beq_iff_eq, ← BitVec.toNat_inj, BitVec.extractLsb'_toNat, Nat.shiftRight_eq_div_pow]
  rfl

section
variable {s : State}

theorem routed_roleA : s.routed s.cfg.pinmuxARole = true ↔ (s.iocReg 0x02C).toNat % 16 = 10 := by
  rw [State.routed, State.selector, if_pos rfl, muxField_eq_ten_iff, Nat.pow_zero, Nat.div_one]

theorem routed_roleB {sig : UartSignal} (h : sig ≠ s.cfg.pinmuxARole) :
    s.routed sig = true ↔ (s.iocReg 0x02C).toNat / 16 % 16 = 10 := by
  rw [State.routed, State.selector, if_neg h, muxField_eq_ten_iff]
  rfl

end

/-! ### What the remote end receives (R605) -/

theorem heardBy_chars_append (sent : List (Byte × Fmt)) (rest : List LineEvent) :
    heardBy false (sent.map (fun x => LineEvent.char x.1 x.2) ++ rest) = sent ++ heardBy false rest := by
  induction sent with
  | nil => rfl
  | cons x sent ih => exact congrArg (x :: ·) ih

theorem heardBy_chars_in_break (broken : List (Byte × Fmt)) (rest : List LineEvent) :
    heardBy true (broken.map (fun x => LineEvent.char x.1 x.2) ++ rest) = heardBy true rest := by
  induction broken with
  | nil => rfl
  | cons x broken ih => exact ih

/-- Before the start of a break the rest of the record does not matter; after it the line is in break. -/
theorem heardBy_append_breakStart (inBreak : Bool) (pre rest : List LineEvent) :
    heardBy inBreak (pre ++ .breakStart :: rest) = heardBy inBreak pre ++ heardBy true rest := by
  induction pre generalizing inBreak with
  | nil => rfl
  | cons e pre ih =>
    cases e with
    | breakStart | breakEnd => exact ih _
    | char d f =>
      cases inBreak
      · exact congrArg ((d, f) :: ·) (ih false)
      · exact ih true

/-- Settles O32: the outputs by definition, the pins and the routing by their halves and fields, and what is received by the
line's state after the last break event. -/
theorem outputLevels : Obligations.OutputLevels := by
  refine ⟨fun u => ⟨rfl, rfl, rfl, rfl, rfl⟩, fun b p hp => ⟨drives_low b hp, drives_high b p⟩,
    fun s => ⟨routed_roleA, fun sig => routed_roleB⟩, fun pre post sent broken => ⟨?_, ?_, ?_⟩⟩
  · simpa [heardBy] using heardBy_chars_append sent []
  · rw [heardBy_append_breakStart]
    simpa [heardBy] using heardBy_chars_in_break broken []
  · rw [heardBy_append_breakStart, heardBy_chars_in_break]
    rfl

end Sys2Proof.Proofs
end

section
/-! PROOFS. Which steps change TXQ, the shift register and DIV, and how far the transmitter gets (44_uart_engines.md R600 to
R603, R615, 70_reset_and_hazards.md R1013). -/

namespace Sys2Proof.Proofs

open Sys2Proof.Machine Sys2Proof.Laws

/-! ### A host's transaction is decoded under the DLAB of the moment (30_encoding.md R305) -/

section
variable {h : Nat} {c : HostCtx} {st : Stmt} {s t : State}

theorem wf_of_decode_ok {p : Params} {dlab : Bool} {d v : Word} {i : Instr} (k : decode p dlab d v = .ok i) :
    i.wf p dlab = true :=
  (decode_eq_ok_iff.mp k).encoding.1

theorem perform_next_wf {d v : Word} (k : perform d v s = .next t) :
    ∃ i, i.wf s.cfg s.uart.dlab = true ∧ exec i s = .next t := by
  obtain ⟨i, hd, hi⟩ := perform_next k
  exact ⟨i, wf_of_decode_ok hd, hi⟩

theorem transact_next_wf {a : AddrOp} {w : Bool} {v : Word} (k : transact a w v s = .next t) :
    ∃ i, i.wf s.cfg s.uart.dlab = true ∧ exec i s = .next t := by
  obtain ⟨d, i, -, hd, hi⟩ := transact_next k
  exact ⟨i, wf_of_decode_ok hd, hi⟩

theorem branch_next {l : Label} (k : branch h c l s = .next t) : ∃ c', t = s.setHost h c' := by
  unfold branch at k
  split at k <;> cases k
  exact ⟨_, rfl⟩

/-- As `stmtStep_next`, with the transaction well-formed under the DLAB it is performed under. -/
theorem stmtStep_next_wf (k : stmtStep h c st s = .next t) :
    (∃ i s' c', i.wf s.cfg s.uart.dlab = true ∧ exec i s = .next s' ∧ t = s'.setHost h c') ∨
    ∃ c', t = s.setHost h c' := by
  cases st <;> simp only [stmtStep] at k
  case rd =>
    obtain ⟨s', hs, rfl⟩ := andThen_next k
    obtain ⟨i, hw, hi⟩ := transact_next_wf hs
    exact .inl ⟨i, s', _, hw, hi, rfl⟩
  case wr =>
    split at k
    · obtain ⟨s', hs, rfl⟩ := andThen_next k
      obtain ⟨i, hw, hi⟩ := transact_next_wf hs
      exact .inl ⟨i, s', _, hw, hi, rfl⟩
    · cases k
  case poll =>
    split at k
    · rename_i s' hs
      obtain ⟨i, hw, hi⟩ := transact_next_wf hs
      obtain ⟨c', rfl⟩ := afterPollRead_next k
      exact .inl ⟨i, s', c', hw, hi, rfl⟩
    · cases k
    · cases k
  case txn =>
    obtain ⟨s', hs, rfl⟩ := andThen_next k
    obtain ⟨i, hw, hi⟩ := perform_next_wf hs
    exact .inl ⟨i, s', _, hw, hi, rfl⟩
  case letU | letN | ret | call =>
    split at k <;> cases k
    exact .inr ⟨_, rfl⟩
  case bz =>
    split at k
    · split at k
      · exact .inr (branch_next k)
      · cases k; exact .inr ⟨_, rfl⟩
    · cases k
  case bnz =>
    split at k
    · split at k
      · cases k; exact .inr ⟨_, rfl⟩
      · exact .inr (branch_next k)
    · cases k
  case jmp => exact .inr (branch_next k)
  case halt => cases k; exact .inr ⟨_, rfl⟩

/-- A host's step changes the UART by one transaction, or not at all. -/
theorem hostStep_uart (k : hostStep h s = .next t) :
    t.uart = s.uart ∨
    ∃ i s' c', i.wf s.cfg s.uart.dlab = true ∧ exec i { s with master := h } = .next s' ∧ t = s'.setHost h c' := by
  unfold hostStep at k
  split at k
  · cases k; exact .inl rfl
  · split at k
    · cases k; exact .inl rfl
    · split at k
      · cases k; exact .inl rfl
      · rcases stmtStep_next_wf k with ⟨i, s', c', hw, hi, rfl⟩ | ⟨c', rfl⟩
        · exact .inr ⟨i, s', c', hw, hi, rfl⟩
        · exact .inl rfl

end

/-! ### Which transactions change the transmitter -/

/-- `v` has the TXQ, the state of the shift register and the divisor of `u`. -/
structure TransmitterKept (u v : Uart) : Prop where
  queue   : v.txq = u.txq
  busy    : v.tsrBusy = u.tsrBusy
  divisor : v.div = u.div

theorem TransmitterKept.of_eq {u v : Uart} (h : v = u) : TransmitterKept u v := by
  rw [h]
  exact ⟨rfl, rfl, rfl⟩

/-- `t` records one write of THR, FCR, SRR or the divisor more than `s`. -/
def TransmitterWritten (s t : State) : Prop :=
  ∃ x : Txn, t.hlog = s.hlog ++ [x] ∧ x.block = .uart ∧ x.dir = .write ∧
    (x.offset = 0x000 ∨ x.offset = 0x008 ∨ x.offset = 0x088 ∨ x.offset = 0x004 ∧ s.uart.dlab = true)

theorem not_transmitterWritten {s t : State} (l : leavesTransmitter s t) : ¬TransmitterWritten s t := by
  rintro ⟨x, hx, hb, hd, hoff⟩
  obtain ⟨h0, h8, h88, h4⟩ := l.2 x hx hb hd
  rcases hoff with h | h | h | ⟨h, hdlab⟩
  · exact h0 h
  · exact h8 h
  · exact h88 h
  · exact nomatch (h4 h).symm.trans hdlab

section
variable {off : BitVec 12} {v : Word} {s s' t : State}

theorem readOk_keeps_transmitter (h : s'.readOk .uart off v = .next t) (k : TransmitterKept s.uart s'.uart) :
    TransmitterKept s.uart t.uart := by
  obtain rfl := readOk_next h
  exact k

theorem writeOk_keeps_transmitter (h : s'.writeOk .uart off v = .next t) (k : TransmitterKept s.uart s'.uart) :
    TransmitterKept s.uart t.uart := by
  obtain rfl := writeOk_next h
  exact k

theorem writeOk_writes_transmitter (h : s'.writeOk .uart off v = .next t) (hl : s'.hlog = s.hlog)
    (ho : off = 0x000 ∨ off = 0x008 ∨ off = 0x088 ∨ off = 0x004 ∧ s.uart.dlab = true) : TransmitterWritten s t := by
  obtain rfl := writeOk_next h
  exact ⟨_, congrArg (· ++ _) hl, rfl, rfl, ho⟩

end

/-- Of the performed transactions only the writes of THR, FCR, SRR and the divisor change the transmitter (R615); WR_DLH is
decoded only while DLAB = 1. -/
theorem exec_transmitter {i : Instr} {s t : State} (hw : i.wf s.cfg s.uart.dlab = true) (h : exec i s = .next t) :
    TransmitterKept s.uart t.uart ∨ TransmitterWritten s t := by
  cases i
  case rdDll | rdIer | rdDlh | rdLcr | rdMcr | rdLsr | rdMsr | rdScr | rdLpdll | rdUsr | rdSrr | rdDlf =>
    exact .inl (readOk_keeps_transmitter h ⟨rfl, rfl, rfl⟩)
  case wrIer | wrScr | wrLpdll | wrDlf => exact .inl (writeOk_keeps_transmitter h ⟨rfl, rfl, rfl⟩)
  case wrThr | wrDll => exact .inr (writeOk_writes_transmitter h rfl (.inl rfl))
  case wrFcr => exact .inr (writeOk_writes_transmitter h rfl (.inr (.inl rfl)))
  case wrDlh => exact .inr (writeOk_writes_transmitter h rfl (.inr (.inr (.inr ⟨rfl, hw⟩))))
  case wrLsr | wrMsr | wrUsr => cases h
  case rdRbr =>
    simp only [exec, execRdRbr, popRx_eq] at h
    split at h <;> exact .inl (readOk_keeps_transmitter h ⟨rfl, rfl, rfl⟩)
  case rdIir =>
    simp only [exec, execRdIir, threIp_cleared_if_reported] at h
    exact .inl (readOk_keeps_transmitter h ⟨rfl, rfl, rfl⟩)
  case wrLcr =>
    simp only [exec, execWrLcr] at h
    split at h <;> exact .inl (writeOk_keeps_transmitter h ⟨rfl, rfl, rfl⟩)
  case wrMcr =>
    simp only [exec, execWrMcr] at h
    split at h
    · cases h
    · exact .inl (writeOk_keeps_transmitter h ⟨rfl, rfl, rfl⟩)
  case wrSrr =>
    simp only [exec, execWrSrr] at h
    split at h
    · exact .inr (writeOk_writes_transmitter h (uartReset_hlog s) (.inr (.inr (.inl rfl))))
    · exact .inr (writeOk_writes_transmitter h rfl (.inr (.inr (.inl rfl))))
  case rdDrL | rdDrH | rdDdrL | rdDdrH | wrDrL | wrDrH | wrDdrL | wrDdrH =>
    exact .inl (.of_eq (exec_uart_of_block_bit h (.inl (gpioT_bit29 ..))).1)
  case rdIoc | wrIoc => exact .inl (.of_eq (exec_uart_of_block_bit h (.inr (iocT_bit30 ..))).1)

theorem hostStep_transmitter {h : Nat} {s t : State} (k : hostStep h s = .next t) :
    TransmitterKept s.uart t.uart ∨ TransmitterWritten s t := by
  rcases hostStep_uart k with hu | ⟨i, s', c', hw, hi, rfl⟩
  · exact .inl (.of_eq hu)
  · exact (exec_transmitter (s := { s with master := h }) hw hi :)

/-! ### What the device's steps do to the transmitter -/

theorem pushRx_keeps_transmitter (p : Params) (e : RxEntry) (u : Uart) : TransmitterKept u (pushRx p e u) := by
  rw [pushRx_frame]
  exact ⟨rfl, rfl, rfl⟩

/-- On the line or in loopback, TX_DONE frees the shift register and leaves the queue. -/
theorem txDone_transmitter (s : State) : TransmitterKept { s.uart with tsrBusy := false } (txDone s).uart := by
  cases hloop : s.uart.mcr.getLsbD 4
  · rw [txDone_line hloop]
    exact ⟨rfl, rfl, rfl⟩
  · rw [txDone_loopback hloop]
    obtain ⟨hq, -, hd⟩ := pushRx_keeps_transmitter s.cfg
      { data := s.uart.shiftedData &&& s.uart.dmask, pe := false, fe := false, bi := false } s.uart
    exact ⟨hq, rfl, hd⟩

/-- What becomes of the transmitter where no host writes it: nothing, or a TX_LOAD, or a TX_DONE, while enabled. -/
def TransmitterSteps (u v : Uart) : Prop :=
  TransmitterKept u v ∨
  (u.txLoadEnabled = true ∧ v = txLoad u) ∨
  (u.txDoneEnabled = true ∧ TransmitterKept { u with tsrBusy := false } v)

theorem deviceStep_transmitter (a : AgentStep) (s : State) : TransmitterSteps s.uart (deviceStep a s).uart := by
  cases a with
  | host | modemChange => exact .inl ⟨rfl, rfl, rfl⟩
  | txLoad =>
    by_cases hen : s.uart.txLoadEnabled = true
    · rw [deviceStep_txLoad hen]
      exact .inr (.inl ⟨hen, rfl⟩)
    · rw [deviceStep_txLoad_disabled hen]
      exact .inl (.of_eq rfl)
  | txDone =>
    by_cases hen : s.uart.txDoneEnabled = true
    · rw [deviceStep_txDone hen]
      exact .inr (.inr ⟨hen, txDone_transmitter s⟩)
    · rw [deviceStep_txDone_disabled hen]
      exact .inl (.of_eq rfl)
  | rxFrame d pe fe bi =>
    by_cases hen : s.uart.rxFrameEnabled pe = true
    · rw [deviceStep_rxFrame hen]
      exact .inl (pushRx_keeps_transmitter ..)
    · rw [deviceStep_rxFrame_disabled hen]
      exact .inl (.of_eq rfl)
  | rxTimeout =>
    by_cases hen : s.uart.rxTimeoutEnabled = true
    · rw [deviceStep_rxTimeout hen]
      exact .inl ⟨rfl, rfl, rfl⟩
    · rw [deviceStep_rxTimeout_disabled hen]
      exact .inl (.of_eq rfl)

theorem step_transmitter {s t : State} (k : step s = .next t) (l : leavesTransmitter s t) :
    TransmitterSteps s.uart t.uart := by
  rcases step_next k with ⟨h, -, hs⟩ | ⟨a, -, -, rfl⟩ | ⟨he, -⟩
  · have hcases : TransmitterKept s.uart t.uart ∨ TransmitterWritten s t := by
      simpa [TransmitterWritten] using hostStep_transmitter hs
    exact .inl (hcases.resolve_right (not_transmitterWritten l))
  · simpa using deviceStep_transmitter a s.taken
  · exact absurd he l.1

/-- Settles O60: with DIV = 0 neither transmitter step is enabled, so of `step_transmitter` only the first case is left. -/
theorem zeroDivisorKeepsTransmitterBusy : Obligations.ZeroDivisorKeepsTransmitterBusy := by
  intro s t hdiv hbusy k l
  obtain ⟨hq, hb, hd⟩ : TransmitterKept s.uart t.uart := by
    rcases step_transmitter k l with hk | ⟨hen, -⟩ | ⟨hen, -⟩
    · exact hk
    · obtain ⟨-, -, hd⟩ := (txLoadEnabled_iff _).mp hen
      exact absurd hdiv hd
    · obtain ⟨-, hd⟩ := (txDoneEnabled_iff _).mp hen
      exact absurd hdiv hd
  have hbusy' : ¬t.transmitterEmpty := by rwa [State.transmitterEmpty, hq, hb]
  have htemt : t.uart.temt = false := by
    rw [← Bool.not_eq_true]
    simpa [Uart.temt, State.transmitterEmpty] using hbusy'
  exact ⟨hd.trans hdiv, hbusy', hq, by rw [lsr, byteOf_getLsbD]; exact htemt⟩

/-! ### The steps the transmitter has still to take -/

/-- A TX_LOAD and a TX_DONE for each queued character, and a TX_DONE for the one in the shift register. -/
def pendingSteps (u : Uart) : Nat := 2 * u.txq.length + u.tsrBusy.toNat

section
variable {u v : Uart}

theorem TransmitterKept.pendingSteps_eq (k : TransmitterKept u v) : pendingSteps v = pendingSteps u := by
  rw [pendingSteps, k.queue, k.busy, pendingSteps]

theorem pendingSteps_txLoad (h : u.txLoadEnabled = true) : pendingSteps (txLoad u) + 1 = pendingSteps u := by
  obtain ⟨hb, hq, -⟩ := (txLoadEnabled_iff u).mp h
  obtain ⟨b, q, hbq⟩ := List.exists_cons_of_ne_nil hq
  simp [txLoad_cons hbq, pendingSteps, hbq, hb, Nat.mul_add]

theorem pendingSteps_txDone (h : u.txDoneEnabled = true) :
    pendingSteps { u with tsrBusy := false } + 1 = pendingSteps u := by
  simp [pendingSteps, ((txDoneEnabled_iff u).mp h).1]

theorem txLoad_div (u : Uart) : (txLoad u).div = u.div := by
  unfold txLoad
  split <;> rfl

theorem TransmitterSteps.div_eq (k : TransmitterSteps u v) : v.div = u.div := by
  rcases k with k | ⟨-, rfl⟩ | ⟨-, k⟩
  · exact k.divisor
  · exact txLoad_div u
  · exact k.divisor

theorem TransmitterSteps.pendingSteps_le (k : TransmitterSteps u v) : pendingSteps v ≤ pendingSteps u := by
  rcases k with k | ⟨hen, rfl⟩ | ⟨hen, k⟩
  · exact k.pendingSteps_eq.le
  · exact Nat.le_of_lt (Nat.lt_of_succ_le (pendingSteps_txLoad hen).le)
  · rw [k.pendingSteps_eq]
    exact Nat.le_of_lt (Nat.lt_of_succ_le (pendingSteps_txDone hen).le)

/-- The shift register is busy exactly when the number of steps is odd. -/
theorem txDoneEnabled_of_odd (h : pendingSteps u % 2 = 1) (hd : u.div ≠ 0) : u.txDoneEnabled = true := by
  rw [txDoneEnabled_iff]
  unfold pendingSteps at h
  cases hb : u.tsrBusy
  · rw [hb, Bool.toNat_false] at h; omega
  · exact ⟨rfl, hd⟩

theorem txLoadEnabled_of_even (h : pendingSteps u % 2 = 0) (hp : pendingSteps u ≠ 0) (hd : u.div ≠ 0) :
    u.txLoadEnabled = true := by
  rw [txLoadEnabled_iff]
  unfold pendingSteps at h hp
  cases hb : u.tsrBusy
  · rw [hb, Bool.toNat_false] at hp
    exact ⟨rfl, fun hq => hp (by rw [hq]; rfl), hd⟩
  · rw [hb, Bool.toNat_true] at h; omega

end

section
variable {s t : State}

theorem transmitterEmpty_iff : s.transmitterEmpty ↔ pendingSteps s.uart = 0 := by
  unfold State.transmitterEmpty pendingSteps
  cases s.uart.tsrBusy <;> simp

theorem step_txLoad_pendingSteps (k : step s = .next t) (he : s.nextEvent = .agent .txLoad)
    (hen : s.uart.txLoadEnabled = true) : pendingSteps t.uart + 1 = pendingSteps s.uart := by
  rw [step_of_device he nofun, deviceStep_txLoad (by rwa [taken_uart])] at k
  cases k
  rw [withUart_uart, taken_uart, pendingSteps_txLoad hen]

theorem step_txDone_pendingSteps (k : step s = .next t) (he : s.nextEvent = .agent .txDone)
    (hen : s.uart.txDoneEnabled = true) : pendingSteps t.uart + 1 = pendingSteps s.uart := by
  rw [step_of_device he nofun, deviceStep_txDone (by rwa [taken_uart])] at k
  cases k
  rw [(txDone_transmitter s.taken).pendingSteps_eq, taken_uart, pendingSteps_txDone hen]

end

/-! ### Runs with the fairness of R600 -/

section
variable {r : Nat → State} {n : Nat}

theorem div_ne_zero_from (run : IsRun r) (hd : (r n).uart.div ≠ 0)
    (hl : ∀ m, n ≤ m → leavesTransmitter (r m) (r (m + 1))) : ∀ m, n ≤ m → (r m).uart.div ≠ 0 := by
  intro m hm
  induction m, hm using Nat.le_induction with
  | base => exact hd
  | succ m hm ih => rwa [(step_transmitter (run m) (hl m hm)).div_eq]

/-- The number of steps left only falls, so from some point on it stays the same. -/
theorem pendingSteps_settles (run : IsRun r) (hl : ∀ m, n ≤ m → leavesTransmitter (r m) (r (m + 1))) :
    ∃ k, n ≤ k ∧ ∀ m, k ≤ m → pendingSteps (r m).uart = pendingSteps (r k).uart := by
  have hanti : Antitone fun m => pendingSteps (r (n + m)).uart := antitone_nat_of_succ_le fun m =>
    (step_transmitter (run (n + m)) (hl (n + m) (Nat.le_add_right n m))).pendingSteps_le
  obtain ⟨k, hk⟩ := WellFoundedLT.antitone_chain_condition hanti
  refine ⟨n + k, Nat.le_add_right n k, fun m hm => ?_⟩
  obtain ⟨j, rfl⟩ := Nat.exists_eq_add_of_le (Nat.le_of_add_right_le hm)
  exact (hk j (Nat.le_of_add_le_add_left hm)).symm

/-- While the number of steps left stays the same and is not 0, one of TX_LOAD and TX_DONE stays enabled; fairness takes it,
and then one step less is left. -/
theorem pendingSteps_eq_zero_of_settled (fair : IsFairRun r) (hd : ∀ m, n ≤ m → (r m).uart.div ≠ 0)
    (hc : ∀ m, n ≤ m → pendingSteps (r m).uart = pendingSteps (r n).uart) : pendingSteps (r n).uart = 0 := by
  by_contra hne
  have hnext : ∀ m, n ≤ m → pendingSteps (r (m + 1)).uart + 1 ≠ pendingSteps (r m).uart := fun m hm => by
    rw [hc m hm, hc (m + 1) (Nat.le_succ_of_le hm)]
    exact Nat.succ_ne_self _
  rcases Nat.mod_two_eq_zero_or_one (pendingSteps (r n).uart) with heven | hodd
  · have hen : ∀ m, n ≤ m → (r m).uart.txLoadEnabled = true := fun m hm =>
      txLoadEnabled_of_even (by rwa [hc m hm]) (by rwa [hc m hm]) (hd m hm)
    obtain ⟨m, hm, he⟩ := fair.load n hen
    exact hnext m hm (step_txLoad_pendingSteps (fair.run m) he (hen m hm))
  · have hen : ∀ m, n ≤ m → (r m).uart.txDoneEnabled = true := fun m hm =>
      txDoneEnabled_of_odd (by rwa [hc m hm]) (hd m hm)
    obtain ⟨m, hm, he⟩ := fair.done n hen
    exact hnext m hm (step_txDone_pendingSteps (fair.run m) he (hen m hm))

end

/-- Settles O59: the number of steps left settles, and in a fair run it can settle at 0 only. -/
theorem transmitterEventuallyEmpty : Obligations.TransmitterEventuallyEmpty := by
  intro r n fair hd hl
  obtain ⟨k, hnk, hk⟩ := pendingSteps_settles fair.run hl
  have hdiv := div_ne_zero_from fair.run hd hl
  have hzero := pendingSteps_eq_zero_of_settled fair (fun m hm => hdiv m (hnk.trans hm)) hk
  exact ⟨k, hnk, fun m hm => transmitterEmpty_iff.mpr ((hk m hm).trans hzero)⟩

end Sys2Proof.Proofs
end

section
/-! PROOFS. The queued characters go out on the line (44_uart_engines.md R602, R603, R609). -/

namespace Sys2Proof.Proofs

open Sys2Proof.Machine Sys2Proof.Laws

/-! ### Runs of the transmitter -/

section
variable {n : Nat} {rest : List Event} {s t : State}

/-- A run that begins with the step of a device agent, chosen by the first of `inputs`. -/
theorem reaches_device {a : AgentStep} (hi : s.inputs = .agent a :: rest) (ha : ∀ h, a ≠ .host h)
    (r : Reaches n (deviceStep a { s with inputs := rest }) t) : Reaches (n + 1) s t := by
  have htaken : s.taken = { s with inputs := rest } := by simp only [State.taken, hi]
  refine reaches_succ ?_ r
  rw [step_of_device (by simp only [State.nextEvent, hi]) ha, htaken]

theorem reaches_txLoad (hi : s.inputs = .agent .txLoad :: rest) (hen : s.uart.txLoadEnabled = true)
    (r : Reaches n { s with inputs := rest, uart := txLoad s.uart } t) : Reaches (n + 1) s t :=
  reaches_device hi nofun (by rw [deviceStep_txLoad (s := { s with inputs := rest }) hen]; exact r)

theorem reaches_txDone (hi : s.inputs = .agent .txDone :: rest) (hen : s.uart.txDoneEnabled = true)
    (hline : s.uart.mcr.getLsbD 4 = false)
    (r : Reaches n { s with
      inputs := rest
      uart := { s.uart with tsrBusy := false }
      txlog := s.txlog ++ [.char s.uart.shiftedData s.uart.tsrFmt] } t) : Reaches (n + 1) s t :=
  reaches_device hi nofun (by
    rw [deviceStep_txDone (s := { s with inputs := rest }) hen, txDone_line (s := { s with inputs := rest }) hline]
    exact r)

end

/-! ### One character, and all of them -/

/-- The event on the line that is a character sent under this LCR. -/
def sentAs (lcr b : Byte) : LineEvent := .char (b &&& lowMask (dataBitsOf lcr)) (fmtOf lcr)

/-- `s` once its oldest character `b` has gone out on the line and `q` is left, the events of `rest` coming next. -/
def characterSent (s : State) (b : Byte) (q : List Byte) (rest : List Event) : State :=
  { s with
    inputs := rest
    uart := { s.uart with
      tsr := b, tsrFmt := fmtOf s.uart.lcr, txq := q, tsrBusy := false, threIp := s.uart.threIp || q.isEmpty }
    txlog := s.txlog ++ [sentAs s.uart.lcr b] }

/-- `s` once the characters `q` of its queue have gone out on the line, the events of `rest` coming next. -/
def queueSent (s : State) (q : List Byte) (rest : List Event) : State :=
  { s with
    inputs := rest
    uart := { s.uart with
      txq := []
      tsr := q.getLast?.getD s.uart.tsr
      tsrFmt := if q = [] then s.uart.tsrFmt else fmtOf s.uart.lcr
      threIp := s.uart.threIp || !q.isEmpty }
    txlog := s.txlog ++ q.map (sentAs s.uart.lcr) }

section
variable {s t : State} {b : Byte} {q : List Byte} {rest rest' : List Event}

theorem reaches_characterSent {n : Nat} (hq : s.uart.txq = b :: q) (hb : s.uart.tsrBusy = false)
    (hd : s.uart.div ≠ 0) (hline : s.uart.mcr.getLsbD 4 = false)
    (hi : s.inputs = .agent .txLoad :: .agent .txDone :: rest)
    (r : Reaches n (characterSent s b q rest) t) : Reaches (n + 1 + 1) s t := by
  have hload : s.uart.txLoadEnabled = true := by
    rw [txLoadEnabled_iff, hq]
    exact ⟨hb, List.cons_ne_nil b q, hd⟩
  refine reaches_txLoad hi hload ?_
  rw [txLoad_cons hq]
  exact reaches_txDone rfl ((txDoneEnabled_iff _).mpr ⟨rfl, hd⟩) hline r

theorem queueSent_nil (hq : s.uart.txq = []) : queueSent s [] s.inputs = s := by
  simp only [queueSent, List.map_nil, List.append_nil, List.getLast?_nil, Option.getD_none, if_true, List.isEmpty_nil,
    Bool.not_true, Bool.or_false]
  rw [← hq]

theorem queueSent_cons (hb : s.uart.tsrBusy = false) :
    queueSent (characterSent s b q rest') q rest = queueSent s (b :: q) rest := by
  simp [queueSent, characterSent, hb, List.getLast?_cons, Bool.or_assoc]

end

/-- Settles O58, by induction on the queue: the oldest character goes out (`reaches_characterSent`), and then the others. -/
theorem queuedCharactersReachTheLine : Obligations.QueuedCharactersReachTheLine := by
  intro s q rest hq hb hd hline hi
  simp only [← dataBitsOf_eq]
  show Reaches (2 * q.length) s (queueSent s q rest)
  induction q generalizing s with
  | nil =>
    obtain rfl : s.inputs = rest := hi
    rw [queueSent_nil hq]
    exact reaches_zero s
  | cons b q ih =>
    rw [← queueSent_cons hb]
    exact reaches_characterSent hq hb hd hline hi (ih (characterSent s b q _) rfl rfl hd hline rfl)

end Sys2Proof.Proofs
end

section
/-! PROOFS. What the transactions of the GPIO banks and of the IOC block do, and the write-mask update that they share
(45_gpio_iomux.md R700 to R708, R710 to R712). -/

namespace Sys2Proof.Proofs

open Sys2Proof.Machine Sys2Proof.Laws

/-! ### The write-mask update (R700) -/

theorem wmUpdate_idempotent (reg : Half) (v : Word) : wmUpdate (wmUpdate reg v) v = wmUpdate reg v := by
  apply BitVec.eq_of_getLsbD_eq
  intro i hi
  cases hm : v.getLsbD (16 + i) <;> simp [wmUpdate_getLsbD, hm]

/-- Settles O26, by `wmUpdate_getLsbD` for each bit, and by `wmUpdate_idempotent`. -/
theorem writeMaskSelectsBits : Obligations.WriteMaskSelectsBits := by
  refine fun reg v => ⟨fun i hi => ?_, wmUpdate_idempotent reg v⟩
  rw [wmUpdate_getLsbD, decide_eq_true hi, Bool.true_and]

/-! ### The GPIO banks (R701 to R708) -/

section
variable {s : State} {k : BitVec 7} {g : GpioBank}

theorem readGpio_eq_afterRead (hg : s.gpio[k.toNat]? = some g) (off : BitVec 12) (reg : GpioBank → Half) :
    s.readGpio k off reg =
      .next ({ s with draws := s.draws + 1 }.afterRead (.gpio k) off (s.draw 0 16 ++ reg g)) := by
  rw [State.readGpio, hg]
  rfl

theorem readGpio_absent (hg : s.gpio[k.toNat]? = none) (off : BitVec 12) (reg : GpioBank → Half) :
    s.readGpio k off reg = .refused (.unmappedAddress (.descriptor (gpioT false k off))) := by
  rw [State.readGpio, hg]

theorem writeGpio_eq_afterWrite (hg : s.gpio[k.toNat]? = some g) (off : BitVec 12) (v : Word)
    (upd : GpioBank → GpioBank) :
    s.writeGpio k off v upd =
      .next ({ s with gpio := s.gpio.set k.toNat (upd g) }.afterWrite (.gpio k) off v) := by
  rw [State.writeGpio, hg]
  rfl

theorem writeGpio_absent (hg : s.gpio[k.toNat]? = none) (off : BitVec 12) (v : Word) (upd : GpioBank → GpioBank) :
    s.writeGpio k off v upd = .refused (.unmappedAddress (.descriptor (gpioT true k off))) := by
  rw [State.writeGpio, hg]

end

/-- Settles O23: the four reads are one read (`readGpio_eq_afterRead`, `readGpio_absent`) of four registers. -/
theorem gpioReads : Obligations.GpioReads := by
  refine fun s k => ⟨fun g hg => ⟨s.draw 0 16, s.draws + 1, ?_, ?_, ?_, ?_⟩, fun hnone i hi => ?_⟩
  · exact readGpio_eq_afterRead hg 0x000 (·.drL)
  · exact readGpio_eq_afterRead hg 0x004 (·.drH)
  · exact readGpio_eq_afterRead hg 0x008 (·.ddrL)
  · exact readGpio_eq_afterRead hg 0x00C (·.ddrH)
  · simp only [List.mem_cons, List.not_mem_nil, or_false] at hi
    rcases hi with rfl | rfl | rfl | rfl <;> exact readGpio_absent hnone ..

/-- Settles O24: the four writes are one write (`writeGpio_eq_afterWrite`, `writeGpio_absent`) of four registers. -/
theorem gpioWrites : Obligations.GpioWrites := by
  refine fun s k v => ⟨fun g hg => ⟨?_, ?_, ?_, ?_⟩, fun hnone i hi => ?_⟩
  · exact writeGpio_eq_afterWrite hg 0x000 v fun b => { b with drL := wmUpdate b.drL v }
  · exact writeGpio_eq_afterWrite hg 0x004 v fun b => { b with drH := wmUpdate b.drH v }
  · exact writeGpio_eq_afterWrite hg 0x008 v fun b => { b with ddrL := wmUpdate b.ddrL v }
  · exact writeGpio_eq_afterWrite hg 0x00C v fun b => { b with ddrH := wmUpdate b.ddrH v }
  · simp only [List.mem_cons, List.not_mem_nil, or_false] at hi
    rcases hi with rfl | rfl | rfl | rfl <;> exact writeGpio_absent hnone ..

/-! ### The IOC block (R710 to R712) -/

section
variable {s : State} {off : BitVec 12}

theorem execRdIoc_register (hr : off.toNat ∈ s.cfg.iocRegSet) :
    exec (.rdIoc off) s =
      .next ({ s with draws := s.draws + 1 }.afterRead .ioc off (s.draw 0 16 ++ s.iocReg off)) :=
  if_pos (List.contains_iff_mem.mpr hr)

theorem execWrIoc_register (hr : off.toNat ∈ s.cfg.iocRegSet) (v : Word) :
    exec (.wrIoc off v) s = .next ((s.setIocReg off (wmUpdate (s.iocReg off) v)).afterWrite .ioc off v) :=
  if_pos (List.contains_iff_mem.mpr hr)

theorem execRdIoc_no_register (hr : off.toNat ∉ s.cfg.iocRegSet) :
    exec (.rdIoc off) s = .refused (.notModelledOffset .ioc off) :=
  if_neg (mt List.contains_iff_mem.mp hr)

theorem execWrIoc_no_register (hr : off.toNat ∉ s.cfg.iocRegSet) (v : Word) :
    exec (.wrIoc off v) s = .refused (.notModelledOffset .ioc off) :=
  if_neg (mt List.contains_iff_mem.mp hr)

theorem iocReg_setIocReg_same (hw : sparseWf 0 s.ioc = true) (off : BitVec 12) (h : Half) :
    (s.setIocReg off h).iocReg off = h :=
  sparseGet_sparseSet_same 0 off.toNat h hw

theorem iocReg_setIocReg_other {o : BitVec 12} (ho : o ≠ off) (h : Half) :
    (s.setIocReg off h).iocReg o = s.iocReg o :=
  sparseGet_sparseSet_other 0 off.toNat h (mt BitVec.eq_of_toNat_eq ho) s.ioc

end

/-- Settles O25: the register written reads as its write-mask update (`iocReg_setIocReg_same`), every other as before
(`iocReg_setIocReg_other`). -/
theorem iocTransactions : Obligations.IocTransactions := by
  refine fun s off v => ⟨fun hr hw => ⟨⟨_, _, execRdIoc_register hr⟩, ?_⟩, fun hr => ?_⟩
  · exact ⟨_, execWrIoc_register hr v, iocReg_setIocReg_same hw off _, fun o ho => iocReg_setIocReg_other ho _⟩
  · exact ⟨execRdIoc_no_register hr, execWrIoc_no_register hr v⟩

end Sys2Proof.Proofs
end

section
/-! PROOFS. Runs of one host (46_driver_procedures.md): what its statements do to the device and to its context, one rule
a statement (30_encoding.md R311 to R320), whatever the other hosts hold and whatever event comes after. -/

namespace Sys2Proof.Proofs

open Sys2Proof.Machine Sys2Proof.Laws

/-! ### Device and host apart -/

/-- The device of `d` with host `h` as bus master, the events `es` to come, and the hosts `hs`. -/
def hosted (d : State) (h : Nat) (es : List Event) (hs : List HostCtx) : State :=
  { d with inputs := es, master := h, hosts := hs }

/-- Host `h`'s transaction (T, WDATA) takes the device from `d` to `d'`, whatever events and hosts there are. -/
def Performed (h : Nat) (t v : Word) (d d' : State) : Prop :=
  ∀ es hs, perform t v (hosted d h es hs) = .next (hosted d' h es hs)

/-- The next `k` statements of host `h` take the device from `d` to `d'` and the host's context from `c` to `c'`. -/
def HostRun (h k : Nat) (d : State) (c : HostCtx) (d' : State) (c' : HostCtx) : Prop :=
  ∀ (rest : List Event) (hs : List HostCtx), h < hs.length →
    Reaches k (hosted d h (List.replicate k (.agent (.host h)) ++ rest) (hs.set h c))
      (hosted d' h rest (hs.set h c'))

/-- The host is not halted, and its statements from `pc` on begin with `l`. -/
def Ahead (c : HostCtx) (l : List Stmt) : Prop :=
  c.halted = false ∧ l <+: (c.body.drop c.pc).map Line.stmt

section
variable {c c' : HostCtx} {st : Stmt} {l : List Stmt}

theorem Ahead.next (a : Ahead c (st :: l)) : ∃ x, c.body[c.pc]? = some ⟨x, st⟩ := by
  obtain ⟨-, post, hp⟩ := a
  have hx : ((c.body.drop c.pc).map Line.stmt)[0]? = some st := by rw [← hp]; rfl
  rw [List.getElem?_map, List.getElem?_drop, Nat.add_zero, Option.map_eq_some_iff] at hx
  obtain ⟨⟨x, _⟩, hx, rfl⟩ := hx
  exact ⟨x, hx⟩

theorem Ahead.tail (a : Ahead c (st :: l)) (hb : c'.body = c.body) (hp : c'.pc = c.pc + 1)
    (hh : c'.halted = c.halted) : Ahead c' l := by
  obtain ⟨ha, post, hpost⟩ := a
  refine ⟨hh.trans ha, post, ?_⟩
  rw [hb, hp, ← List.drop_drop, List.map_drop, ← hpost]
  rfl

theorem Ahead.of_append {l' : List Stmt} (a : Ahead c (l ++ l')) : Ahead c l :=
  ⟨a.1, (List.prefix_append l l').trans a.2⟩

theorem Ahead.enter (a : Ahead c l) (dst : Option Var) (body : List Line) :
    Ahead (c.enter dst body) (body.map Line.stmt) := ⟨a.1, List.prefix_rfl⟩

theorem ahead_of_getElem? (ha : c.halted = false) {x : Option Label} (hb : c.body[c.pc]? = some ⟨x, st⟩) :
    Ahead c [st] := by
  refine ⟨ha, (c.body.drop (c.pc + 1)).map Line.stmt, ?_⟩
  obtain ⟨hl, hx⟩ := List.getElem?_eq_some_iff.mp hb
  rw [List.drop_eq_getElem_cons hl, hx]
  rfl

end

/-! ### Runs -/

section
variable {h k m n : Nat} {s d d₁ d' : State} {c c₁ c' : HostCtx} {st : Stmt} {l : List Stmt} {rest : List Event}

theorem run_of_step (e : step s = .next d) : core.run (n + 1) s = core.run n d :=
  (Host.Core.run.eq_2 core s n).trans (by rw [show core.step s = .next d from e])

/-- Of a state's run only the first step sees the state. -/
theorem run_congr (e : step s = step d) : core.run (n + 1) s = core.run (n + 1) d :=
  (Host.Core.run.eq_2 core s n).trans (.trans (by rw [show core.step s = core.step d from e])
    (Host.Core.run.eq_2 core d n).symm)

theorem step_of_reaches_succ (r : Reaches (n + 1) s d) : ∃ s', step s = .next s' ∧ Reaches n s' d := by
  have hr := (Host.Core.run.eq_2 core s n).symm.trans r
  cases hs : step s with
  | next s' =>
    rw [show core.step s = .next s' from hs] at hr
    exact ⟨s', rfl, hr⟩
  | fault x => cases x
  | refused x =>
    rw [show core.step s = .refused x from hs] at hr
    cases hr

theorem run_add (r : Reaches k s d) : core.run (k + m) s = core.run m d := by
  induction k generalizing s with
  | zero =>
    obtain rfl : s = d := Host.Outcome.next.inj r
    rw [Nat.zero_add]
  | succ k ih =>
    obtain ⟨s', hs, r'⟩ := step_of_reaches_succ r
    rw [Nat.add_right_comm]
    exact (run_of_step hs).trans (ih r')

theorem HostRun.refl (h : Nat) (d : State) (c : HostCtx) : HostRun h 0 d c d c := fun _ _ _ => reaches_zero _

/-- Runs compose. -/
theorem HostRun.trans (r : HostRun h k d c d₁ c₁) (r' : HostRun h m d₁ c₁ d' c') : HostRun h (k + m) d c d' c' := by
  intro rest hs hl
  have hrun := r (List.replicate m (.agent (.host h)) ++ rest) hs hl
  rw [← List.append_assoc, List.replicate_append_replicate] at hrun
  exact (run_add hrun).trans (r' rest hs hl)

/-- The run of one statement, and then the rest. -/
theorem HostRun.cons (a : Ahead c (st :: l))
    (hs : ∀ es hs, stmtStep h c st (hosted d h es hs) = .next ((hosted d₁ h es hs).setHost h c₁))
    (r : HostRun h k d₁ c₁ d' c') : HostRun h (k + 1) d c d' c' := by
  intro rest hs' hl
  obtain ⟨x, hx⟩ := a.next
  refine reaches_stmt (rest := List.replicate k (.agent (.host h)) ++ rest) rfl (List.getElem?_set_self hl) a.1 hx
    (hs _ _) ?_
  have hset : (hosted d₁ h (List.replicate k (.agent (.host h)) ++ rest) (hs'.set h c)).setHost h c₁ =
      hosted d₁ h (List.replicate k (.agent (.host h)) ++ rest) (hs'.set h c₁) := by
    simp only [State.setHost, hosted, List.set_set]
  exact hset ▸ r rest hs' hl

/-- The steps that `RunsAlone` promises run the host's statements; `m` of them may be left. -/
theorem reaches_of_runsAlone (r : s.RunsAlone h c st (n + m) rest) (hn : n ≠ 0) (g : HostRun h n s c d' c') :
    Reaches n s (hosted d' h (List.replicate m (.agent (.host h)) ++ rest) (s.hosts.set h c')) := by
  obtain ⟨k, rfl⟩ := Nat.exists_eq_add_one_of_ne_zero hn
  obtain ⟨hi, hh, ha, l, hb⟩ := r
  obtain ⟨hl, hget⟩ := List.getElem?_eq_some_iff.mp hh
  have hi' : s.inputs = .agent (.host h) :: (List.replicate (k + m) (.agent (.host h)) ++ rest) := by
    rw [hi, Nat.add_right_comm]; rfl
  have hev : s.nextEvent = .agent (.host h) := by simp only [State.nextEvent, hi']
  have hrun := g (List.replicate m (.agent (.host h)) ++ rest) s.hosts hl
  rw [← List.append_assoc, List.replicate_append_replicate, ← hi, ← hget, List.set_getElem_self] at hrun
  have hstep : step (hosted s h s.inputs s.hosts) = step s := by
    rw [step_of_runs (s := s) ⟨hev, hh, ha, l, hb⟩,
      step_of_runs (s := hosted s h s.inputs s.hosts) ⟨hev, hh, ha, l, hb⟩]
    simp only [State.taken, hosted, hi']
  exact (run_congr hstep.symm).trans hrun

end

/-! ### The rules of the statements -/

section
variable {h k : Nat} {d d₁ d' : State} {c c' : HostCtx} {l : List Stmt} {a : AddrOp} {x : Var} {t v w mask : Word}

theorem HostRun.rd (b : Ahead c (.rd x a :: l)) (hd : a.descriptor d.cfg false = .ok t) (hp : Performed h t 0 d d₁)
    (r : Ahead (c.assign x (.u32 d₁.rdata)).advance l → HostRun h k d₁ (c.assign x (.u32 d₁.rdata)).advance d' c') :
    HostRun h (k + 1) d c d' c' :=
  .cons b (fun es hs => by
    simp only [stmtStep, transact_ok (s := hosted d h es hs) hd, hp es hs]
    rfl) (r (b.tail rfl rfl rfl))

theorem HostRun.wr {e : UExpr} (b : Ahead c (.wr a e :: l)) (hv : e.eval c.vars = .ok v)
    (hd : a.descriptor d.cfg true = .ok t) (hp : Performed h t v d d₁)
    (r : Ahead c.advance l → HostRun h k d₁ c.advance d' c') : HostRun h (k + 1) d c d' c' :=
  .cons b (fun es hs => by
    simp only [stmtStep, hv, transact_ok (s := hosted d h es hs) hd, hp es hs]
    rfl) (r (b.tail rfl rfl rfl))

theorem HostRun.letU {e : UExpr} (b : Ahead c (.letU x e :: l)) (hv : e.eval c.vars = .ok v)
    (r : Ahead (c.assign x (.u32 v)).advance l → HostRun h k d (c.assign x (.u32 v)).advance d' c') :
    HostRun h (k + 1) d c d' c' :=
  .cons b (fun es hs => by simp only [stmtStep, hv]) (r (b.tail rfl rfl rfl))

theorem HostRun.letN {e : NExpr} {n : Nat} (b : Ahead c (.letN x e :: l)) (hv : e.eval c.vars = .ok n)
    (r : Ahead (c.assign x (.nat n)).advance l → HostRun h k d (c.assign x (.nat n)).advance d' c') :
    HostRun h (k + 1) d c d' c' :=
  .cons b (fun es hs => by simp only [stmtStep, hv]) (r (b.tail rfl rfl rfl))

theorem HostRun.bz_falls {m : UExpr} {y : Label} (b : Ahead c (.bz x m y :: l)) (hw : (UExpr.var x).eval c.vars = .ok w)
    (hm : m.eval c.vars = .ok mask) (hz : w &&& mask ≠ 0) (r : Ahead c.advance l → HostRun h k d c.advance d' c') :
    HostRun h (k + 1) d c d' c' :=
  .cons b (fun es hs => by rw [stmtStep_bz hw hm, if_neg hz]) (r (b.tail rfl rfl rfl))

theorem HostRun.bz_jumps {m : UExpr} {y : Label} {n : Nat} (b : Ahead c (.bz x m y :: l))
    (hw : (UExpr.var x).eval c.vars = .ok w) (hm : m.eval c.vars = .ok mask) (hz : w &&& mask = 0)
    (hy : labelIndex y c.body = some n) (r : HostRun h k d { c with pc := n } d' c') : HostRun h (k + 1) d c d' c' :=
  .cons b (fun es hs => by rw [stmtStep_bz hw hm, if_pos hz, branch_ok hy]) r

theorem HostRun.ret {g : RetArg} {v : Option Val} (b : Ahead c (.ret g :: l)) (hv : g.eval c.vars = .ok v) :
    HostRun h 1 d c d (c.doReturn v) :=
  .cons b (fun es hs => by simp only [stmtStep, hv]) (.refl h d _)

theorem HostRun.call {dst : Option Var} {p : Proc} {body : List Line} (b : Ahead c (.call dst p :: l))
    (hp : p.body d.cfg c.vars = .ok body)
    (r : Ahead (c.enter dst body) (body.map Line.stmt) → HostRun h k d (c.enter dst body) d' c') :
    HostRun h (k + 1) d c d' c' :=
  .cons b (fun es hs => by
    have hp' : p.body (hosted d h es hs).cfg c.vars = .ok body := hp
    simp only [stmtStep, hp']) (r (b.enter dst body))

theorem HostRun.poll {m : UExpr} (b : Ahead c (.poll x a m :: l)) (hd : a.descriptor d.cfg false = .ok t)
    (hp : Performed h t 0 d d₁) (hw : sparseWf (.u32 0) c.vars = true)
    (hm : m.eval (setVar x (.u32 d₁.rdata) c.vars) = .ok mask)
    (r : HostRun h k d₁ (pollNext d₁.cfg.pollBound (d₁.rdata &&& mask == 0) (c.assign x (.u32 d₁.rdata))) d' c') :
    HostRun h (k + 1) d c d' c' :=
  .cons b (fun es hs => by
    simp only [stmtStep, transact_ok (s := hosted d h es hs) hd, hp es hs]
    exact afterPollRead_ok (s' := hosted d₁ h es hs) hw hm) r

end

/-! ### The context of a body (log 12) -/

section
variable {c : HostCtx} {dst : Option Var} {v : Option Val} {body : List Line} {pc : Nat} {vars : List (Nat × Val)}

/-- The context of a host in the body of a procedure that the statement at the `pc` of `c` called. -/
def inBody (c : HostCtx) (dst : Option Var) (body : List Line) (pc : Nat) (vars : List (Nat × Val)) : HostCtx :=
  { c.enter dst body with pc := pc, vars := vars }

/-- The return from a body, with the TIMEOUT that it leaves (log 17). -/
theorem doReturn_inBody : (inBody c dst body pc vars).doReturn v =
    { c with vars := carryTimeout (getVar vars timeoutVar) c.vars }.returned dst v := by
  cases dst <;> cases v <;> rfl

/-- The return from a body that leaves TIMEOUT as it was. -/
theorem doReturn_inBody_same (ht : getVar vars timeoutVar = getVar c.vars timeoutVar) :
    (inBody c dst body pc vars).doReturn v = c.returned dst v := by
  rw [doReturn_inBody, carryTimeout_same ht.symm]

end

/-- The variables a body starts with: those of `carryTimeout`, in canonical form. -/
def bodyVars (c : HostCtx) : List (Nat × Val) := carryTimeout (getVar c.vars timeoutVar) []

section
variable {vars : List (Nat × Val)}

theorem setVar_wf (h : sparseWf (.u32 0) vars = true) (x : Var) (v : Val) :
    sparseWf (.u32 0) (setVar x v vars) = true := sparseSet_wf _ _ _ h

@[simp] theorem bodyVars_wf (c : HostCtx) : sparseWf (.u32 0) (bodyVars c) = true := by
  unfold bodyVars carryTimeout
  split
  · rfl
  · exact setVar_wf rfl _ _

@[simp] theorem bodyVars_timeout (c : HostCtx) : getVar (bodyVars c) timeoutVar = getVar c.vars timeoutVar :=
  getVar_carryTimeout_nil _

end

section
variable {h k : Nat} {s d d' : State} {c c' : HostCtx} {st : Stmt} {l : List Stmt} {rest : List Event}

/-- The `ret` at the end of a body that leaves TIMEOUT as it was. -/
theorem HostRun.ret_inBody {dst : Option Var} {body : List Line} {pc : Nat} {vars : List (Nat × Val)} {g : RetArg}
    {v : Option Val} (b : Ahead (inBody c dst body pc vars) (.ret g :: l)) (hv : g.eval vars = .ok v)
    (ht : getVar vars timeoutVar = getVar c.vars timeoutVar) :
    HostRun h 1 d (inBody c dst body pc vars) d (c.returned dst v) :=
  doReturn_inBody_same ht ▸ .ret b hv

theorem ahead_of_runsAlone {n : Nat} (r : s.RunsAlone h c st n rest) : Ahead c [st] := by
  obtain ⟨-, -, ha, x, hb⟩ := r
  exact ahead_of_getElem? ha hb

end

@[simp] theorem getVar_setVar_timeout {x : Var} (hx : timeoutVar ≠ x) (v : Val) (vars : List (Nat × Val)) :
    getVar (setVar x v vars) timeoutVar = getVar vars timeoutVar := getVar_setVar_other hx v vars

end Sys2Proof.Proofs
end

section
/-! PROOFS. The procedures that compute a value (46_driver_procedures.md R801, R802): three steps, the call among
them, and no transaction. -/

namespace Sys2Proof.Proofs

open Sys2Proof.Machine Sys2Proof.Laws

/-! ### `bit_range_mask` and `compute_divisor` (R801, R802) -/

/-- The value of R801 has exactly the bits from `low` to `high` set. -/
theorem bitRangeMask_getLsbD {high low : Nat} (hl : low ≤ high) (hh : high ≤ 31) (i : Nat) :
    (bitRangeMask high low).getLsbD i = (decide (low ≤ i) && decide (i ≤ high)) := by
  have hsplit : 2 ^ (high + 1) - 2 ^ low = 2 ^ low * (2 ^ (high + 1 - low) - 1) := by
    rw [Nat.mul_sub, ← Nat.pow_add, Nat.mul_one, Nat.add_sub_cancel' (by omega)]
  rw [bitRangeMask, BitVec.getLsbD_ofNat, hsplit, Nat.testBit_two_pow_mul, Nat.testBit_two_pow_sub_one]
  rw [Bool.eq_iff_iff]
  simp only [Bool.and_eq_true, decide_eq_true_eq]
  omega

theorem eval_divisorExpr {src baud : Nat} (hb : 0 < baud) (vars : List (Nat × Val)) :
    (divisorExpr src baud).eval vars = .ok (computeDivisor src baud) := by
  have hn : baud * 16 ≠ 0 := by omega
  simp [divisorExpr, NExpr.eval, both, divNat, hn, computeDivisor]

section
variable {h : Nat} {d : State} {c : HostCtx} {l : List Stmt} {dst : Option Var} {a b : NExpr}

theorem hostRun_bitRangeMask {high low : Nat} (hb : Ahead c (.call dst (.bitRangeMask a b) :: l))
    (hh : a.eval c.vars = .ok high) (hl : b.eval c.vars = .ok low) (hr : low ≤ high ∧ high ≤ 31) :
    HostRun h 3 d c d (c.returned dst (some (.u32 (bitRangeMask high low)))) := by
  refine .call hb ((body_bitRangeMask hh hl).trans (if_pos hr)) fun hb => ?_
  refine .letU (v := bitRangeMask high low) hb rfl fun hb => ?_
  refine .ret_inBody (vars := setVar varV _ (bodyVars c)) (pc := 1) hb ?_ ?_
  · rw [RetArg.eval, eval_var_setVar_u32 (bodyVars_wf c)]
    rfl
  · rw [getVar_setVar_timeout (by decide), bodyVars_timeout]

theorem hostRun_computeDivisor {src baud : Nat} (hb : Ahead c (.call dst (.computeDivisor a b) :: l))
    (hs : a.eval c.vars = .ok src) (hd : b.eval c.vars = .ok baud) (hr : 0 < baud) :
    HostRun h 3 d c d (c.returned dst (some (.nat (computeDivisor src baud)))) := by
  refine .call hb ((body_computeDivisor hs hd).trans (if_neg (Nat.ne_of_gt hr))) fun hb => ?_
  refine .letN hb (eval_divisorExpr hr _) fun hb => ?_
  refine .ret_inBody (vars := setVar varD _ (bodyVars c)) (pc := 1) hb ?_ ?_
  · rw [RetArg.eval, NExpr.eval, getVar_setVar_same (bodyVars_wf c)]
    rfl
  · rw [getVar_setVar_timeout (by decide), bodyVars_timeout]

end

/-- Settles O48, by the run of the body, by `bitRangeMask_getLsbD`, and by the argument check that refuses the call. -/
theorem bitRangeMaskCall : Obligations.BitRangeMaskCall := by
  intro s h c dst a b high low rest r ha hb
  refine ⟨fun hl hh => ⟨bitRangeMask high low, ?_, bitRangeMask_getLsbD hl hh⟩, fun hn => ?_⟩
  · exact reaches_of_runsAlone (m := 0) r (by decide) (hostRun_bitRangeMask (ahead_of_runsAlone r) ha hb ⟨hl, hh⟩)
  · exact step_refuses (RunsAlone.runs r) fun s' hc => by
      simp only [stmtStep, hc, body_bitRangeMask ha hb, if_neg hn]
      rfl

/-- Settles O49, by the run of the body and the bounds that a quotient puts on its dividend. -/
theorem computeDivisorCall : Obligations.ComputeDivisorCall := by
  intro s h c dst a b src baud rest r ha hb hpos
  refine ⟨computeDivisor src baud, ?_, ?_⟩
  · exact reaches_of_runsAlone (m := 0) r (by decide) (hostRun_computeDivisor (ahead_of_runsAlone r) ha hb hpos)
  · have hlo := Nat.div_mul_le_self (src + baud * 16 / 2) (baud * 16)
    have hhi := Nat.lt_div_mul_add (a := src + baud * 16 / 2) (b := baud * 16) (by omega)
    rw [computeDivisor]
    generalize (src + baud * 16 / 2) / (baud * 16) = d at hlo hhi
    have hm : 2 * (16 * baud) * d = 2 * (d * (baud * 16)) := by ring
    have hm' : 2 * (16 * baud) * (d + 1) = 2 * (d * (baud * 16)) + 2 * (baud * 16) := by ring
    rw [hm, hm']
    omega

end Sys2Proof.Proofs
end

section
/-! PROOFS. What each transaction of the UART leaves of the device (40_uart_banked.md, 41_uart_line_control.md and
42_uart_status_modem.md), as a function of the device before it, for the procedures that issue it. -/

namespace Sys2Proof.Proofs

open Sys2Proof.Machine Sys2Proof.Laws

/-! ### What a transaction of host `h` leaves of the device -/

/-- A performed transaction of host `h` is recorded (R212). -/
def recorded (h : Nat) (b : Block) (off : BitVec 12) (dir : Dir) (v : Word) (d : State) : State :=
  { d with hlog := d.hlog ++ [Txn.mk h b off dir v] }

theorem Performed.of_exec {h : Nat} {t v : Word} {d d' : State} {i : Instr} (hi : decode d.cfg d.uart.dlab t v = .ok i)
    (he : ∀ es hs, exec i (hosted d h es hs) = .next (hosted d' h es hs)) : Performed h t v d d' :=
  fun es hs => (perform_ok (s := hosted d h es hs) hi).trans (he es hs)

/-- A read of LSR clears the four error bits (R502). -/
def errorsCleared (u : Uart) : Uart := { u with oe := false, peS := false, feS := false, biS := false }

/-- RDATA of a read of LSR. -/
def lsrWord (d : State) : Word := (lsr d.cfg d.uart).setWidth 32

/-- The device after a read of LSR (R502). -/
def lsrRead (h : Nat) (d : State) : State :=
  recorded h .uart 0x014 .read (lsrWord d) { d with rdata := lsrWord d, uart := errorsCleared d.uart }

/-- The device after a read of LCR (R452). -/
def lcrRead (h : Nat) (d : State) : State :=
  recorded h .uart 0x00C .read (d.uart.lcr.setWidth 32) { d with rdata := d.uart.lcr.setWidth 32 }

/-- The device after a read of DLL (R402). -/
def dllRead (h : Nat) (d : State) : State :=
  recorded h .uart 0x000 .read (d.uart.dll.setWidth 32) { d with rdata := d.uart.dll.setWidth 32 }

/-- The device after a read of RBR that finds the entry `e` before the queue `q` (R400). -/
def rbrRead (h : Nat) (d : State) (e : RxEntry) (q : List RxEntry) : State :=
  recorded h .uart 0x000 .read (d.draw 0 24 ++ e.data)
    { d with rdata := d.draw 0 24 ++ e.data, draws := d.draws + 1, uart := popRx q d.uart }

/-- The device after a write of THR (R401). -/
def thrWritten (h : Nat) (v : Word) (d : State) : State :=
  recorded h .uart 0x000 .write v { d with uart := enqueueTx d.cfg (v.setWidth 8) d.uart }

/-- The device after a write of DLL, which a busy guard may ignore (R403, R408). -/
def dllWritten (h : Nat) (v : Word) (d : State) : State :=
  recorded h .uart 0x000 .write v
    { d with
      draws := d.draws + d.guardDraws
      uart := if d.guarded then d.uart else { d.uart with dll := v.setWidth 8 } }

/-- The device after a write of DLH, which a busy guard may ignore (R407, R408). -/
def dlhWritten (h : Nat) (v : Word) (d : State) : State :=
  recorded h .uart 0x004 .write v
    { d with
      draws := d.draws + d.guardDraws
      uart := if d.guarded then d.uart else { d.uart with dlh := v.setWidth 8 } }

/-- The device after a write of IER (R405). -/
def ierWritten (h : Nat) (v : Word) (d : State) : State :=
  recorded h .uart 0x004 .write v
    { d with uart := { d.uart with
        ier := v.setWidth 8 &&& ierMask d.cfg
        threIp := d.uart.threIp ||
          (!d.uart.ier.getLsbD 1 && (v.setWidth 8 &&& ierMask d.cfg).getLsbD 1 && d.uart.txq.isEmpty) } }

/-- The device after a write of FCR (R451). -/
def fcrWritten (h : Nat) (v : Word) (d : State) : State :=
  recorded h .uart 0x008 .write v { d with uart := raiseThreIfEmptied d.uart (writeFcr v d.uart) }

/-- The device after a write of MCR (R503). -/
def mcrWritten (h : Nat) (v : Word) (d : State) : State :=
  recorded h .uart 0x010 .write v
    { d with
      uart := updateDeltas (effModem d.env d.uart) (effModem d.env { d.uart with mcr := v.setWidth 7 })
        { d.uart with mcr := v.setWidth 7 } }

/-- The line events of a write that takes the break control bit from `old` to `new` (R605). -/
def breakEvents (old new : Bool) : List LineEvent :=
  if old = false ∧ new = true then [.breakStart] else if old = true ∧ new = false then [.breakEnd] else []

/-- The device after a write of LCR, which a busy guard may turn into a busy detect (R453). -/
def lcrWritten (h : Nat) (v : Word) (d : State) : State :=
  recorded h .uart 0x00C .write v
    { d with
      draws := d.draws + d.guardDraws
      txlog := d.txlog ++ if d.guarded then [] else breakEvents d.uart.bc (v.getLsbD 6)
      uart := if d.guarded then { d.uart with busyIp := true } else { d.uart with lcr := v.setWidth 8 } }

section
variable (h : Nat) (v : Word) (d : State)

theorem performed_rdLsr : Performed h (uartT false 0x014) 0 d (lsrRead h d) :=
  .of_exec (decode_descriptor (i := .rdLsr) rfl 0) fun _ _ => rfl

theorem performed_rdLcr : Performed h (uartT false 0x00C) 0 d (lcrRead h d) :=
  .of_exec (decode_descriptor (i := .rdLcr) rfl 0) fun _ _ => rfl

theorem performed_wrFcr : Performed h (uartT true 0x008) v d (fcrWritten h v d) :=
  .of_exec (decode_descriptor (i := .wrFcr v) rfl 0) fun _ _ => rfl

theorem performed_wrMcr (h5 : v.getLsbD 5 = false) (h6 : v.getLsbD 6 = false) :
    Performed h (uartT true 0x010) v d (mcrWritten h v d) :=
  .of_exec (decode_descriptor (i := .wrMcr v) rfl 0) fun es hs =>
    execWrMcr_admitted (s := hosted d h es hs) h5 h6

theorem performed_wrLcr : Performed h (uartT true 0x00C) v d (lcrWritten h v d) := by
  refine .of_exec (decode_descriptor (i := .wrLcr v) rfl 0) fun es hs => ?_
  have hg : (hosted d h es hs).guarded = d.guarded := rfl
  simp only [exec, execWrLcr, hg, lcrWritten]
  cases d.guarded
  · rw [logBreak_eq]
    rfl
  · rw [if_pos rfl, if_pos rfl, if_pos rfl, List.append_nil]
    rfl

variable {d}

theorem performed_rdDll (hl : d.uart.dlab = true) : Performed h (uartT false 0x000) 0 d (dllRead h d) :=
  .of_exec (decode_descriptor (i := .rdDll) hl 0) fun _ _ => rfl

theorem performed_wrDll (hl : d.uart.dlab = true) : Performed h (uartT true 0x000) v d (dllWritten h v d) :=
  .of_exec (decode_descriptor (i := .wrDll v) hl 0) fun _ _ => rfl

theorem performed_wrDlh (hl : d.uart.dlab = true) : Performed h (uartT true 0x004) v d (dlhWritten h v d) :=
  .of_exec (decode_descriptor (i := .wrDlh v) hl 0) fun _ _ => rfl

theorem performed_rdRbr (hl : d.uart.dlab = false) {e : RxEntry} {q : List RxEntry} (hq : d.uart.rxq = e :: q) :
    Performed h (uartT false 0x000) 0 d (rbrRead h d e q) :=
  .of_exec (decode_descriptor (i := .rdRbr) (by simp [Instr.wf, hl]) 0) fun es hs => by
    have hq' : (hosted d h es hs).uart.rxq = e :: q := hq
    simp only [exec, execRdRbr, hq']
    rfl

theorem performed_wrThr (hl : d.uart.dlab = false) : Performed h (uartT true 0x000) v d (thrWritten h v d) :=
  .of_exec (decode_descriptor (i := .wrThr v) (by simp [Instr.wf, hl]) 0) fun _ _ => rfl

theorem performed_wrIer (hl : d.uart.dlab = false) : Performed h (uartT true 0x004) v d (ierWritten h v d) :=
  .of_exec (decode_descriptor (i := .wrIer v) (by simp [Instr.wf, hl]) 0) fun _ _ => rfl

end

end Sys2Proof.Proofs
end

section
/-! PROOFS. The procedures that send, receive and enable interrupts (46_driver_procedures.md R804 to R806, R813): the poll
of TEMT that R803 and R804 begin with, once for both, and its end when the transmitter does not empty. -/

namespace Sys2Proof.Proofs

open Sys2Proof.Machine Sys2Proof.Laws

/-! ### Bits of LSR (R114) -/

/-- A mask of one bit tests that bit. -/
theorem and_twoPow_eq_zero_iff (w : Word) (i : Nat) (hi : i < 32) :
    w &&& BitVec.twoPow 32 i = 0 ↔ w.getLsbD i = false := by
  rw [BitVec.and_twoPow]
  cases w.getLsbD i
  · simp
  · simp only [if_true, Bool.true_eq_false, iff_false]
    intro h
    have := congrArg (·.getLsbD i) h
    simp [hi] at this

section
variable (d : State)

theorem lsrWord_temt : (lsrWord d).getLsbD 6 = d.uart.temt := by
  simp only [lsrWord, BitVec.getLsbD_setWidth, lsr, byteOf_getLsbD]
  rfl

theorem lsrWord_dr : (lsrWord d).getLsbD 0 = d.uart.dr := by
  simp only [lsrWord, BitVec.getLsbD_setWidth, lsr, byteOf_getLsbD]
  rfl

theorem temt_iff : d.uart.temt = true ↔ d.transmitterEmpty := by
  simp [Uart.temt, State.transmitterEmpty]

theorem lsrWord_and_temt : lsrWord d &&& 0x40 = 0 ↔ ¬d.transmitterEmpty := by
  rw [← temt_iff, ← lsrWord_temt, Bool.not_eq_true]
  exact and_twoPow_eq_zero_iff _ 6 (by decide)

theorem lsrWord_and_dr : lsrWord d &&& 0x1 = 0 ↔ d.uart.rxq = [] := by
  rw [show (0x1 : Word) = BitVec.twoPow 32 0 from rfl, and_twoPow_eq_zero_iff _ 0 (by decide), lsrWord_dr]
  simp [Uart.dr]

end

/-! ### The poll of TEMT (R803 (a), R804, R813) -/

theorem map_stmt_unlabelled (l : List Stmt) : (unlabelled l).map Line.stmt = l := by
  rw [unlabelled, List.map_map]
  exact List.map_id l

/-- The label at the end of a body is found there. -/
theorem labelIndex_unlabelled (l : List Stmt) (y : Label) (st : Stmt) :
    labelIndex y (unlabelled l ++ [⟨some y, st⟩]) = some l.length := by
  induction l with
  | nil => simp [unlabelled, labelIndex]
  | cons x l ih =>
    have hcons : unlabelled (x :: l) ++ [⟨some y, st⟩] = ⟨none, x⟩ :: (unlabelled l ++ [⟨some y, st⟩]) := rfl
    rw [hcons, labelIndex, ih]
    rfl

section
variable {p : Params} {l : List Stmt} {n : Nat}

theorem pollTemtThen_unbounded (hp : p.pollBound = none) :
    pollTemtThen p l = unlabelled (.poll varT (.uart 0x014) (.lit 0x40) :: l) := by
  simp only [pollTemtThen, hp]

theorem pollTemtThen_bounded (hp : p.pollBound = some n) :
    pollTemtThen p l = unlabelled (.poll varT (.uart 0x014) (.lit 0x40) :: .bz varT (.lit 0x40) 0 :: l) ++
      [{ label := some 0, stmt := .ret .timedOut }] := by
  simp only [pollTemtThen, hp]

end

section
variable {h k n : Nat} {d d' : State} {c c' : HostCtx} {l stmts : List Stmt} {dst : Option Var} {p : Proc}

/-- The variables once `t` has taken the LSR of `d`. -/
def polledVars (c : HostCtx) (d : State) : List (Nat × Val) := setVar varT (.u32 (lsrWord d)) (bodyVars c)

/-- With the transmitter empty the poll reads LSR once, and under a POLL_BOUND the branch after it falls through. -/
theorem hostRun_pollTemtThen (hb : Ahead c (.call dst p :: l))
    (hp : p.body d.cfg c.vars = .ok (pollTemtThen d.cfg stmts)) (he : d.transmitterEmpty)
    (r : ∀ body pc, Ahead (inBody c dst body pc (polledVars c d)) stmts →
      HostRun h k (lsrRead h d) (inBody c dst body pc (polledVars c d)) d' c') :
    HostRun h (if d.cfg.pollBound = none then k + 2 else k + 3) d c d' c' := by
  have hset : (lsrRead h d).rdata &&& 0x40 ≠ 0 := (lsrWord_and_temt d).not.mpr (not_not.mpr he)
  cases hbound : d.cfg.pollBound with
  | none =>
    rw [pollTemtThen_unbounded hbound] at hp
    rw [if_pos rfl]
    refine .call hb hp fun hb => ?_
    rw [map_stmt_unlabelled] at hb
    refine .poll hb rfl (performed_rdLsr h d) (bodyVars_wf c) rfl ?_
    rw [pollNext_set _ hset]
    exact r _ 1 (hb.tail rfl rfl rfl)
  | some n =>
    rw [pollTemtThen_bounded hbound] at hp
    rw [if_neg nofun]
    refine .call hb hp fun hb => ?_
    rw [List.map_append, map_stmt_unlabelled] at hb
    refine .poll hb.of_append rfl (performed_rdLsr h d) (bodyVars_wf c) rfl ?_
    rw [pollNext_set _ hset]
    exact .bz_falls (hb.of_append.tail rfl rfl rfl) (eval_var_setVar_u32 (bodyVars_wf c) _ _) rfl hset
      fun hb => r _ 2 hb

end

@[simp] theorem polledVars_wf (c : HostCtx) (d : State) : sparseWf (.u32 0) (polledVars c d) = true :=
  setVar_wf (bodyVars_wf c) _ _

@[simp] theorem polledVars_timeout (c : HostCtx) (d : State) :
    getVar (polledVars c d) timeoutVar = getVar c.vars timeoutVar := by
  rw [polledVars, getVar_setVar_timeout (by decide), bodyVars_timeout]

/-! ### `transmit` and `set_interrupt_enable` (R804, R806) -/

/-- The device after a write to offset 0x000: of THR, or with DLAB = 1 of DLL (R1019). -/
def dataWritten (h : Nat) (v : Word) (d : State) : State :=
  if d.uart.dlab then dllWritten h v d else thrWritten h v d

/-- The device after a write to offset 0x004: of IER, or with DLAB = 1 of DLH (R1019). -/
def enableWritten (h : Nat) (v : Word) (d : State) : State :=
  if d.uart.dlab then dlhWritten h v d else ierWritten h v d

theorem performed_wr000 (h : Nat) (v : Word) (d : State) :
    Performed h (uartT true 0x000) v d (dataWritten h v d) := by
  unfold dataWritten
  split
  · exact performed_wrDll h v ‹_›
  · exact performed_wrThr h v (Bool.not_eq_true _ ▸ ‹_›)

theorem performed_wr004 (h : Nat) (v : Word) (d : State) :
    Performed h (uartT true 0x004) v d (enableWritten h v d) := by
  unfold enableWritten
  split
  · exact performed_wrDlh h v ‹_›
  · exact performed_wrIer h v (Bool.not_eq_true _ ▸ ‹_›)

section
variable {h : Nat} {d : State} {c : HostCtx} {l : List Stmt} {dst : Option Var}

theorem hostRun_transmit {e : UExpr} {w : Word} (hb : Ahead c (.call dst (.transmit e) :: l))
    (hw : e.eval c.vars = .ok w) (he : d.transmitterEmpty) :
    HostRun h (if d.cfg.pollBound = none then 4 else 5) d c
      (dataWritten h ((w.setWidth 8).setWidth 32) (lsrRead h d)) (c.returned dst none) := by
  refine hostRun_pollTemtThen (k := 2) hb (by simp only [Proc.body, hw]; rfl) he fun body pc hb => ?_
  refine .wr hb rfl rfl (performed_wr000 _ _ _) fun hb => ?_
  exact .ret_inBody (pc := pc + 1) hb rfl (polledVars_timeout c d)

theorem hostRun_setInterruptEnable {en : Bool} (hb : Ahead c (.call dst (.setInterruptEnable en) :: l)) :
    HostRun h 3 d c (enableWritten h (if en then 1 else 0) d) (c.returned dst none) := by
  refine .call hb rfl fun hb => ?_
  refine .wr hb rfl rfl (performed_wr004 _ _ _) fun hb => ?_
  exact .ret_inBody (pc := 1) (vars := bodyVars c) hb rfl (bodyVars_timeout c)

end

theorem setWidth_byte (b : Byte) : (b.setWidth 32).setWidth 8 = b := by
  rw [BitVec.setWidth_setWidth_of_le _ (by decide), BitVec.setWidth_eq]

/-- A write of IER that does not set ETBEI raises nothing (R405). -/
theorem ierWritten_eq {b : Byte} (hb : b = 0 ∨ b = 1) (h : Nat) (d : State) :
    ierWritten h (b.setWidth 32) d =
      recorded h .uart 0x004 .write (b.setWidth 32) { d with uart := { d.uart with ier := b } } := by
  have hmask : b &&& ierMask d.cfg = b := by
    unfold ierMask
    rcases hb with rfl | rfl <;> split <;> decide
  have hetbei : b.getLsbD 1 = false := by rcases hb with rfl | rfl <;> decide
  rw [ierWritten, setWidth_byte, hmask, hetbei, Bool.and_false, Bool.false_and, Bool.or_false]

/-- Settles O54, by the run of the body, with the byte 1 or 0 kept by IER_MASK (`ierWritten_eq`) or taken by DLH. -/
theorem setInterruptEnableWritesIer : Obligations.SetInterruptEnableWritesIer := by
  intro s h c dst en rest r b
  refine ⟨(s.draw 0 1).getLsbD 0, s.draws + s.guardDraws, ?_⟩
  have hrun := reaches_of_runsAlone (m := 0) r (by decide) (hostRun_setInterruptEnable (ahead_of_runsAlone r))
  have hv : (if en then 1 else 0 : Word) = b.setWidth 32 := by cases en <;> rfl
  have hg : (s.cfg.busyGuard && (s.uart.tsrBusy || !s.uart.txq.isEmpty || (s.draw 0 1).getLsbD 0)) = s.guarded := rfl
  rw [hv, enableWritten] at hrun
  rw [hg]
  cases hl : s.uart.dlab
  · have hb : b = 0 ∨ b = 1 := by
      cases en
      · exact .inl rfl
      · exact .inr rfl
    rw [hl, if_neg Bool.false_ne_true, ierWritten_eq hb] at hrun
    exact hrun
  · rw [hl, if_pos rfl, dlhWritten, setWidth_byte] at hrun
    exact hrun

theorem fifoDepth_of_wf {p : Params} (h : p.wf = true) : 2 ≤ p.fifoDepth := by
  simp only [Params.wf, Bool.and_eq_true, decide_eq_true_eq] at h
  tauto

/-- A character queued while none is queued is the only one (R401). -/
theorem enqueueTx_empty {p : Params} {u : Uart} (hp : p.wf = true) (hq : u.txq = []) (b : Byte) :
    enqueueTx p b u = { u with threIp := false, txq := [b] } := by
  have hroom : u.txq.length < txcap p u := by
    rw [hq]
    exact txcap_pos_of_wf (fifoDepth_of_wf hp) u
  rw [enqueueTx_eq, if_pos hroom, hq]
  rfl

/-- With the transmitter empty the busy guard asks for receiver activity only (R408). -/
theorem guarded_of_transmitterEmpty {d : State} (he : d.transmitterEmpty) :
    d.guarded = (d.cfg.busyGuard && (d.draw 0 1).getLsbD 0) := by
  obtain ⟨hq, hb⟩ := he
  rw [State.guarded, State.busyNow, Uart.txBusy, hq, hb]
  rfl

/-- Settles O51, by the run of the body: the transmitter being empty, the byte is alone in the queue, or is in DLL. -/
theorem transmitQueuesItsByte : Obligations.TransmitQueuesItsByte := by
  intro s h c dst e w rest steps r hw hwf he u
  have hsteps : steps ≠ 0 := by
    simp only [steps]
    split <;> decide
  have hrun := reaches_of_runsAlone (m := 0) r hsteps (hostRun_transmit (ahead_of_runsAlone r) hw he)
  refine ⟨lsrWord s, (s.draw 0 1).getLsbD 0, s.draws + s.guardDraws, (lsrWord_temt s).trans ((temt_iff s).mpr he), ?_⟩
  have hv : BitVec.ofNat 32 (w.toNat % 256) = (w.setWidth 8).setWidth 32 := by
    apply BitVec.eq_of_toNat_eq
    simp
  have hg : (lsrRead h s).guarded = (s.cfg.busyGuard && (s.draw 0 1).getLsbD 0) :=
    guarded_of_transmitterEmpty (d := lsrRead h s) he
  have hdl : (lsrRead h s).uart.dlab = s.uart.dlab := rfl
  rw [hv, ← setWidth_eq_lowByte]
  cases hl : s.uart.dlab
  · rw [dataWritten, hdl, hl, if_neg Bool.false_ne_true, thrWritten, setWidth_byte,
      enqueueTx_empty (p := (lsrRead h s).cfg) (u := (lsrRead h s).uart) hwf he.1] at hrun
    simp only [recorded, lsrRead, List.append_assoc] at hrun
    exact hrun
  · rw [dataWritten, hdl, hl, if_pos rfl, dllWritten, hg, setWidth_byte] at hrun
    simp only [recorded, lsrRead, List.append_assoc] at hrun
    exact hrun

/-! ### `receive` (R805) -/

/-- A branch to the label at the end of a body leads to its last statement. -/
theorem ahead_at_label {c : HostCtx} {l : List Stmt} {y : Label} {st : Stmt} (ha : c.halted = false)
    (hb : c.body = unlabelled l ++ [⟨some y, st⟩]) : Ahead { c with pc := l.length } [st] := by
  refine ahead_of_getElem? (x := some y) ha ?_
  have hl : l.length = (unlabelled l).length := by simp [unlabelled]
  show c.body[l.length]? = _
  rw [hb, hl, List.getElem?_concat_length]

theorem setWidth_and_ff (w : Word) : (w &&& 0xFF).setWidth 8 = w.setWidth 8 := by
  rw [BitVec.setWidth_and]
  exact BitVec.and_allOnes

section
variable {h : Nat} {d : State} {c : HostCtx} {l : List Stmt} {dst : Option Var}

/-- The variables once `u` has taken the character. -/
def receivedVars (c : HostCtx) (d : State) (v : Word) : List (Nat × Val) := setVar varU (.u32 v) (polledVars c d)

/-- With no character received the branch leads to the return of `none`. -/
theorem hostRun_receive_empty (hb : Ahead c (.call dst .receive :: l)) (hq : d.uart.rxq = []) :
    HostRun h 4 d c (lsrRead h d) (c.returned dst (some (.opt none))) := by
  have hz : (lsrRead h d).rdata &&& 0x1 = 0 := (lsrWord_and_dr d).mpr hq
  refine .call hb rfl fun hb => .rd hb rfl (performed_rdLsr h d) fun hb => ?_
  refine .bz_jumps hb (eval_var_setVar_u32 (bodyVars_wf c) _ _) rfl hz (labelIndex_unlabelled ..) ?_
  exact .ret_inBody (vars := polledVars c d) (ahead_at_label hb.1 rfl) rfl (polledVars_timeout c d)

/-- With a character received, its byte is what the read of offset 0x000 gives. -/
theorem hostRun_receive {d' : State} (hb : Ahead c (.call dst .receive :: l)) (hq : d.uart.rxq ≠ [])
    (hp : Performed h (uartT false 0x000) 0 (lsrRead h d) d') :
    HostRun h 5 d c d' (c.returned dst (some (.opt (some (d'.rdata.setWidth 8))))) := by
  have hz : (lsrRead h d).rdata &&& 0x1 ≠ 0 := (lsrWord_and_dr d).not.mpr hq
  refine .call hb rfl fun hb => .rd hb rfl (performed_rdLsr h d) fun hb => ?_
  refine .bz_falls hb (eval_var_setVar_u32 (bodyVars_wf c) _ _) rfl hz fun hb => .rd hb rfl hp fun hb => ?_
  refine .ret_inBody (vars := receivedVars c d d'.rdata) (pc := 3) hb ?_ ?_
  · have hv := eval_var_setVar_u32 (polledVars_wf c d) varU d'.rdata
    rw [RetArg.eval, eval_and, receivedVars, hv]
    exact congrArg (fun b => Except.ok (some (Val.opt (some b)))) (setWidth_and_ff _)
  · rw [receivedVars, getVar_setVar_timeout (by decide), polledVars_timeout]

end

/-- Settles O53, by the run that bit 0 of LSR selects, and by what offset 0x000 is under the DLAB of the moment. -/
theorem receiveReturnsOldestCharacter : Obligations.ReceiveReturnsOldestCharacter := by
  intro s h c dst rest u
  refine ⟨fun r hq => ?_, fun e q r hq hl => ?_, fun r hq hl => ?_⟩
  · exact ⟨lsrWord s, reaches_of_runsAlone (m := 0) r (by decide) (hostRun_receive_empty (ahead_of_runsAlone r) hq)⟩
  · have hne : s.uart.rxq ≠ [] := hq ▸ List.cons_ne_nil e q
    have hrun := reaches_of_runsAlone (m := 0) r (by decide) (hostRun_receive (ahead_of_runsAlone r) hne
      (performed_rdRbr h (d := lsrRead h s) hl hq))
    refine ⟨lsrWord s, s.draw 0 24, s.draws + 1, ?_⟩
    have hc : ((rbrRead h (lsrRead h s) e q).rdata).setWidth 8 = e.data := BitVec.setWidth_append_eq_right
    rw [hc, rbrRead, popRx_eq] at hrun
    simp only [recorded, lsrRead, List.append_assoc] at hrun
    exact hrun
  · have hrun := reaches_of_runsAlone (m := 0) r (by decide) (hostRun_receive (ahead_of_runsAlone r) hq
      (performed_rdDll h (d := lsrRead h s) hl))
    refine ⟨lsrWord s, ?_⟩
    have hc : ((dllRead h (lsrRead h s)).rdata).setWidth 8 = s.uart.dll := setWidth_byte _
    rw [hc, dllRead] at hrun
    simp only [recorded, lsrRead, List.append_assoc] at hrun
    exact hrun

/-! ### A bounded poll of TEMT that times out (R813, R315) -/

/-- The record of a read of LSR by host `h` with TEMT = 0. -/
def ReadsBusy (h : Nat) (x : Txn) : Prop :=
  x.agent = h ∧ x.block = .uart ∧ x.offset = 0x014 ∧ x.dir = .read ∧ x.value.getLsbD 6 = false

/-- The device after the reads `reads` of LSR, of which the last gave `w`. -/
def polledDevice (d : State) (w : Word) (reads : List Txn) : State :=
  { d with rdata := w, uart := errorsCleared d.uart, hlog := d.hlog ++ reads }

section
variable {h n : Nat} {d : State} {c : HostCtx} {l : List Stmt}

theorem lsrWord_busy (he : ¬d.transmitterEmpty) : lsrWord d &&& 0x40 = 0 := (lsrWord_and_temt d).mpr he

theorem polledDevice_lsrRead (h : Nat) (d : State) (w : Word) (reads : List Txn) :
    polledDevice (lsrRead h d) w reads =
      polledDevice d w (Txn.mk h .uart 0x014 .read (lsrWord d) :: reads) := by
  simp only [polledDevice, lsrRead, recorded, List.append_assoc]
  rfl

theorem readsBusy_lsrWord (h : Nat) (he : ¬d.transmitterEmpty) :
    ReadsBusy h (Txn.mk h .uart 0x014 .read (lsrWord d)) :=
  ⟨rfl, rfl, rfl, rfl, (lsrWord_temt d).trans (Bool.eq_false_iff.mpr ((temt_iff d).not.mpr he))⟩

/-- The poll reads LSR until the bound is reached, by induction on the number of reads left. -/
theorem hostRun_poll_timesOut {j : Nat} (b : Ahead c (.poll varT (.uart 0x014) (.lit 0x40) :: l))
    (hbound : d.cfg.pollBound = some n) (he : ¬d.transmitterEmpty) (hw : sparseWf (.u32 0) c.vars = true)
    (hj : c.polls + (j + 1) = n) :
    ∃ (w : Word) (reads : List Txn) (vars : List (Nat × Val)),
      HostRun h (j + 1) d c (polledDevice d w reads) { c with vars := vars, pc := c.pc + 1, polls := 0 } ∧
      (reads.length = j + 1 ∧ ∀ x ∈ reads, ReadsBusy h x) ∧ w &&& 0x40 = 0 ∧
      getVar vars varT = .u32 w ∧ getVar vars timeoutVar = .u32 1 := by
  have hz : (lsrRead h d).rdata &&& 0x40 = 0 := lsrWord_busy he
  have hb : (lsrRead h d).cfg.pollBound = some n := hbound
  have hread := readsBusy_lsrWord h he
  induction j generalizing d c with
  | zero =>
    have hlast : ¬c.polls + 1 < n := by omega
    refine ⟨lsrWord d, [_], setVar timeoutVar (.u32 1) (setVar varT (.u32 (lsrWord d)) c.vars), ?_,
      ⟨rfl, List.forall_mem_singleton.mpr hread⟩, hz, ?_, getVar_setVar_same (setVar_wf hw _ _) _ _⟩
    · refine .poll b rfl (performed_rdLsr h d) hw rfl ?_
      rw [hz, hb, pollNext_bounded, if_neg (show ¬(c.assign varT _).polls + 1 < n from hlast)]
      exact .refl _ _ _
    · rw [getVar_setVar_other (by decide), getVar_setVar_same hw]
  | succ j ih =>
    have hmore : c.polls + 1 < n := by omega
    obtain ⟨w, reads, vars, hrun, ⟨hlen, hbusy⟩, hrest⟩ :=
      ih (d := lsrRead h d) (c := { c.assign varT (.u32 (lsrWord d)) with polls := c.polls + 1 })
        b hbound he (setVar_wf hw _ _) (by simp only; omega) (lsrWord_busy (d := lsrRead h d) he) hb
        (readsBusy_lsrWord (d := lsrRead h d) h he)
    refine ⟨w, _ :: reads, vars, ?_, ⟨congrArg (· + 1) hlen, List.forall_mem_cons.mpr ⟨hread, hbusy⟩⟩, hrest⟩
    refine .poll b rfl (performed_rdLsr h d) hw rfl ?_
    rw [hz, hb, pollNext_bounded, if_pos (show (c.assign varT _).polls + 1 < n from hmore), ← polledDevice_lsrRead]
    exact hrun

variable {stmts : List Stmt} {dst : Option Var} {p : Proc}

/-- A transmitter that does not empty ends the body with the return of `Timeout`, and TIMEOUT is 1 in the caller. -/
theorem hostRun_pollTemtThen_timesOut (hb : Ahead c (.call dst p :: l))
    (hp : p.body d.cfg c.vars = .ok (pollTemtThen d.cfg stmts)) (hbound : d.cfg.pollBound = some n) (hn : 0 < n)
    (he : ¬d.transmitterEmpty) : ∃ (w : Word) (reads : List Txn),
      HostRun h (n + 3) d c (polledDevice d w reads)
        ({ c with vars := carryTimeout (.u32 1) c.vars }.returned dst (some .timeout)) ∧
      reads.length = n ∧ ∀ x ∈ reads, ReadsBusy h x := by
  obtain ⟨j, rfl⟩ := Nat.exists_eq_add_one.mpr hn
  rw [pollTemtThen_bounded hbound] at hp
  have hbody := hb.enter dst
    (unlabelled (.poll varT (.uart 0x014) (.lit 0x40) :: .bz varT (.lit 0x40) 0 :: stmts) ++ [⟨some 0, .ret .timedOut⟩])
  rw [List.map_append, map_stmt_unlabelled] at hbody
  obtain ⟨w, reads, vars, hpoll, hreads, hw, ht, htimeout⟩ :=
    hostRun_poll_timesOut (h := h) hbody hbound he (bodyVars_wf c) (Nat.zero_add _)
  refine ⟨w, reads, .call hb hp fun _ => hpoll.trans (m := 2) ?_, hreads⟩
  have hv : (UExpr.var varT).eval vars = .ok w := by
    rw [eval_var, ht]
    simp [Val.toNat]
  refine .bz_jumps (hbody.tail rfl rfl rfl) hv rfl hw (labelIndex_unlabelled ..) ?_
  rw [← htimeout, ← doReturn_inBody]
  exact .ret (g := .timedOut) (ahead_at_label hb.1 rfl) rfl

end

/-- Settles O52: both procedures begin with the poll of TEMT, which times out by `hostRun_pollTemtThen_timesOut`. -/
theorem boundedPollTimesOut : Obligations.BoundedPollTimesOut := by
  intro s h c dst p n rest r hbound hn he hp
  obtain ⟨stmts, hbody⟩ : ∃ stmts, p.body s.cfg c.vars = .ok (pollTemtThen s.cfg stmts) := by
    rcases hp with ⟨e, w, rfl, hw⟩ | ⟨a, b, src, baud, rfl, ha, hb, hpos⟩
    · exact ⟨_, by simp only [Proc.body, hw]; rfl⟩
    · exact ⟨_, (body_initUart ha hb).trans (if_neg (Nat.ne_of_gt hpos))⟩
  obtain ⟨w, reads, hrun, hreads⟩ := hostRun_pollTemtThen_timesOut (ahead_of_runsAlone r) hbody hbound hn he
  exact ⟨w, reads, reaches_of_runsAlone (m := 0) r (by omega) hrun, hreads⟩

end Sys2Proof.Proofs
end

section
/-! PROOFS. The procedures that write the IOC block and the GPIO banks (46_driver_procedures.md R807 to R811), by the
write-mask update of their registers (45_gpio_iomux.md R700). -/

namespace Sys2Proof.Proofs

open Sys2Proof.Machine Sys2Proof.Laws

/-! ### The registers of IOC and GPIO -/

theorem risingWordOffsets_aligned {l : List Nat} (h : risingWordOffsets l = true) : ∀ x ∈ l, x % 4 = 0 := by
  induction l with
  | nil => exact fun x hx => absurd hx List.not_mem_nil
  | cons a l ih =>
    have ha : a % 4 = 0 ∧ risingWordOffsets l = true := by
      cases l <;> simp_all [risingWordOffsets]
    exact List.forall_mem_cons.mpr ⟨ha.1, ih ha.2⟩

theorem iocRegSet_aligned {p : Params} (h : p.wf = true) {x : Nat} (hx : x ∈ p.iocRegSet) : x % 4 = 0 := by
  simp only [Params.wf, Bool.and_eq_true] at h
  exact risingWordOffsets_aligned (by tauto) x hx

theorem gpioBanks_of_wf {p : Params} (h : p.wf = true) : p.gpioBanks ≤ 128 := by
  simp only [Params.wf, Bool.and_eq_true, decide_eq_true_eq] at h
  tauto

theorem muxOffset_of_wf {p : Params} (h : p.wf = true) : (0x02C : BitVec 12).toNat ∈ p.iocRegSet := by
  simp only [Params.wf, Bool.and_eq_true, List.contains_iff_mem] at h
  tauto

theorem bankOf_lt {addr j i b : Nat} {l : List Nat} (h : bankOf addr j l = some (i, b)) : i < j + l.length := by
  induction l generalizing j with
  | nil => cases h
  | cons a l ih =>
    rw [bankOf] at h
    split at h
    · obtain ⟨rfl, -⟩ := Prod.mk.inj (Option.some.inj h)
      simp
    · have := ih h
      simp only [List.length_cons]
      omega

/-- The bank that an address leads to is there (R800). -/
theorem bank_of_target {p : Params} (hp : p.wf = true) {addr : Nat} {k : BitVec 7} {off : BitVec 12}
    (h : target p addr = some (.gpio k, off)) : k.toNat < p.gpioBanks := by
  unfold target at h
  split at h
  · cases h
  · split at h
    · rename_i i b hbank
      have hi : i < 0 + p.gpioBase.length := bankOf_lt hbank
      have hp' := gpioBanks_of_wf hp
      obtain ⟨hk, -⟩ := Prod.mk.inj (Option.some.inj h)
      obtain rfl := Block.gpio.inj hk
      rw [BitVec.toNat_ofNat]
      unfold Params.gpioBanks at *
      omega
    · split at h <;> cases h

theorem bankWithBase_eq_some {i base : Nat} {l : List Nat} (d : allDisjoint l = true) (hi : l[i]? = some base)
    (j : Nat) : bankWithBase base j l = some (j + i) := by
  induction l generalizing i j with
  | nil => simp at hi
  | cons a l ih =>
    obtain ⟨da, dl⟩ := allDisjoint_cons.mp d
    cases i with
    | zero =>
      obtain rfl : a = base := by simpa using hi
      exact if_pos rfl
    | succ i =>
      rw [List.getElem?_cons_succ] at hi
      have hne : a ≠ base := by
        rintro rfl
        have := da a (List.mem_of_getElem? hi)
        simp [disjointBlocks] at this
      rw [bankWithBase, if_neg hne, ih dl hi, Nat.add_assoc, Nat.add_comm 1 i]

/-- The base address of bank `k` is found to be that of bank `k` and of no other. -/
theorem bankOperand_base {p : Params} (hp : p.wf = true) {k : BitVec 7} {base : Nat}
    (hk : p.gpioBase[k.toNat]? = some base) : bankOperand p base = .ok (.gpio k) := by
  obtain ⟨-, -, -, dg⟩ := bases_disjoint hp
  rw [bankOperand, bankWithBase_eq_some dg hk]
  simp

/-! ### The writes -/

/-- The device after a write of IOC register `off` (R711). -/
def iocWritten (h : Nat) (off : BitVec 12) (v : Word) (d : State) : State :=
  recorded h .ioc off .write v (d.setIocReg off (wmUpdate (d.iocReg off) v))

/-- A GPIO bank after a write of `v` to the register at `off` (R701 to R704). -/
def bankUpdate (off : BitVec 12) (v : Word) (g : GpioBank) : GpioBank :=
  { drL := if off = 0x000 then wmUpdate g.drL v else g.drL
    drH := if off = 0x004 then wmUpdate g.drH v else g.drH
    ddrL := if off = 0x008 then wmUpdate g.ddrL v else g.ddrL
    ddrH := if off = 0x00C then wmUpdate g.ddrH v else g.ddrH }

/-- The device after a write of the register at `off` of bank `k`, which held `g` (R701 to R704). -/
def bankWritten (h : Nat) (k : BitVec 7) (off : BitVec 12) (v : Word) (g : GpioBank) (d : State) : State :=
  recorded h (.gpio k) off .write v { d with gpio := d.gpio.set k.toNat (bankUpdate off v g) }

section
variable {h : Nat} {d : State} {k : BitVec 7} {off : BitVec 12} {g : GpioBank}

theorem performed_wrIoc (hp : d.cfg.wf = true) (hr : off.toNat ∈ d.cfg.iocRegSet) (v : Word) :
    Performed h (iocT true off) v d (iocWritten h off v d) :=
  .of_exec (decode_iocT_register (iocRegSet_aligned hp hr) hr) fun es hs =>
    execWrIoc_register (s := hosted d h es hs) hr v

theorem performed_wrGpio (hk : k.toNat < d.cfg.gpioBanks) (hg : d.gpio[k.toNat]? = some g)
    (ho : off.toNat ∈ [0x0, 0x4, 0x8, 0xC]) (v : Word) :
    Performed h (gpioT true k off) v d (bankWritten h k off v g d) := by
  have hoff : off ∈ [0x000, 0x004, 0x008, (0x00C : BitVec 12)] := by
    simpa [BitVec.toNat_eq] using ho
  simp only [List.mem_cons, List.not_mem_nil, or_false] at hoff
  rcases hoff with rfl | rfl | rfl | rfl <;>
    exact .of_exec (decode_gpioT_row hk rfl) fun es hs => writeGpio_eq_afterWrite (s := hosted d h es hs) hg ..

end

/-! ### `clear_then_set` (R807) -/

/-- A bit of a 16-bit register after the one write of `clear_then_set` (R700, D43). -/
theorem wmUpdate_clearThenSetValue (r : Half) (cm sm : Word) {i : Nat} (hi : i < 16) :
    (wmUpdate r (clearThenSetValue cm sm)).getLsbD i =
      if cm.getLsbD i || sm.getLsbD i || sm.getLsbD (16 + i) then sm.getLsbD i else r.getLsbD i := by
  have hlow : (clearThenSetValue cm sm).getLsbD i = sm.getLsbD i := by
    simp [clearThenSetValue, hi]
  have hhigh : (clearThenSetValue cm sm).getLsbD (16 + i) =
      (cm.getLsbD i || sm.getLsbD i || sm.getLsbD (16 + i)) := by
    have hroom : 16 + i < 32 := by omega
    simp [clearThenSetValue, hroom, -BitVec.getLsbD_eq_getElem]
  rw [wmUpdate_getLsbD, hlow, hhigh, decide_eq_true hi, Bool.true_and]

theorem checkMaskTarget_ok {p : Params} {a addr : Nat} {b : Block} {off : BitVec 12}
    (ht : target p addr = some (b, off)) (hb : b ≠ .uart) : checkMaskTarget p a addr = .ok () := by
  cases b with
  | uart => exact absurd rfl hb
  | gpio k => simp only [checkMaskTarget, ht]
  | ioc => simp only [checkMaskTarget, ht]

section
variable {h m : Nat} {s d d' : State} {c c' : HostCtx} {st : Stmt} {l : List Stmt} {rest : List Event} {dst : Option Var}

/-- The context in the body of `clear_then_set`, `v` computed, before the write. -/
def clearThenSetReady (c : HostCtx) (dst : Option Var) (addr : Nat) (cm sm : Word) : HostCtx :=
  inBody c dst (clearThenSetBody addr cm sm) 1 (setVar varV (.u32 (clearThenSetValue cm sm)) (bodyVars c))

variable {a : NExpr} {x y : UExpr} {addr : Nat} {cm sm : Word} {b : Block} {off : BitVec 12}

theorem clearThenSetReady_ahead (ha : c.halted = false) :
    Ahead (clearThenSetReady c dst addr cm sm) [.wr (.absolute addr) (.var varV), .ret .nothing] :=
  ⟨ha, List.prefix_rfl⟩

theorem clearThenSetReady_value :
    (UExpr.var varV).eval (clearThenSetReady c dst addr cm sm).vars = .ok (clearThenSetValue cm sm) :=
  eval_var_setVar_u32 (bodyVars_wf c) varV _

/-- The call and the computation of `v` lead to the write, on whichever register of GPIO or IOC. -/
theorem hostRun_clearThenSetReady (hb : Ahead c (.call dst (.clearThenSet a x y) :: l)) (ha : a.eval c.vars = .ok addr)
    (hx : x.eval c.vars = .ok cm) (hy : y.eval c.vars = .ok sm) (ht : target d.cfg addr = some (b, off))
    (hu : b ≠ .uart) : HostRun h 2 d c d (clearThenSetReady c dst addr cm sm) := by
  refine .call hb ((body_clearThenSet ha hx hy).trans (by rw [checkMaskTarget_ok ht hu]; rfl)) fun hb => ?_
  exact .letU (v := clearThenSetValue cm sm) hb rfl fun _ => .refl _ _ _

theorem hostRun_clearThenSet (hb : Ahead c (.call dst (.clearThenSet a x y) :: l)) (ha : a.eval c.vars = .ok addr)
    (hx : x.eval c.vars = .ok cm) (hy : y.eval c.vars = .ok sm) (ht : target d.cfg addr = some (b, off))
    (hu : b ≠ .uart) (hp : Performed h (b.descriptor true off) (clearThenSetValue cm sm) d d') :
    HostRun h 4 d c d' (c.returned dst none) := by
  refine (hostRun_clearThenSetReady hb ha hx hy ht hu).trans (m := 2) ?_
  refine .wr (clearThenSetReady_ahead hb.1) clearThenSetReady_value (descriptor_absolute ht) hp fun hb => ?_
  refine .ret_inBody (vars := setVar varV _ (bodyVars c)) (pc := 2) hb rfl ?_
  rw [getVar_setVar_timeout (by decide), bodyVars_timeout]

theorem run_one_refused {e : Refusal} (he : step s = .refused e) : core.run 1 s = .refused e :=
  (Host.Core.run.eq_2 core s 0).trans (by rw [show core.step s = .refused e from he])

/-- The step of a state whose first event is host `h`'s. -/
theorem step_hosted {o : Host.Outcome State Fault Refusal} {hs : List HostCtx} (hl : h < hs.length)
    (b : Ahead c (st :: l))
    (he : stmtStep h c st (hosted d h (List.replicate m (.agent (.host h)) ++ rest) (hs.set h c)) = o) :
    step (hosted d h (List.replicate (m + 1) (.agent (.host h)) ++ rest) (hs.set h c)) = o := by
  have hruns : (hosted d h (List.replicate (m + 1) (.agent (.host h)) ++ rest) (hs.set h c)).Runs h c st :=
    ⟨rfl, List.getElem?_set_self hl, b.1, b.next⟩
  rw [step_of_runs hruns]
  exact he

/-- A run whose last step is refused. -/
theorem run_refused {n : Nat} {e : Refusal} (r : s.RunsAlone h c st (n + (m + 1)) rest) (hn : n ≠ 0)
    (g : HostRun h n s c d' c') {st' : Stmt} (b : Ahead c' (st' :: l))
    (hs : ∀ es hs, stmtStep h c' st' (hosted d' h es hs) = .refused e) : core.run (n + 1) s = .refused e := by
  obtain ⟨hl, -⟩ := List.getElem?_eq_some_iff.mp r.host
  have hrun := run_add (m := 1) (reaches_of_runsAlone r hn g)
  exact hrun.trans (run_one_refused (step_hosted hl b (hs _ _)))

theorem run_clearThenSet_refused {e : DecodeError} (r : s.RunsAlone h c (.call dst (.clearThenSet a x y)) 4 rest)
    (ha : a.eval c.vars = .ok addr) (hx : x.eval c.vars = .ok cm) (hy : y.eval c.vars = .ok sm)
    (ht : target s.cfg addr = some (b, off)) (hu : b ≠ .uart)
    (he : decode s.cfg s.uart.dlab (b.descriptor true off) (clearThenSetValue cm sm) = .error e) :
    core.run 3 s = .refused (DecodeError.toRefusal e) := by
  refine run_refused (n := 2) (m := 1) r (by decide) (hostRun_clearThenSetReady (ahead_of_runsAlone r) ha hx hy ht hu)
    (clearThenSetReady_ahead r.alive) fun es hs => ?_
  simp only [stmtStep, clearThenSetReady_value, transact_ok (s := hosted s h es hs) (descriptor_absolute ht)]
  rw [perform_error (s := hosted s h es hs) he]
  rfl

end

/-- Settles O55: the run of the body with the write that the target's block has, or its refusal at that write, and
`wmUpdate_clearThenSetValue` for each bit of the register. -/
theorem clearThenSetChangesMaskedBits : Obligations.ClearThenSetChangesMaskedBits := by
  intro s h c dst a addr x y off cm sm rest r inv ha hx hy v updated
  have hupd : ∀ q : Half, updated q (wmUpdate q v) := fun q i hi => wmUpdate_clearThenSetValue q cm sm hi
  have hfield : ∀ (o : BitVec 12) (q : Half),
      if off = o then updated q (if off = o then wmUpdate q v else q) else (if off = o then wmUpdate q v else q) = q := by
    intro o q
    split
    · exact hupd q
    · rfl
  have hp := inv.params
  refine ⟨fun haddr hr => ?_, fun k base g hk hg haddr ho => ?_, fun ht => ⟨fun hm => ?_, fun hm hr => ?_⟩,
    fun k ht => ⟨fun hm => ?_, fun hm hr => ?_⟩⟩
  · have ht : target s.cfg addr = some (.ioc, off) := haddr ▸ target_ioc hp off
    refine ⟨sparseSet 0 off.toNat (wmUpdate (s.iocReg off) v) s.ioc, ?_, ?_, ?_⟩
    · exact reaches_of_runsAlone (m := 0) r (by decide)
        (hostRun_clearThenSet (ahead_of_runsAlone r) ha hx hy ht nofun (performed_wrIoc hp hr v))
    · have hreg := iocReg_setIocReg_same inv.iocWf off (wmUpdate (s.iocReg off) v)
      exact (hreg ▸ hupd _ :)
    · exact fun o ho => iocReg_setIocReg_other (s := s) ho _
  · have ht : target s.cfg addr = some (.gpio k, off) := haddr ▸ target_gpio hp hk off
    refine ⟨bankUpdate off v g, ?_, hfield _ _, hfield _ _, hfield _ _, hfield _ _⟩
    exact reaches_of_runsAlone (m := 0) r (by decide)
      (hostRun_clearThenSet (ahead_of_runsAlone r) ha hx hy ht nofun
        (performed_wrGpio (bank_of_target hp ht) hg ho v))
  · exact (run_clearThenSet_refused r ha hx hy ht nofun (decode_misaligned (t := iocT true off) (sz_descriptorOf ..)
      (by rwa [off_iocT]))).trans
      (congrArg (fun t => Host.Outcome.refused (Refusal.misaligned t)) (iocT_eq_or true off))
  · rw [← toRefusal_iocT true]
    exact run_clearThenSet_refused r ha hx hy ht nofun (decode_iocT_no_register hm hr)
  · exact (run_clearThenSet_refused r ha hx hy ht nofun (decode_misaligned (t := gpioT true k off) (sz_descriptorOf ..)
      (by rwa [off_gpioT]))).trans
      (congrArg (fun t => Host.Outcome.refused (Refusal.misaligned t)) (gpioT_eq_or true k off))
  · rw [← toRefusal_gpioT true]
    exact run_clearThenSet_refused r ha hx hy ht nofun
      (decode_gpioT_no_row hm (bank_of_target hp ht) (gpioRow_eq_none hr))

/-! ### `gpio_set_output` and `gpio_clear_all` (R810, R811) -/

section
variable {h : Nat} {d : State} {c : HostCtx} {l : List Stmt} {dst : Option Var} {p : Proc} {k : BitVec 7} {g : GpioBank}
  {off₁ off₂ : BitVec 12} {v₁ v₂ : Word}

/-- A procedure that writes two registers of a GPIO bank, one after the other. -/
theorem hostRun_twoBankWrites (hb : Ahead c (.call dst p :: l))
    (hp : p.body d.cfg c.vars =
      .ok (unlabelled [.wr (.gpio k off₁) (.lit v₁), .wr (.gpio k off₂) (.lit v₂), .ret .nothing]))
    (hk : k.toNat < d.cfg.gpioBanks) (hg : d.gpio[k.toNat]? = some g)
    (h₁ : off₁.toNat ∈ [0x0, 0x4, 0x8, 0xC]) (h₂ : off₂.toNat ∈ [0x0, 0x4, 0x8, 0xC]) :
    HostRun h 4 d c
      { d with
        gpio := d.gpio.set k.toNat (bankUpdate off₂ v₂ (bankUpdate off₁ v₁ g))
        hlog := d.hlog ++ [Txn.mk h (.gpio k) off₁ .write v₁, Txn.mk h (.gpio k) off₂ .write v₂] }
      (c.returned dst none) := by
  have hg' : (bankWritten h k off₁ v₁ g d).gpio[k.toNat]? = some (bankUpdate off₁ v₁ g) := by
    obtain ⟨hl, -⟩ := List.getElem?_eq_some_iff.mp hg
    exact List.getElem?_set_self hl
  have hboth : bankWritten h k off₂ v₂ (bankUpdate off₁ v₁ g) (bankWritten h k off₁ v₁ g d) =
      { d with
        gpio := d.gpio.set k.toNat (bankUpdate off₂ v₂ (bankUpdate off₁ v₁ g))
        hlog := d.hlog ++ [Txn.mk h (.gpio k) off₁ .write v₁, Txn.mk h (.gpio k) off₂ .write v₂] } := by
    simp only [bankWritten, recorded, List.set_set, List.append_assoc]
    rfl
  rw [← hboth]
  refine .call hb hp fun hb => .wr hb rfl rfl (performed_wrGpio hk hg h₁ v₁) fun hb => ?_
  refine .wr hb rfl rfl (performed_wrGpio (d := bankWritten h k off₁ v₁ g d) hk hg' h₂ v₂) fun hb => ?_
  exact .ret_inBody (vars := bodyVars c) (pc := 2) hb rfl (bodyVars_timeout c)

end

/-- A bit of a register after a write that enables bit `j` only, and gives it `level`. -/
theorem wmUpdate_oneBit (r : Half) {i j : Nat} (hi : i < 16) (hj : j < 16) (level : Bool) :
    (wmUpdate r ((if level then BitVec.ofNat 32 (2 ^ j) else 0) ||| BitVec.ofNat 32 (2 ^ j) <<< 16)).getLsbD i =
      if i = j then level else r.getLsbD i := by
  have hbit : ∀ n, n < 32 → (BitVec.ofNat 32 (2 ^ j)).getLsbD n = decide (n = j) := by
    intro n hn
    rw [BitVec.getLsbD_ofNat, Nat.testBit_two_pow, decide_eq_true hn, Bool.true_and]
    exact decide_eq_decide.mpr eq_comm
  have hroom : 16 + i < 32 := by omega
  have hi' : (BitVec.ofNat 32 (2 ^ j)).getLsbD i = decide (i = j) := hbit i (by omega)
  have hhi : (BitVec.ofNat 32 (2 ^ j)).getLsbD (16 + i) = false :=
    (hbit _ hroom).trans (decide_eq_false (by omega))
  rw [wmUpdate_getLsbD]
  generalize BitVec.ofNat 32 (2 ^ j) = one at hi' hhi
  have hmask : ((if level then one else 0) ||| one <<< 16).getLsbD (16 + i) = decide (i = j) := by
    rw [BitVec.getLsbD_or, BitVec.getLsbD_shiftLeft, Nat.add_sub_cancel_left, hi']
    cases level <;> simp [hroom, hhi, -BitVec.getLsbD_eq_getElem]
  have hvalue : ((if level then one else 0) ||| one <<< 16).getLsbD i = (level && decide (i = j)) := by
    rw [BitVec.getLsbD_or, BitVec.getLsbD_shiftLeft]
    cases level <;> simp [hi, hi', -BitVec.getLsbD_eq_getElem]
  rw [hmask, hvalue, decide_eq_true hi]
  by_cases h : i = j <;> simp [h]

/-- The value that gives pin `j` of a half `level` and enables its bit only (R810). -/
def pinValue (j : Nat) (level : Bool) : Word :=
  (if level then BitVec.ofNat 32 (2 ^ j) else 0) ||| BitVec.ofNat 32 (2 ^ j) <<< 16

/-- The two writes of `gpio_set_output` change the low half of a bank for a pin below 16, the high half otherwise. -/
theorem bankUpdate_lowPin (g : GpioBank) (j : Nat) (level : Bool) :
    bankUpdate 0x000 (pinValue j level) (bankUpdate 0x008 (pinValue j true) g) =
      { g with drL := wmUpdate g.drL (pinValue j level), ddrL := wmUpdate g.ddrL (pinValue j true) } := rfl

theorem bankUpdate_highPin (g : GpioBank) (j : Nat) (level : Bool) :
    bankUpdate 0x004 (pinValue j level) (bankUpdate 0x00C (pinValue j true) g) =
      { g with drH := wmUpdate g.drH (pinValue j level), ddrH := wmUpdate g.ddrH (pinValue j true) } := rfl

/-- `pin` is an output at `level` in `g'`, and every other pin has the data and direction bits that it has in `g`. -/
def PinDriven (pin : Nat) (level : Bool) (g g' : GpioBank) : Prop :=
  g'.drives pin = some level ∧
  (∀ q, q < 16 → q ≠ pin → g'.drL.getLsbD q = g.drL.getLsbD q ∧ g'.ddrL.getLsbD q = g.ddrL.getLsbD q) ∧
  ∀ q, q < 16 → 16 + q ≠ pin → g'.drH.getLsbD q = g.drH.getLsbD q ∧ g'.ddrH.getLsbD q = g.ddrH.getLsbD q

section
variable {j : Nat} (hj : j < 16) (level : Bool) (g : GpioBank)
include hj

theorem wmUpdate_pinValue (r : Half) {i : Nat} (hi : i < 16) :
    (wmUpdate r (pinValue j level)).getLsbD i = if i = j then level else r.getLsbD i := wmUpdate_oneBit r hi hj level

theorem pinDriven_low :
    PinDriven j level g (bankUpdate 0x000 (pinValue j level) (bankUpdate 0x008 (pinValue j true) g)) := by
  rw [bankUpdate_lowPin]
  refine ⟨?_, fun q hq hne => ⟨?_, ?_⟩, fun q _ _ => ⟨rfl, rfl⟩⟩
  · simp only [drives_low _ hj, wmUpdate_pinValue hj _ _ hj, if_true]
  · simp only [wmUpdate_pinValue hj _ _ hq, if_neg hne]
  · simp only [wmUpdate_pinValue hj _ _ hq, if_neg hne]

theorem pinDriven_high :
    PinDriven (16 + j) level g (bankUpdate 0x004 (pinValue j level) (bankUpdate 0x00C (pinValue j true) g)) := by
  rw [bankUpdate_highPin]
  refine ⟨?_, fun q _ _ => ⟨rfl, rfl⟩, fun q hq hne => ?_⟩
  · simp only [drives_high, wmUpdate_pinValue hj _ _ hj, if_true]
  · have hne' : q ≠ j := by omega
    simp only [wmUpdate_pinValue hj _ _ hq, if_neg hne', and_self]

end

/-- Settles O57, by the run of two writes to one bank: the pin's half of the bank by `pinDriven_low` or `pinDriven_high`,
both data registers cleared by a mask of sixteen ones. -/
theorem gpioProceduresDrivePins : Obligations.GpioProceduresDrivePins := by
  intro s h c dst a e k base g rest inv ha hk hg
  have hbank : bankOperand s.cfg base = .ok (.gpio k) := bankOperand_base inv.params hk
  have hlt : k.toNat < s.cfg.gpioBanks := (List.getElem?_eq_some_iff.mp hk).1
  refine ⟨?_, fun r => ?_⟩
  · intro pin level r he hpin half one
    have hbody : (Proc.gpioSetOutput a e level).body s.cfg c.vars = .ok (unlabelled [
        .wr (.gpio k (0x008 + half)) (.lit (pinValue (pin % 16) true)),
        .wr (.gpio k half) (.lit (pinValue (pin % 16) level)), .ret .nothing]) := by
      rw [body_gpioSetOutput ha he, if_neg (Nat.not_lt.mpr hpin), hbank]
      simp only [Except.bind, gpioSetOutputBody, one_shiftLeft]
      rfl
    have hrun := fun h₁ h₂ => reaches_of_runsAlone (m := 0) r (by decide)
      (hostRun_twoBankWrites (ahead_of_runsAlone r) hbody hlt hg h₁ h₂)
    refine ⟨bankUpdate half (pinValue (pin % 16) level) (bankUpdate (0x008 + half) (pinValue (pin % 16) true) g),
      hrun ?_ ?_, ?_⟩
    · simp only [half]
      split <;> decide
    · simp only [half]
      split <;> decide
    · show PinDriven pin level g _
      by_cases hh : 16 ≤ pin
      · obtain ⟨j, rfl⟩ := Nat.exists_eq_add_of_le hh
        have hj : (16 + j) % 16 = j := by omega
        simp only [half, if_pos hh, hj]
        exact pinDriven_high (by omega) level g
      · have hj : pin % 16 = pin := by omega
        simp only [half, if_neg hh, hj]
        exact pinDriven_low (by omega) level g
  · have hbody : (Proc.gpioClearAll a).body s.cfg c.vars = .ok (unlabelled [
        .wr (.gpio k 0x000) (.lit 0xFFFF0000), .wr (.gpio k 0x004) (.lit 0xFFFF0000), .ret .nothing]) := by
      rw [body_gpioClearAll ha, hbank]
      rfl
    have hrun := reaches_of_runsAlone (m := 0) r (by decide) (hostRun_twoBankWrites (ahead_of_runsAlone r) hbody hlt hg
      (by decide) (by decide))
    have hzero : ∀ q : Half, wmUpdate q 0xFFFF0000 = 0 := fun q => by
      simp [wmUpdate]
    have hclear : bankUpdate 0x004 0xFFFF0000 (bankUpdate 0x000 0xFFFF0000 g) = { g with drL := 0, drH := 0 } := by
      show { g with drL := wmUpdate g.drL 0xFFFF0000, drH := wmUpdate g.drH 0xFFFF0000 } = _
      rw [hzero, hzero]
    rw [hclear] at hrun
    exact hrun

/-! ### `pin_mux_route` and `iomux_uart7_m2` (R808, R809) -/

/-- The shift of R22, D27 in Nat: a shift of 32 or more gives 0. -/
theorem shlWord_eq (a n : Word) : shlWord a n = BitVec.ofNat 32 (a.toNat * 2 ^ n.toNat) := by
  unfold shlWord
  split
  · apply BitVec.eq_of_toNat_eq
    rw [BitVec.toNat_shiftLeft, BitVec.toNat_ofNat, Nat.shiftLeft_eq]
  · have hdvd : 2 ^ 32 ∣ a.toNat * 2 ^ n.toNat := Dvd.dvd.mul_left (Nat.pow_dvd_pow 2 (by omega)) _
    apply BitVec.eq_of_toNat_eq
    rw [BitVec.toNat_ofNat, Nat.mod_eq_zero_of_dvd hdvd]
    rfl

/-- What `pin_mux_route` puts in its variable `s`: the two selectors at their places. -/
def selectors (aBits aShift bBits bShift : Word) : Word := shlWord aBits aShift ||| shlWord bBits bShift

/-- The variables of a body once `m` and `s` have their values. -/
def maskVars (c : HostCtx) (m s : Word) : List (Nat × Val) := setVar varS (.u32 s) (setVar varM (.u32 m) (bodyVars c))

section
variable (c : HostCtx) (m s : Word)

theorem maskVars_varS : (UExpr.var varS).eval (maskVars c m s) = .ok s :=
  eval_var_setVar_u32 (setVar_wf (bodyVars_wf c) _ _) _ _

theorem maskVars_varM : (UExpr.var varM).eval (maskVars c m s) = .ok m := by
  rw [eval_var, maskVars, getVar_setVar_other (by decide)]
  exact eval_var_setVar_u32 (bodyVars_wf c) varM m

theorem maskVars_timeout : getVar (maskVars c m s) timeoutVar = getVar c.vars timeoutVar := by
  rw [maskVars, getVar_setVar_timeout (by decide), getVar_setVar_timeout (by decide), bodyVars_timeout]

end

section
variable {h : Nat} {d : State} {c : HostCtx} {l : List Stmt} {dst : Option Var} {a : NExpr}

theorem hostRun_pinMuxRoute {e₁ e₂ e₃ e₄ e₅ e₆ : UExpr} {aBits aMask aShift bBits bMask bShift : Word}
    (hb : Ahead c (.call dst (.pinMuxRoute a e₁ e₂ e₃ e₄ e₅ e₆) :: l)) (hp : d.cfg.wf = true)
    (ha : a.eval c.vars = .ok d.cfg.iocBase) (h₁ : e₁.eval c.vars = .ok aBits) (h₂ : e₂.eval c.vars = .ok aMask)
    (h₃ : e₃.eval c.vars = .ok aShift) (h₄ : e₄.eval c.vars = .ok bBits) (h₅ : e₅.eval c.vars = .ok bMask)
    (h₆ : e₆.eval c.vars = .ok bShift) :
    HostRun h 8 d c
      (iocWritten h 0x02C (clearThenSetValue (aMask ||| bMask) (selectors aBits aShift bBits bShift)) d)
      (c.returned dst none) := by
  have ht : target d.cfg (d.cfg.iocBase + 0x02C) = some (.ioc, 0x02C) := target_ioc hp 0x02C
  refine .call hb ((body_pinMuxRoute ha h₁ h₂ h₃ h₄ h₅ h₆).trans (by rw [checkMaskTarget_ok ht nofun]; rfl))
    fun hb => ?_
  refine .letU (v := aMask ||| bMask) hb rfl fun hb => ?_
  refine .letU (v := selectors aBits aShift bBits bShift) hb rfl fun hb => ?_
  refine (hostRun_clearThenSet hb rfl (maskVars_varM c _ _) (maskVars_varS c _ _) ht nofun
    (performed_wrIoc hp (muxOffset_of_wf hp) _)).trans (m := 1) ?_
  exact .ret_inBody (vars := maskVars c _ _) (pc := 3) (hb.tail rfl rfl rfl) rfl (maskVars_timeout c _ _)

theorem hostRun_iomuxUart7M2 (hb : Ahead c (.call dst (.iomuxUart7M2 a) :: l)) (hp : d.cfg.wf = true)
    (ha : a.eval c.vars = .ok d.cfg.iocBase) :
    HostRun h 16 d c (iocWritten h 0x02C 0x00FF00AA d) (c.returned dst none) := by
  have ht : target d.cfg (d.cfg.iocBase + 0x02C) = some (.ioc, 0x02C) := target_ioc hp 0x02C
  have hv : (0x00FF00AA : Word) =
      clearThenSetValue (bitRangeMask 3 0 ||| bitRangeMask 7 4) (selectors 10 0 10 4) := by decide
  refine .call hb ((body_iomuxUart7M2 ha).trans (by rw [checkMaskTarget_ok ht nofun]; rfl)) fun hb => ?_
  refine (hostRun_bitRangeMask (high := 3) (low := 0) hb rfl rfl (by decide)).trans (m := 12) ?_
  have hb := hb.tail (c' := (c.enter dst (iomuxUart7M2Body d.cfg.iocBase)).returned (some varM)
    (some (.u32 (bitRangeMask 3 0)))) rfl rfl rfl
  refine (hostRun_bitRangeMask (high := 7) (low := 4) hb rfl rfl (by decide)).trans (m := 9) ?_
  have hb := hb.tail (c' := inBody c dst (iomuxUart7M2Body d.cfg.iocBase) 2
    (maskVars c (bitRangeMask 3 0) (bitRangeMask 7 4))) rfl rfl rfl
  rw [hv]
  refine (hostRun_pinMuxRoute hb hp rfl rfl (maskVars_varM c _ _) rfl rfl (maskVars_varS c _ _) rfl).trans (m := 1) ?_
  exact .ret_inBody (vars := maskVars c _ _) (pc := 3) (hb.tail rfl rfl rfl) rfl (maskVars_timeout c _ _)

end

/-- A mux field of `v` that its mask half enables is the field of the register afterwards. -/
theorem wmUpdate_field {r : Half} {v : Word} {i n : Nat} (hin : i + n ≤ 16)
    (hm : ∀ j, j < n → v.getLsbD (16 + (i + j)) = true) : (wmUpdate r v).extractLsb' i n = v.extractLsb' i n := by
  apply BitVec.eq_of_getLsbD_eq
  intro j hj
  have hij : i + j < 16 := by omega
  simp only [BitVec.getLsbD_extractLsb', wmUpdate_getLsbD, hm j hj, if_true, hij, decide_true, Bool.true_and]

theorem wmUpdate_kept_field {r : Half} {v : Word} {i n : Nat} (hm : ∀ j, j < n → v.getLsbD (16 + (i + j)) = false) :
    (wmUpdate r v).extractLsb' i n = r.extractLsb' i n := by
  apply BitVec.eq_of_getLsbD_eq
  intro j hj
  simp only [BitVec.getLsbD_extractLsb', wmUpdate_getLsbD, hm j hj, Bool.false_eq_true, if_false]

/-- Both mux fields select function 10, so both signals are routed, whichever is whose (R709). -/
theorem routed_of_fields {s : State} (h0 : (s.iocReg 0x02C).extractLsb' 0 4 = 10)
    (h4 : (s.iocReg 0x02C).extractLsb' 4 4 = 10) (sig : UartSignal) : s.routed sig = true := by
  rw [State.routed, State.selector, h0, h4, ite_self]
  rfl

/-- Settles O56, by the nested runs of the two procedures, whose one write is that of `clear_then_set`; the fields of
0x00FF00AA that its mask half enables select function 10. -/
theorem iomuxRoutesBothSignals : Obligations.IomuxRoutesBothSignals := by
  intro s h c dst a rest inv ha written
  have hsame := fun v : Word => iocReg_setIocReg_same inv.iocWf 0x02C (wmUpdate (s.iocReg 0x02C) v)
  have hother := fun (v : Word) (o : BitVec 12) (ho : o ≠ 0x02C) =>
    iocReg_setIocReg_other (s := s) ho (wmUpdate (s.iocReg 0x02C) v)
  refine ⟨?_, fun r => ?_⟩
  · intro e₁ e₂ e₃ e₄ e₅ e₆ aBits aMask aShift bBits bMask bShift r h₁ h₂ h₃ h₄ h₅ h₆ sel v
    have hsel : selectors aBits aShift bBits bShift = sel := by simp only [selectors, shlWord_eq, sel]
    have hrun := hostRun_pinMuxRoute (h := h) (ahead_of_runsAlone r) inv.params ha h₁ h₂ h₃ h₄ h₅ h₆
    rw [hsel] at hrun
    exact ⟨_, reaches_of_runsAlone (m := 0) r (by decide) hrun, hsame v, hother v⟩
  · have hreg := hsame 0x00FF00AA
    have hrouted := routed_of_fields (s := s.setIocReg 0x02C (wmUpdate (s.iocReg 0x02C) 0x00FF00AA))
      ((congrArg (·.extractLsb' 0 4) hreg).trans (wmUpdate_field (v := 0x00FF00AA) (by decide) (by decide)))
      ((congrArg (·.extractLsb' 4 4) hreg).trans (wmUpdate_field (v := 0x00FF00AA) (by decide) (by decide)))
    exact ⟨_, reaches_of_runsAlone (m := 0) r (by decide) (hostRun_iomuxUart7M2 (ahead_of_runsAlone r) inv.params ha),
      hrouted .rx, hrouted .tx,
      (congrArg (·.extractLsb' 8 8) hreg).trans (wmUpdate_kept_field (v := 0x00FF00AA) (by decide)), hother _⟩

end Sys2Proof.Proofs
end

section
/-! PROOFS. The initialization of the UART (46_driver_procedures.md R803): its eleven transactions as one function of the
device, what that function is with no busy guard, and what is left of it under one (70_reset_and_hazards.md R1014). -/

namespace Sys2Proof.Proofs

open Sys2Proof.Machine Sys2Proof.Laws

/-! ### The run (R803) -/

/-- The device after the four writes that set up the line and the queues, (b) to (e). -/
def lineSetUp (h : Nat) (d : State) : State :=
  lcrWritten h 0x03 (mcrWritten h 0x03 (fcrWritten h 0x06 (enableWritten h 0x00 d)))

/-- The device once LCR has been read and written with DLAB set, and the divisor has been written. -/
def divisorWritten (h : Nat) (low high : Word) (d : State) : State :=
  enableWritten h high (dataWritten h low (lcrWritten h (d.uart.lcr.setWidth 32 ||| 0x80) (lcrRead h d)))

/-- The device once LCR has been read again and written with DLAB cleared. -/
def dlabCleared (h : Nat) (d : State) : State :=
  lcrWritten h (d.uart.lcr.setWidth 32 &&& 0xFFFFFF7F) (lcrRead h d)

/-- What is written to DLL for the divisor `n`. -/
def divisorLow (n : Nat) : Word := BitVec.ofNat 32 (n % 256)

/-- What is written to DLH for the divisor `n`. -/
def divisorHigh (n : Nat) : Word := BitVec.ofNat 32 (n / 256 % 256)

theorem divisorLow_byte (n : Nat) : (divisorLow n).setWidth 8 = BitVec.ofNat 8 n := by
  apply BitVec.eq_of_toNat_eq
  simp [divisorLow]

theorem divisorHigh_byte (n : Nat) : (divisorHigh n).setWidth 8 = BitVec.ofNat 8 (n / 256) := by
  apply BitVec.eq_of_toNat_eq
  simp [divisorHigh]

section
variable {vars : List (Nat × Val)} {n : Nat}

theorem eval_divisorLow (hd : getVar vars varD = .nat n) :
    (UExpr.trunc (.and (.var varD) (.lit 0xFF))).eval vars = .ok (divisorLow n) := by
  have hbyte : (NExpr.and (.var varD) (.lit 0xFF)).eval vars = .ok (n % 256) := by
    simp only [NExpr.eval, hd]
    exact congrArg Except.ok (Nat.and_two_pow_sub_one_eq_mod n 8)
  rw [UExpr.eval, hbyte]
  rfl

theorem eval_divisorHigh (hd : getVar vars varD = .nat n) :
    (UExpr.trunc (.and (.shr (.var varD) (.lit 8)) (.lit 0xFF))).eval vars = .ok (divisorHigh n) := by
  have hbyte : (NExpr.and (.shr (.var varD) (.lit 8)) (.lit 0xFF)).eval vars = .ok (n / 256 % 256) := by
    simp only [NExpr.eval, hd, both, Val.toNat, Nat.shiftRight_eq_div_pow]
    exact congrArg Except.ok (Nat.and_two_pow_sub_one_eq_mod (n / 256) 8)
  rw [UExpr.eval, hbyte]
  rfl

theorem eval_or_lit (hw : sparseWf (.u32 0) vars = true) (x : Var) (w m : Word) :
    (UExpr.or (.var x) (.lit m)).eval (setVar x (.u32 w) vars) = .ok (w ||| m) := by
  rw [UExpr.eval, eval_var_setVar_u32 hw]
  rfl

theorem eval_and_not_lit (hw : sparseWf (.u32 0) vars = true) (x : Var) (w m : Word) :
    (UExpr.and (.var x) (.not (.lit m))).eval (setVar x (.u32 w) vars) = .ok (w &&& ~~~m) := by
  rw [eval_and, eval_var_setVar_u32 hw]
  rfl

end

section
variable {h : Nat} {d : State} {c : HostCtx} {l : List Stmt} {dst : Option Var} {a b : NExpr} {src baud : Nat}

theorem hostRun_initUart (hb : Ahead c (.call dst (.initUart a b) :: l)) (ha : a.eval c.vars = .ok src)
    (hbaud : b.eval c.vars = .ok baud) (hpos : 0 < baud) (he : d.transmitterEmpty) :
    let n := computeDivisor src baud
    HostRun h (if d.cfg.pollBound = none then 14 else 15) d c
      (dlabCleared h (divisorWritten h (divisorLow n) (divisorHigh n) (lineSetUp h (lsrRead h d))))
      (c.returned dst none) := by
  intro n
  refine hostRun_pollTemtThen (k := 12) hb ((body_initUart ha hbaud).trans (if_neg (Nat.ne_of_gt hpos))) he
    fun body pc hb => ?_
  refine .wr hb rfl rfl (performed_wr004 _ _ _) fun hb => ?_
  refine .wr hb rfl rfl (performed_wrFcr _ _ _) fun hb => ?_
  refine .wr hb rfl rfl (performed_wrMcr _ _ _ (by decide) (by decide)) fun hb => ?_
  refine .wr hb rfl rfl (performed_wrLcr _ _ _) fun hb => ?_
  refine .rd hb rfl (performed_rdLcr _ _) fun hb => ?_
  have hwf := setVar_wf (polledVars_wf c d) varT (.u32 ((lineSetUp h (lsrRead h d)).uart.lcr.setWidth 32))
  have hn := getVar_setVar_same hwf varD (.nat n)
  refine .wr hb (eval_or_lit (polledVars_wf c d) ..) rfl (performed_wrLcr _ _ _) fun hb => ?_
  refine .letN hb (eval_divisorExpr hpos _) fun hb => ?_
  refine .wr hb (eval_divisorLow hn) rfl (performed_wr000 _ _ _) fun hb => ?_
  refine .wr hb (eval_divisorHigh hn) rfl (performed_wr004 _ _ _) fun hb => ?_
  refine .rd hb rfl (performed_rdLcr _ _) fun hb => ?_
  refine .wr hb (eval_and_not_lit (setVar_wf hwf _ _) ..) rfl (performed_wrLcr _ _ _) fun hb => ?_
  refine .ret_inBody (vars := setVar varT _ (setVar varD (.nat n) (setVar varT _ (polledVars c d)))) (pc := pc + 11)
    hb rfl ?_
  rw [getVar_setVar_timeout (by decide), getVar_setVar_timeout (by decide), getVar_setVar_timeout (by decide),
    polledVars_timeout]

end

/-! ### Without a busy guard (R1012) -/

section
variable {h : Nat} {d : State} (hg : d.cfg.busyGuard = false)
include hg

theorem guarded_of_no_guard : d.guarded = false := by rw [State.guarded, hg, Bool.false_and]

theorem guardDraws_of_no_guard : d.guardDraws = 0 := by rw [State.guardDraws, hg]; rfl

theorem dllWritten_unguarded (v : Word) : dllWritten h v d =
    recorded h .uart 0x000 .write v { d with uart := { d.uart with dll := v.setWidth 8 } } := by
  simp only [dllWritten, guarded_of_no_guard hg, guardDraws_of_no_guard hg]
  rfl

theorem dlhWritten_unguarded (v : Word) : dlhWritten h v d =
    recorded h .uart 0x004 .write v { d with uart := { d.uart with dlh := v.setWidth 8 } } := by
  simp only [dlhWritten, guarded_of_no_guard hg, guardDraws_of_no_guard hg]
  rfl

theorem lcrWritten_unguarded (v : Word) : lcrWritten h v d =
    recorded h .uart 0x00C .write v { d with
      txlog := d.txlog ++ breakEvents d.uart.bc (v.getLsbD 6), uart := { d.uart with lcr := v.setWidth 8 } } := by
  simp only [lcrWritten, guarded_of_no_guard hg, guardDraws_of_no_guard hg]
  rfl

theorem enableWritten_zero : enableWritten h 0x00 d =
    recorded h .uart 0x004 .write 0x00 { d with uart := { d.uart with
      ier := if d.uart.dlab then d.uart.ier else 0x00, dlh := if d.uart.dlab then 0x00 else d.uart.dlh } } := by
  cases hl : d.uart.dlab
  · rw [enableWritten, hl, if_neg Bool.false_ne_true]
    exact ierWritten_eq (.inl rfl) h d
  · rw [enableWritten, hl, if_pos rfl, dlhWritten_unguarded hg]
    rfl

end

section
variable {h : Nat} {d : State}

theorem fcrWritten_reset (hq : d.uart.txq = []) : fcrWritten h 0x06 d =
    recorded h .uart 0x008 .write 0x06 { d with uart := { d.uart with
      fifoe := false, dmam := false, tet := 0, rt := 0, rxq := [], timeoutIp := false } } := by
  have hfcr : raiseThreIfEmptied d.uart (writeFcr 0x06 d.uart) = { d.uart with
      fifoe := false, dmam := false, tet := 0, rt := 0, rxq := [], timeoutIp := false } := by
    simp [raiseThreIfEmptied_eq, writeFcr_eq, hq]
  rw [fcrWritten, hfcr]

theorem mcrWritten_lines (h : Nat) (d : State) : mcrWritten h 0x03 d =
    recorded h .uart 0x010 .write 0x03 { d with
      uart := updateDeltas (effModem d.env d.uart) d.env { d.uart with mcr := 0x03 } } := by
  rw [mcrWritten, effModem_mcrWritten]
  rfl

theorem lineSetUp_eq (hg : d.cfg.busyGuard = false) (hq : d.uart.txq = []) :
    lineSetUp h d = { d with
      uart := updateDeltas (effModem d.env d.uart) d.env { d.uart with
        ier := if d.uart.dlab then d.uart.ier else 0x00
        dlh := if d.uart.dlab then 0x00 else d.uart.dlh
        lcr := 0x03, mcr := 0x03, fifoe := false, dmam := false, tet := 0, rt := 0, rxq := [], timeoutIp := false }
      txlog := d.txlog ++ if d.uart.lcr.getLsbD 6 then [LineEvent.breakEnd] else []
      hlog := d.hlog ++ [Txn.mk h .uart 0x004 .write 0x00, Txn.mk h .uart 0x008 .write 0x06,
        Txn.mk h .uart 0x010 .write 0x03, Txn.mk h .uart 0x00C .write 0x03] } := by
  have hbreak : breakEvents (d.uart.lcr.getLsbD 6) false =
      if d.uart.lcr.getLsbD 6 then [LineEvent.breakEnd] else [] := by
    cases d.uart.lcr.getLsbD 6 <;> rfl
  rw [lineSetUp, enableWritten_zero hg, fcrWritten_reset, mcrWritten_lines, lcrWritten_unguarded, ← hbreak]
  · simp only [recorded, List.append_assoc]
    rfl
  · exact hg
  · exact hq

/-- A read of LCR, which holds `b`, and a write that leaves bit 6 as it is. -/
theorem lcrRewritten_eq (hg : d.cfg.busyGuard = false) {b : Byte} (hl : d.uart.lcr = b) {v : Word}
    (hv : v.getLsbD 6 = b.getLsbD 6) : lcrWritten h v (lcrRead h d) = { d with
      rdata := b.setWidth 32
      uart := { d.uart with lcr := v.setWidth 8 }
      hlog := d.hlog ++ [Txn.mk h .uart 0x00C .read (b.setWidth 32), Txn.mk h .uart 0x00C .write v] } := by
  subst hl
  have hbreak : breakEvents d.uart.bc (v.getLsbD 6) = [] := by
    rw [hv, Uart.bc]
    cases d.uart.lcr.getLsbD 6 <;> rfl
  rw [lcrWritten_unguarded (d := lcrRead h d) hg, show (lcrRead h d).uart.bc = d.uart.bc from rfl, hbreak]
  simp only [recorded, lcrRead, List.append_assoc, List.append_nil]
  rfl

/-- With DLAB = 1 the two writes go to the divisor latches. -/
theorem latchesWritten_eq (hg : d.cfg.busyGuard = false) (hl : d.uart.dlab = true) (low high : Word) :
    enableWritten h high (dataWritten h low d) = { d with
      uart := { d.uart with dll := low.setWidth 8, dlh := high.setWidth 8 }
      hlog := d.hlog ++ [Txn.mk h .uart 0x000 .write low, Txn.mk h .uart 0x004 .write high] } := by
  rw [dataWritten, if_pos hl, dllWritten_unguarded hg, enableWritten, if_pos, dlhWritten_unguarded]
  · simp only [recorded, List.append_assoc]
    rfl
  · exact hg
  · exact hl

/-- From LCR = 0x03 on: LCR is read and written with DLAB set, the divisor is written, and LCR is read and written back
to 0x03. -/
theorem divisorProgrammed_eq (hg : d.cfg.busyGuard = false) (hl : d.uart.lcr = 0x03) (low high : Word) :
    dlabCleared h (divisorWritten h low high d) = { d with
      rdata := 0x83
      uart := { d.uart with dll := low.setWidth 8, dlh := high.setWidth 8, lcr := 0x03 }
      hlog := d.hlog ++ [Txn.mk h .uart 0x00C .read 0x03, Txn.mk h .uart 0x00C .write 0x83,
        Txn.mk h .uart 0x000 .write low, Txn.mk h .uart 0x004 .write high,
        Txn.mk h .uart 0x00C .read 0x83, Txn.mk h .uart 0x00C .write 0x03] } := by
  have hset := lcrRewritten_eq (h := h) hg hl (v := 0x83) rfl
  have hv : d.uart.lcr.setWidth 32 ||| 0x80 = (0x83 : Word) := by rw [hl]; rfl
  rw [divisorWritten, hv, hset, latchesWritten_eq, dlabCleared, lcrRewritten_eq (b := 0x83)]
  · simp only [List.append_assoc]
    rfl
  · exact hg
  · rfl
  · show BitVec.getLsbD (((0x83 : Word).setWidth 8).setWidth 32 &&& 0xFFFFFF7F : Word) 6 = BitVec.getLsbD (0x83 : Byte) 6
    decide
  · exact hg
  · exact (rfl : BitVec.getLsbD (0x83 : Byte) 7 = true)

/-- The eleven transactions together, the transmitter having been empty (R1012). -/
theorem programmed_eq (hg : d.cfg.busyGuard = false) (hq : d.uart.txq = []) (low high : Word) :
    dlabCleared h (divisorWritten h low high (lineSetUp h (lsrRead h d))) = { d with
      rdata := 0x83
      uart := updateDeltas (effModem d.env d.uart) d.env { errorsCleared d.uart with
        dll := low.setWidth 8, dlh := high.setWidth 8, ier := if d.uart.dlab then d.uart.ier else 0x00
        lcr := 0x03, mcr := 0x03, fifoe := false, dmam := false, tet := 0, rt := 0, rxq := [], timeoutIp := false }
      txlog := d.txlog ++ if d.uart.lcr.getLsbD 6 then [LineEvent.breakEnd] else []
      hlog := d.hlog ++ [
        Txn.mk h .uart 0x014 .read (lsrWord d), Txn.mk h .uart 0x004 .write 0x00, Txn.mk h .uart 0x008 .write 0x06,
        Txn.mk h .uart 0x010 .write 0x03, Txn.mk h .uart 0x00C .write 0x03, Txn.mk h .uart 0x00C .read 0x03,
        Txn.mk h .uart 0x00C .write 0x83, Txn.mk h .uart 0x000 .write low, Txn.mk h .uart 0x004 .write high,
        Txn.mk h .uart 0x00C .read 0x83, Txn.mk h .uart 0x00C .write 0x03] } := by
  rw [lineSetUp_eq (d := lsrRead h d) hg hq, divisorProgrammed_eq]
  · simp only [lsrRead, recorded, List.append_assoc]
    rfl
  · exact hg
  · rfl

end

/-! ### Under a busy guard (R1014) -/

/-- What no transaction at the offsets 0x000, 0x004 and 0x00C changes. -/
structure BankedFrame (d d' : State) : Prop where
  cfg   : d'.cfg = d.cfg
  env   : d'.env = d.env
  gpio  : d'.gpio = d.gpio
  ioc   : d'.ioc = d.ioc
  mcr   : d'.uart.mcr = d.uart.mcr
  fifoe : d'.uart.fifoe = d.uart.fifoe
  rxq   : d'.uart.rxq = d.uart.rxq
  scr   : d'.uart.scr = d.uart.scr

theorem BankedFrame.trans {d d₁ d' : State} (f : BankedFrame d d₁) (g : BankedFrame d₁ d') : BankedFrame d d' :=
  ⟨g.cfg.trans f.cfg, g.env.trans f.env, g.gpio.trans f.gpio, g.ioc.trans f.ioc, g.mcr.trans f.mcr,
    g.fifoe.trans f.fifoe, g.rxq.trans f.rxq, g.scr.trans f.scr⟩

section
variable (h : Nat) (v : Word) (d : State)

theorem lcrRead_frame : BankedFrame d (lcrRead h d) := ⟨rfl, rfl, rfl, rfl, rfl, rfl, rfl, rfl⟩

theorem lcrWritten_frame : BankedFrame d (lcrWritten h v d) := by
  rw [lcrWritten]
  cases d.guarded <;> exact ⟨rfl, rfl, rfl, rfl, rfl, rfl, rfl, rfl⟩

theorem dataWritten_frame : BankedFrame d (dataWritten h v d) := by
  rw [dataWritten]
  split
  · rw [dllWritten]
    cases d.guarded <;> exact ⟨rfl, rfl, rfl, rfl, rfl, rfl, rfl, rfl⟩
  · rw [thrWritten, enqueueTx_eq]
    exact ⟨rfl, rfl, rfl, rfl, rfl, rfl, rfl, rfl⟩

theorem enableWritten_frame : BankedFrame d (enableWritten h v d) := by
  rw [enableWritten]
  split
  · rw [dlhWritten]
    cases d.guarded <;> exact ⟨rfl, rfl, rfl, rfl, rfl, rfl, rfl, rfl⟩
  · exact ⟨rfl, rfl, rfl, rfl, rfl, rfl, rfl, rfl⟩

theorem dataWritten_hlog : (dataWritten h v d).hlog = d.hlog ++ [Txn.mk h .uart 0x000 .write v] := by
  rw [dataWritten]
  split <;> rfl

theorem enableWritten_hlog : (enableWritten h v d).hlog = d.hlog ++ [Txn.mk h .uart 0x004 .write v] := by
  rw [enableWritten]
  split <;> rfl

/-- The last six transactions are at banked offsets and at that of LCR. -/
theorem divisorProgrammed_frame (low high : Word) : BankedFrame d (dlabCleared h (divisorWritten h low high d)) :=
  .trans (.trans (.trans (.trans (.trans (lcrRead_frame ..) (lcrWritten_frame ..)) (dataWritten_frame ..))
    (enableWritten_frame ..)) (lcrRead_frame ..)) (lcrWritten_frame ..)

theorem divisorProgrammed_hlog (low high : Word) :
    (dlabCleared h (divisorWritten h low high d)).hlog = d.hlog ++ (
      let x := d.uart.lcr.setWidth 32
      let y := (divisorWritten h low high d).uart.lcr.setWidth 32
      [Txn.mk h .uart 0x00C .read x, Txn.mk h .uart 0x00C .write (x ||| 0x80), Txn.mk h .uart 0x000 .write low,
        Txn.mk h .uart 0x004 .write high, Txn.mk h .uart 0x00C .read y,
        Txn.mk h .uart 0x00C .write (y &&& 0xFFFFFF7F)]) := by
  have hw : (divisorWritten h low high d).hlog = _ := enableWritten_hlog ..
  rw [dataWritten_hlog] at hw
  show ((divisorWritten h low high d).hlog ++ [_]) ++ [_] = _
  rw [hw]
  show (((((d.hlog ++ [_]) ++ [_]) ++ _) ++ _) ++ _) ++ _ = _
  simp only [List.append_assoc]
  rfl

/-- The write of FCR turns the FIFOs off and empties the receive queue. -/
theorem fcrWritten_fields : (fcrWritten h 0x06 d).uart.fifoe = false ∧ (fcrWritten h 0x06 d).uart.rxq = [] ∧
    (fcrWritten h 0x06 d).uart.scr = d.uart.scr := by
  rw [fcrWritten, raiseThreIfEmptied_eq, writeFcr_eq]
  exact ⟨rfl, if_pos (Bool.or_true _), rfl⟩

theorem lineSetUp_uart : (lineSetUp h d).uart.mcr = 0x03 ∧ (lineSetUp h d).uart.fifoe = false ∧
    (lineSetUp h d).uart.rxq = [] ∧ (lineSetUp h d).uart.scr = d.uart.scr := by
  have f := lcrWritten_frame h 0x03 (mcrWritten h 0x03 (fcrWritten h 0x06 (enableWritten h 0x00 d)))
  obtain ⟨hfifoe, hrxq, hscr⟩ := fcrWritten_fields h (enableWritten h 0x00 d)
  exact ⟨f.mcr, f.fifoe.trans hfifoe, f.rxq.trans hrxq, f.scr.trans (hscr.trans (enableWritten_frame h 0x00 d).scr)⟩

theorem lineSetUp_hlog : (lineSetUp h d).hlog = d.hlog ++ [Txn.mk h .uart 0x004 .write 0x00,
    Txn.mk h .uart 0x008 .write 0x06, Txn.mk h .uart 0x010 .write 0x03, Txn.mk h .uart 0x00C .write 0x03] := by
  show ((((enableWritten h 0 d).hlog ++ [_]) ++ [_]) ++ [_]) = _
  rw [enableWritten_hlog]
  simp only [List.append_assoc]
  rfl

end

/-- Settles O50, by the run of the body: with no busy guard the device is that of `programmed_eq`; under one, the log and
the registers at the other offsets are those of `divisorProgrammed_hlog` and `BankedFrame`. -/
theorem initializeProgramsUart : Obligations.InitializeProgramsUart := by
  intro s h c dst a b src baud rest steps r ha hbaud hpos he n o low high issued
  have hsteps : steps ≠ 0 := by
    simp only [steps]
    split <;> decide
  have hrun := reaches_of_runsAlone (m := 0) r hsteps (hostRun_initUart (ahead_of_runsAlone r) ha hbaud hpos he)
  have htemt : (lsrWord s).getLsbD 6 = true := (lsrWord_temt s).trans ((temt_iff s).mpr he)
  refine ⟨fun hg => ⟨lsrWord s, htemt, ?_⟩, fun _ => ?_⟩
  · rw [programmed_eq hg he.1, divisorLow_byte, divisorHigh_byte] at hrun
    exact hrun
  · have f := divisorProgrammed_frame h (lineSetUp h (lsrRead h s)) low high
    have e := enableWritten_frame h 0x00 (lsrRead h s)
    obtain ⟨hmcr, hfifoe, hrxq, hscr⟩ := lineSetUp_uart h (lsrRead h s)
    refine ⟨_, lsrWord s, (lineSetUp h (lsrRead h s)).uart.lcr.setWidth 32,
      (divisorWritten h low high (lineSetUp h (lsrRead h s))).uart.lcr.setWidth 32, hrun, htemt, ?_, rfl, rfl,
      f.cfg.trans e.cfg, f.env.trans e.env, f.gpio.trans e.gpio, f.ioc.trans e.ioc, f.mcr.trans hmcr, f.fifoe.trans hfifoe,
      f.rxq.trans hrxq, f.scr.trans hscr⟩
    have hlog := divisorProgrammed_hlog h (lineSetUp h (lsrRead h s)) low high
    rw [lineSetUp_hlog] at hlog
    simp only [lsrRead, recorded, List.append_assoc] at hlog
    exact hlog

end Sys2Proof.Proofs
end

section
/-! PROOFS. The invariant of the machine (70_reset_and_hazards.md R1003): the reset state has it and every step keeps it, as
it keeps formed programs (30_encoding.md R317) and the canonical form of the host variables. -/

namespace Sys2Proof.Proofs

open Sys2Proof.Machine Sys2Proof.Laws

/-! ### What the operations on the UART keep of its invariant -/

section
variable {p : Params} {u : Uart}

/-- The registers written under a mask keep the bits outside it 0 (10_state.md R105, R111). -/
theorem masked_reserved (b m : Byte) : b &&& m &&& ~~~m = 0 := by
  rw [BitVec.and_assoc, BitVec.and_not_self]
  exact BitVec.and_zero

theorem length_tail_le {α : Type} {n : Nat} {l q : List α} {x : α} (hl : l = x :: q) (h : l.length ≤ n) :
    q.length ≤ n := by
  rw [hl] at h
  exact (Nat.le_succ _).trans h

theorem enqueueTx_inv (hp : p.wf = true) (b : Byte) (hu : u.inv p) : (enqueueTx p b u).inv p := by
  obtain ⟨htx, hrest⟩ := hu
  refine ⟨enqueueTx_length (fifoDepth_of_wf hp) htx, ?_⟩
  rw [enqueueTx_eq]
  exact hrest

theorem pushRx_inv (hp : p.wf = true) (e : RxEntry) (hu : u.inv p) : (pushRx p e u).inv p := by
  obtain ⟨htx, hrx, hrest⟩ := hu
  have hlen := pushRx_length (fifoDepth_of_wf hp) (e := e) hrx
  rw [pushRx_frame] at hlen ⊢
  exact ⟨htx, hlen, hrest⟩

theorem popRx_inv {e : RxEntry} {q : List RxEntry} (hq : u.rxq = e :: q) (hu : u.inv p) : (popRx q u).inv p := by
  obtain ⟨htx, hrx, hrest⟩ := hu
  rw [popRx_eq]
  exact ⟨htx, length_tail_le hq hrx, hrest⟩

theorem raiseThreIfEmptied_inv (old : Uart) (hu : u.inv p) : (raiseThreIfEmptied old u).inv p := by
  rw [raiseThreIfEmptied_eq]
  exact hu

/-- A queue that is emptied or left stays within its capacity. -/
theorem length_ite_nil_le {α : Type} {n : Nat} (c : Bool) {q : List α} (h : q.length ≤ n) :
    (if c then [] else q).length ≤ n := by
  cases c
  · exact h
  · exact Nat.zero_le n

theorem softFifoReset_inv (v : Word) (hu : u.inv p) : (softFifoReset v u).inv p := by
  obtain ⟨htx, hrx, hrest⟩ := hu
  rw [softFifoReset_eq]
  exact ⟨length_ite_nil_le _ htx, length_ite_nil_le _ hrx, hrest⟩

/-- A change of FIFOE, which changes both capacities (R119), empties both queues. -/
theorem writeFcr_inv (v : Word) (hu : u.inv p) : (writeFcr v u).inv p := by
  obtain ⟨htx, hrx, hrest⟩ := hu
  rw [writeFcr_eq]
  by_cases hf : v.getLsbD 0 = u.fifoe
  · rw [hf]
    exact ⟨length_ite_nil_le _ htx, length_ite_nil_le _ hrx, hrest⟩
  · rw [bne_iff_ne.mpr hf]
    exact ⟨Nat.zero_le _, Nat.zero_le _, hrest⟩

theorem wrIer_inv (b : Byte) (x : Bool) (hu : u.inv p) : Uart.inv p { u with ier := b &&& ierMask p, threIp := x } := by
  obtain ⟨htx, hrx, -, hrest⟩ := hu
  exact ⟨htx, hrx, masked_reserved b (ierMask p), hrest⟩

theorem wrDlf_inv (b : Byte) (hu : u.inv p) : Uart.inv p { u with dlf := b &&& lowMask p.dlfSize } := by
  obtain ⟨htx, hrx, hier, -, hrest⟩ := hu
  exact ⟨htx, hrx, hier, masked_reserved b (lowMask p.dlfSize), hrest⟩

theorem wrMcr_inv {v : Word} (h5 : v.getLsbD 5 = false) (h6 : v.getLsbD 6 = false) (hu : u.inv p) :
    Uart.inv p { u with mcr := v.setWidth 7 } := by
  obtain ⟨htx, hrx, hier, hdlf, -, hrest⟩ := hu
  refine ⟨htx, hrx, hier, hdlf, ?_, hrest⟩
  refine BitVec.eq_of_getLsbD_eq fun j hj => ?_
  rw [BitVec.getLsbD_extractLsb', BitVec.getLsbD_setWidth]
  obtain rfl | rfl : j = 0 ∨ j = 1 := by omega
  · rw [h5]; rfl
  · rw [h6]; rfl

theorem busyIp_inv (hg : p.busyGuard = true) (hu : u.inv p) : Uart.inv p { u with busyIp := true } := by
  obtain ⟨htx, hrx, hier, hdlf, hmcr, -, hrest⟩ := hu
  exact ⟨htx, hrx, hier, hdlf, hmcr, fun _ => hg, hrest⟩

theorem busyIp_cleared_inv (hu : u.inv p) : Uart.inv p { u with busyIp := false } := by
  obtain ⟨htx, hrx, hier, hdlf, hmcr, -, hrest⟩ := hu
  exact ⟨htx, hrx, hier, hdlf, hmcr, nofun, hrest⟩

/-- The shift register takes a character with a format of 44_uart_engines.md R604. -/
theorem txLoad_inv (hu : u.inv p) : (txLoad u).inv p := by
  obtain ⟨htx, hrx, hier, hdlf, hmcr, hbusy, htsr⟩ := hu
  cases hq : u.txq with
  | nil =>
    rw [show txLoad u = u by simp only [txLoad, hq]]
    exact ⟨htx, hrx, hier, hdlf, hmcr, hbusy, htsr⟩
  | cons b q =>
    rw [txLoad_cons hq]
    exact ⟨length_tail_le hq htx, hrx, hier, hdlf, hmcr, hbusy, fun _ => dataBitsOf_range u.lcr⟩

theorem tsrIdle_inv (hu : u.inv p) : Uart.inv p { u with tsrBusy := false } := by
  obtain ⟨htx, hrx, hier, hdlf, hmcr, hbusy, -⟩ := hu
  exact ⟨htx, hrx, hier, hdlf, hmcr, hbusy, nofun⟩

/-- Without FIFO mode, as after a reset, the empty queues are within any capacity (R1000). -/
theorem resetUart_inv (p : Params) (b : Byte) (f : Fmt) : (resetUart b f).inv p :=
  ⟨Nat.zero_le _, Nat.zero_le _, BitVec.zero_and, BitVec.zero_and,
    (by decide : BitVec.extractLsb' 5 2 (0 : BitVec 7) = 0), nofun, nofun⟩

end

/-! ### What a transaction keeps of the invariant -/

section
variable {b : Block} {off : BitVec 12} {v : Word} {p : Params} {s s' t : State}

theorem readOk_uart_inv (h : s'.readOk b off v = .next t) (hu : s'.uart.inv p) : t.uart.inv p := by
  obtain rfl := readOk_next h
  exact hu

theorem writeOk_uart_inv (h : s'.writeOk b off v = .next t) (hu : s'.uart.inv p) : t.uart.inv p := by
  obtain rfl := writeOk_next h
  exact hu

end

/-- R403, R407: the busy guard lets a write through or ignores it. -/
theorem ite_inv {p : Params} {u v : Uart} (g : Bool) (hu : u.inv p) (hv : v.inv p) :
    (if g then u else v).inv p := by
  cases g
  · exact hv
  · exact hu

/-- Only a configuration with a busy guard ignores a write (R453). -/
theorem busyGuard_of_guarded {s : State} (h : s.guarded = true) : s.cfg.busyGuard = true := by
  rw [State.guarded, Bool.and_eq_true] at h
  exact h.1

theorem exec_uart_inv {i : Instr} {s t : State} (hp : s.cfg.wf = true) (hu : s.uart.inv s.cfg) (h : exec i s = .next t) :
    t.uart.inv s.cfg := by
  cases i
  case rdDll | rdIer | rdDlh | rdLcr | rdMcr | rdLsr | rdMsr | rdScr | rdLpdll | rdSrr | rdDlf =>
    exact readOk_uart_inv h hu
  case wrScr | wrLpdll => exact writeOk_uart_inv h hu
  case wrDll | wrDlh => exact writeOk_uart_inv h (ite_inv _ hu hu)
  case rdDrL | rdDrH | rdDdrL | rdDdrH | wrDrL | wrDrH | wrDdrL | wrDdrH =>
    rw [(exec_uart_of_block_bit h (.inl (gpioT_bit29 ..))).1]
    exact hu
  case rdIoc | wrIoc =>
    rw [(exec_uart_of_block_bit h (.inr (iocT_bit30 ..))).1]
    exact hu
  case wrLsr | wrMsr | wrUsr => cases h
  case wrThr v => exact writeOk_uart_inv h (enqueueTx_inv hp _ hu)
  case wrIer v => exact writeOk_uart_inv h (wrIer_inv _ _ hu)
  case wrFcr v => exact writeOk_uart_inv h (raiseThreIfEmptied_inv _ (writeFcr_inv v hu))
  case wrDlf v => exact writeOk_uart_inv h (wrDlf_inv _ hu)
  case rdUsr => exact readOk_uart_inv h (busyIp_cleared_inv hu)
  case rdIir =>
    simp only [exec, execRdIir, threIp_cleared_if_reported] at h
    exact readOk_uart_inv h hu
  case rdRbr =>
    simp only [exec, execRdRbr] at h
    split at h
    next e q hq => exact readOk_uart_inv h (popRx_inv hq hu)
    next => exact readOk_uart_inv h hu
  case wrLcr v =>
    simp only [exec, execWrLcr] at h
    split at h
    next hg => exact writeOk_uart_inv h (busyIp_inv (busyGuard_of_guarded hg) hu)
    next => exact writeOk_uart_inv h hu
  case wrMcr v =>
    simp only [exec, execWrMcr] at h
    split at h
    next => cases h
    next hadm =>
      obtain ⟨h5, h6⟩ : v.getLsbD 5 = false ∧ v.getLsbD 6 = false := by simpa using hadm
      have hmcr := wrMcr_inv h5 h6 hu
      exact writeOk_uart_inv h hmcr
  case wrSrr v =>
    simp only [exec, execWrSrr] at h
    split at h
    next =>
      rw [uartReset_eq] at h
      exact writeOk_uart_inv h (resetUart_inv ..)
    next => exact writeOk_uart_inv h (raiseThreIfEmptied_inv _ (softFifoReset_inv v hu))

theorem exec_gpio_length {i : Instr} {s t : State} (h : exec i s = .next t) : t.gpio.length = s.gpio.length := by
  rcases exec_gpio_ioc_cases h with ⟨hg, -⟩ | ⟨k, g, off, v, rfl⟩ | ⟨off, r, v, rfl⟩
  · rw [hg]
  · exact List.length_set
  · rfl

/-- A transaction leaves the IOC registers or sets one of IOC_REG_SET (R710, R711). -/
theorem exec_ioc_cases {i : Instr} {s t : State} (h : exec i s = .next t) :
    t.ioc = s.ioc ∨
    ∃ (off : BitVec 12) (r : Half), off.toNat ∈ s.cfg.iocRegSet ∧ t.ioc = sparseSet 0 off.toNat r s.ioc := by
  cases i
  case wrIoc off v =>
    by_cases hr : off.toNat ∈ s.cfg.iocRegSet
    · cases (execWrIoc_register hr v).symm.trans h
      exact .inr ⟨off, _, hr, rfl⟩
    · cases (execWrIoc_no_register hr v).symm.trans h
  case rdIoc =>
    have ht := exec_read_frame h rfl (by simp)
    exact .inl (ht ▸ rfl)
  case rdDrL | rdDrH | rdDdrL | rdDdrH | wrDrL | wrDrH | wrDdrL | wrDdrH =>
    exact .inl ((exec_ioc_unless_addressed h).resolve_right fun ⟨h29, _⟩ => nomatch (gpioT_bit29 ..).symm.trans h29)
  all_goals
    exact .inl ((exec_ioc_unless_addressed h).resolve_right fun ⟨_, h30⟩ => nomatch (uartT_bit30 ..).symm.trans h30)

/-- Every performed transaction keeps the invariant. -/
theorem exec_inv {i : Instr} {s t : State} (hs : s.Inv) (h : exec i s = .next t) : t.Inv := by
  have hcfg : t.cfg = s.cfg := (exec_access h).cfg
  constructor
  case params => exact hcfg ▸ hs.params
  case uart => exact hcfg ▸ exec_uart_inv hs.params hs.uart h
  case banks => rw [exec_gpio_length h, hs.banks, hcfg]
  case iocWf =>
    rcases exec_ioc_cases h with hi | ⟨off, r, -, hi⟩
    · exact hi ▸ hs.iocWf
    · exact hi ▸ sparseSet_wf _ _ _ hs.iocWf
  case iocSet =>
    intro x hx
    rw [hcfg]
    rcases exec_ioc_cases h with hi | ⟨off, r, hr, hi⟩
    · exact hs.iocSet x (hi ▸ hx)
    · rcases mem_sparseSet _ _ _ (hi ▸ hx) with rfl | hx'
      · exact hr
      · exact hs.iocSet x hx'

/-! ### What every step keeps of the invariant -/

section
variable {s t : State}

/-- The invariant does not speak of the hosts, the bus master or the schedule. -/
theorem inv_of_eq (hs : s.Inv) (hc : t.cfg = s.cfg) (hu : t.uart = s.uart) (hg : t.gpio = s.gpio) (hi : t.ioc = s.ioc) :
    t.Inv where
  params := hc ▸ hs.params
  uart := by rw [hc, hu]; exact hs.uart
  banks := by rw [hc, hg]; exact hs.banks
  iocWf := hi ▸ hs.iocWf
  iocSet := by rw [hc, hi]; exact hs.iocSet

theorem hostStep_inv {h : Nat} (hs : s.Inv) (k : hostStep h s = .next t) : t.Inv := by
  rcases hostStep_next k with rfl | ⟨m, c, rfl⟩ | ⟨i, s', c, he, rfl⟩
  · exact hs
  · exact inv_of_eq hs rfl rfl rfl rfl
  · have hm : State.Inv { s with master := h } := inv_of_eq hs rfl rfl rfl rfl
    exact inv_of_eq (exec_inv hm he) rfl rfl rfl rfl

theorem txDone_uart_inv (hp : s.cfg.wf = true) (hu : s.uart.inv s.cfg) : (txDone s).uart.inv s.cfg := by
  cases hloop : s.uart.mcr.getLsbD 4
  · rw [txDone_line hloop]
    exact tsrIdle_inv hu
  · rw [txDone_loopback hloop]
    exact tsrIdle_inv (pushRx_inv hp _ hu)

theorem deviceStep_uart_inv (a : AgentStep) (hp : s.cfg.wf = true) (hu : s.uart.inv s.cfg) :
    (deviceStep a s).uart.inv s.cfg := by
  cases a with
  | host | modemChange => exact hu
  | txLoad =>
    by_cases hen : s.uart.txLoadEnabled = true
    · rw [deviceStep_txLoad hen]
      exact txLoad_inv hu
    · rwa [deviceStep_txLoad_disabled hen]
  | txDone =>
    by_cases hen : s.uart.txDoneEnabled = true
    · rw [deviceStep_txDone hen]
      exact txDone_uart_inv hp hu
    · rwa [deviceStep_txDone_disabled hen]
  | rxFrame d pe fe bi =>
    by_cases hen : s.uart.rxFrameEnabled pe = true
    · rw [deviceStep_rxFrame hen]
      exact pushRx_inv hp _ hu
    · rwa [deviceStep_rxFrame_disabled hen]
  | rxTimeout =>
    by_cases hen : s.uart.rxTimeoutEnabled = true
    · rw [deviceStep_rxTimeout hen]
      exact hu
    · rwa [deviceStep_rxTimeout_disabled hen]

theorem deviceStep_inv (a : AgentStep) (hs : s.Inv) : (deviceStep a s).Inv := by
  have hu := deviceStep_uart_inv a hs.params hs.uart
  rw [deviceStep_frame]
  exact ⟨hs.params, hu, hs.banks, hs.iocWf, hs.iocSet⟩

/-- HW_RESET gives the invariant's UART and register sets whatever they were (R1000 to R1002). -/
theorem hwReset_inv (hp : s.cfg.wf = true) : (hwReset s).Inv where
  params := hwReset_cfg s ▸ hp
  uart := by rw [hwReset_eq]; exact resetUart_inv ..
  banks := by rw [hwReset_gpio_length, hwReset_cfg]
  iocWf := hwReset_ioc_wf s
  iocSet := fun x hx => by rw [hwReset_cfg]; exact hwReset_ioc_mem s hx

theorem taken_inv (hs : s.Inv) : s.taken.Inv :=
  inv_of_eq hs (taken_cfg s) (taken_uart s) (taken_gpio s) (taken_ioc s)

theorem step_inv (hs : s.Inv) (k : step s = .next t) : t.Inv := by
  rcases step_next k with ⟨h, -, hh⟩ | ⟨a, -, -, rfl⟩ | ⟨-, rfl⟩
  · exact hostStep_inv (taken_inv hs) hh
  · exact deviceStep_inv a (taken_inv hs)
  · exact hwReset_inv (taken_inv hs).params

end

/-! ### What a step makes of a host's context -/

/-- What one step of a host can make of its context: it goes on in the same body, with assignments at most; it enters the
body of a procedure; it returns. -/
inductive HostMoves (c : HostCtx) : HostCtx → Prop
  | within {c' : HostCtx} (body : c'.body = c.body) (callers : c'.callers = c.callers)
      (vars : sparseWf (.u32 0) c.vars = true → sparseWf (.u32 0) c'.vars = true) : HostMoves c c'
  | enters (dst : Option Var) {b : List Line} (hb : formed b = true) : HostMoves c (c.enter dst b)
  | returns (v : Option Val) : HostMoves c (c.doReturn v)

/-- Going on with the variables as they are. -/
theorem HostMoves.on {c c' : HostCtx} (hb : c'.body = c.body) (hk : c'.callers = c.callers) (hv : c'.vars = c.vars) :
    HostMoves c c' :=
  .within hb hk fun hw => hv ▸ hw

/-- Going on with one variable assigned. -/
theorem HostMoves.assigned {c c' : HostCtx} {x : Var} {v : Val} (hb : c'.body = c.body) (hk : c'.callers = c.callers)
    (hv : c'.vars = setVar x v c.vars) : HostMoves c c' :=
  .within hb hk fun hw => hv ▸ setVar_wf hw x v

/-- A `poll` assigns its variable, and TIMEOUT if it gives up (R315). -/
theorem HostMoves.polled (c : HostCtx) (x : Var) (v : Val) (bound : Option Nat) (zero : Bool) :
    HostMoves c (pollNext bound zero (c.assign x v)) := by
  unfold pollNext
  split
  · exact .assigned rfl rfl rfl
  · split
    · exact .assigned rfl rfl rfl
    · split
      · exact .within rfl rfl fun hw => setVar_wf (setVar_wf hw x v) _ _
      · exact .assigned rfl rfl rfl

section
variable {h : Nat} {c : HostCtx} {s t : State}

/-- From `s` to `t` every host is left but `h`, whose context was `c` and is moved. -/
def HostMoved (h : Nat) (c : HostCtx) (s t : State) : Prop := ∃ c', HostMoves c c' ∧ t.hosts = s.hosts.set h c'

theorem HostMoved.of_setHost {s' : State} {c' : HostCtx} (hs : s'.hosts = s.hosts) (m : HostMoves c c') :
    HostMoved h c s (s'.setHost h c') :=
  ⟨c', m, congrArg (List.set · h c') hs⟩

theorem branch_host {l : Label} (k : branch h c l s = .next t) : HostMoved h c s t := by
  unfold branch at k
  split at k <;> cases k
  exact .of_setHost rfl (.on rfl rfl rfl)

theorem perform_hosts {d v : Word} (k : perform d v s = .next t) : t.hosts = s.hosts := by
  obtain ⟨i, -, he⟩ := perform_next k
  exact (exec_access he).hosts

theorem transact_hosts {a : AddrOp} {w : Bool} {v : Word} (k : transact a w v s = .next t) : t.hosts = s.hosts := by
  obtain ⟨d, i, -, -, he⟩ := transact_next k
  exact (exec_access he).hosts

theorem stmtStep_host {st : Stmt} (k : stmtStep h c st s = .next t) : HostMoved h c s t := by
  cases st <;> simp only [stmtStep] at k
  case rd x a =>
    obtain ⟨s', hs, rfl⟩ := andThen_next k
    exact .of_setHost (transact_hosts hs) (.assigned rfl rfl rfl)
  case wr a e =>
    split at k
    · obtain ⟨s', hs, rfl⟩ := andThen_next k
      exact .of_setHost (transact_hosts hs) (.on rfl rfl rfl)
    · cases k
  case poll x a m =>
    split at k
    next s' hs =>
      unfold afterPollRead at k
      dsimp only at k
      split at k <;> cases k
      exact .of_setHost (transact_hosts hs) (.polled ..)
    next => cases k
    next => cases k
  case txn d v =>
    obtain ⟨s', hs, rfl⟩ := andThen_next k
    exact .of_setHost (perform_hosts hs) (.on rfl rfl rfl)
  case letU | letN =>
    split at k <;> cases k
    exact .of_setHost rfl (.assigned rfl rfl rfl)
  case bz x m l =>
    split at k
    · split at k
      · exact branch_host k
      · cases k; exact .of_setHost rfl (.on rfl rfl rfl)
    · cases k
  case bnz x m l =>
    split at k
    · split at k
      · cases k; exact .of_setHost rfl (.on rfl rfl rfl)
      · exact branch_host k
    · cases k
  case jmp l => exact branch_host k
  case ret r =>
    split at k <;> cases k
    exact .of_setHost rfl (.returns _)
  case halt =>
    cases k
    exact .of_setHost rfl (.on rfl rfl rfl)
  case call dst q =>
    split at k
    next b hb =>
      cases k
      exact .of_setHost rfl (.enters dst (body_formed hb))
    next => cases k

theorem hostStep_host (k : hostStep h s = .next t) :
    t.hosts = s.hosts ∨ ∃ c, s.hosts[h]? = some c ∧ HostMoved h c s t := by
  unfold hostStep at k
  split at k
  next => cases k; exact .inl rfl
  next c hc =>
    split at k
    next => cases k; exact .inl rfl
    next =>
      split at k
      next => cases k; exact .inr ⟨c, hc, .of_setHost rfl (.on rfl rfl rfl)⟩
      next => exact .inr ⟨c, hc, (stmtStep_host k :)⟩

/-- What holds of every host and is kept by each move of one is kept by every step. -/
theorem step_keeps_hosts {P : HostCtx → Prop} (hP : ∀ c c', HostMoves c c' → P c → P c') (k : step s = .next t)
    (hs : ∀ c ∈ s.hosts, P c) : ∀ c ∈ t.hosts, P c := by
  rcases step_next k with ⟨h, -, hh⟩ | ⟨a, -, -, rfl⟩ | ⟨-, rfl⟩
  · rw [← taken_hosts s] at hs
    rcases hostStep_host hh with ht | ⟨c, hc, c', hm, ht⟩
    · rwa [ht]
    · rw [ht]
      intro d hd
      rcases List.mem_or_eq_of_mem_set hd with hd | rfl
      · exact hs d hd
      · exact hP c d hm (hs c (List.mem_of_getElem? hc))
  · rw [deviceStep_frame]
    exact taken_hosts s ▸ hs
  · rw [hwReset_hosts, taken_hosts]
    exact hs

end

/-! ### Formed programs and canonical variables -/

/-- R317: the bodies a step enters are formed, and it returns to bodies that are. -/
theorem HostMoves.keeps_formed {c c' : HostCtx} (m : HostMoves c c')
    (hc : formed c.body = true ∧ ∀ k ∈ c.callers, formed k.body = true) :
    formed c'.body = true ∧ ∀ k ∈ c'.callers, formed k.body = true := by
  obtain ⟨hb, hk⟩ := hc
  cases m with
  | within body callers => rw [body, callers]; exact ⟨hb, hk⟩
  | enters dst hb' => exact ⟨hb', List.forall_mem_cons.mpr ⟨hb, hk⟩⟩
  | returns v =>
    cases hcs : c.callers with
    | nil =>
      rw [doReturn_top v hcs]
      exact ⟨hb, hk⟩
    | cons k rest =>
      obtain ⟨hbody, -, hcallers, -⟩ := doReturn_called v hcs
      rw [hbody, hcallers]
      exact List.forall_mem_cons.mp (hcs ▸ hk)

theorem carryTimeout_wf {vars : List (Nat × Val)} (v : Val) (h : sparseWf (.u32 0) vars = true) :
    sparseWf (.u32 0) (carryTimeout v vars) = true := by
  unfold carryTimeout
  split
  · exact h
  · exact setVar_wf h _ _

theorem HostMoves.keeps_varsWf {c c' : HostCtx} (m : HostMoves c c')
    (hc : sparseWf (.u32 0) c.vars = true ∧ ∀ k ∈ c.callers, sparseWf (.u32 0) k.vars = true) :
    sparseWf (.u32 0) c'.vars = true ∧ ∀ k ∈ c'.callers, sparseWf (.u32 0) k.vars = true := by
  obtain ⟨hv, hk⟩ := hc
  cases m with
  | within body callers vars => rw [callers]; exact ⟨vars hv, hk⟩
  | enters dst hb' => exact ⟨bodyVars_wf c, List.forall_mem_cons.mpr ⟨hv, hk⟩⟩
  | returns v =>
    cases hcs : c.callers with
    | nil =>
      rw [doReturn_top v hcs]
      exact ⟨hv, hk⟩
    | cons k rest =>
      obtain ⟨-, -, hcallers, -, -, hset, hsame⟩ := doReturn_called v hcs
      obtain ⟨hkv, hrest⟩ := List.forall_mem_cons.mp (hcs ▸ hk)
      have hcarried := carryTimeout_wf (getVar c.vars timeoutVar) hkv
      rw [hcallers]
      refine ⟨?_, hrest⟩
      cases hd : k.dst with
      | none => rwa [hsame (.inl hd)]
      | some x =>
        cases v with
        | none => rwa [hsame (.inr rfl)]
        | some y =>
          rw [hset x y hd rfl]
          exact setVar_wf hcarried x y

/-! ### A formed program is never refused for a missing label

The reasons of 60_exceptions.md R900 have a code; a missing label is the model's own reason and has none. -/

section
variable {s : State} {r : Refusal}

theorem readGpio_refused_code {k : BitVec 7} {off : BitVec 12} {reg : GpioBank → Half}
    (h : s.readGpio k off reg = .refused r) : r.code ≠ none := by
  unfold State.readGpio at h
  split at h <;> cases h
  exact nofun

theorem writeGpio_refused_code {k : BitVec 7} {off : BitVec 12} {v : Word} {upd : GpioBank → GpioBank}
    (h : s.writeGpio k off v upd = .refused r) : r.code ≠ none := by
  unfold State.writeGpio at h
  split at h <;> cases h
  exact nofun

theorem exec_refused_code {i : Instr} (h : exec i s = .refused r) : r.code ≠ none := by
  cases i
  case wrLsr | wrMsr | wrUsr => cases h; exact nofun
  case wrMcr v =>
    simp only [exec, execWrMcr] at h
    split at h <;> cases h
    exact nofun
  case rdDrL | rdDrH | rdDdrL | rdDdrH => exact readGpio_refused_code h
  case wrDrL | wrDrH | wrDdrL | wrDdrH => exact writeGpio_refused_code h
  case rdIoc | wrIoc =>
    simp only [exec, execRdIoc, execWrIoc] at h
    split at h <;> cases h
    exact nofun
  case rdRbr => obtain ⟨t, ht⟩ := execRdRbr_completes s; cases ht.symm.trans h
  case wrLcr v => obtain ⟨t, ht⟩ := execWrLcr_completes s v; cases ht.symm.trans h
  case wrSrr v => obtain ⟨t, ht⟩ := execWrSrr_completes s v; cases ht.symm.trans h
  all_goals cases h

theorem perform_refused_code {d v : Word} (h : perform d v s = .refused r) : r.code ≠ none := by
  unfold perform at h
  split at h
  next => exact exec_refused_code h
  next e _ =>
    cases h
    cases e <;> exact nofun

theorem descriptor_refused_code {p : Params} {a : AddrOp} {w : Bool} (h : a.descriptor p w = .error r) :
    r.code ≠ none := by
  cases a <;> simp only [AddrOp.descriptor] at h
  case absolute =>
    split at h <;> cases h
    exact nofun
  all_goals cases h

theorem transact_refused_code {a : AddrOp} {w : Bool} {v : Word} (h : transact a w v s = .refused r) :
    r.code ≠ none := by
  unfold transact at h
  split at h
  next => exact perform_refused_code h
  next hd => cases h; exact descriptor_refused_code hd

theorem andThen_refused {o : Host.Outcome State Fault Refusal} {f : State → State} (h : andThen o f = .refused r) :
    o = .refused r := by
  cases o <;> cases h
  rfl

theorem callError_code (st : Stmt) (e : CallError) : (e.toRefusal st).code ≠ none := by
  cases e <;> exact nofun

section
variable {h : Nat} {c : HostCtx} {st : Stmt}

theorem branch_not_refused {l : Label} (hl : (labelIndex l c.body).isSome = true) : branch h c l s ≠ .refused r := by
  obtain ⟨n, hn⟩ := Option.isSome_iff_exists.mp hl
  rw [branch_ok hn]
  exact nofun

/-- A statement whose labels are there is refused for reasons of R900 only. -/
theorem stmtStep_refused_code (hl : ∀ l ∈ st.targets, (labelIndex l c.body).isSome = true)
    (k : stmtStep h c st s = .refused r) : r.code ≠ none := by
  cases st <;> simp only [stmtStep] at k
  case rd => exact transact_refused_code (andThen_refused k)
  case wr =>
    split at k
    · exact transact_refused_code (andThen_refused k)
    · cases k; exact nofun
  case poll =>
    split at k
    next =>
      unfold afterPollRead at k
      dsimp only at k
      split at k <;> cases k
      exact nofun
    next => cases k
    next hr => cases k; exact transact_refused_code hr
  case txn => exact perform_refused_code (andThen_refused k)
  case letU | letN | ret =>
    split at k <;> cases k
    exact nofun
  case bz x m l =>
    split at k
    · split at k
      · exact absurd k (branch_not_refused (hl l List.mem_cons_self))
      · cases k
    · cases k; exact nofun
  case bnz x m l =>
    split at k
    · split at k
      · cases k
      · exact absurd k (branch_not_refused (hl l List.mem_cons_self))
    · cases k; exact nofun
  case jmp l => exact absurd k (branch_not_refused (hl l List.mem_cons_self))
  case halt => cases k
  case call =>
    split at k <;> cases k
    exact callError_code _ _

end

theorem labels_of_formed {b : List Line} (hf : formed b = true) {x : Line} (hx : x ∈ b) :
    ∀ l ∈ x.stmt.targets, (labelIndex l b).isSome = true := by
  simp only [formed, Bool.and_eq_true, List.all_eq_true] at hf
  obtain ⟨hlines, -⟩ := hf
  exact (hlines x hx).2

theorem hostStep_refused_code {h : Nat} (hf : s.ProgramsFormed) (k : hostStep h s = .refused r) : r.code ≠ none := by
  unfold hostStep at k
  split at k
  next => cases k
  next c hc =>
    split at k
    next => cases k
    next =>
      split at k
      next => cases k
      next x hx =>
        obtain ⟨hb, -⟩ := hf c (List.mem_of_getElem? hc)
        exact stmtStep_refused_code (labels_of_formed hb (List.mem_of_getElem? hx)) k

/-- Only a host's step is ever refused. -/
theorem step_refused_code (hf : s.ProgramsFormed) (k : step s = .refused r) : r.code ≠ none := by
  unfold step runEvent at k
  split at k
  next => exact hostStep_refused_code (by rwa [State.ProgramsFormed, taken_hosts]) k
  next => cases k
  next => cases k

end

/-- Settles O43: the invariant by `step_inv`, what holds of the hosts by `step_keeps_hosts`; a missing label has no code of
R900, which with formed programs every refusal has (`step_refused_code`). -/
theorem everyStepKeepsInvariant : Obligations.EveryStepKeepsInvariant :=
  ⟨fun _ _ k => ⟨fun hs => step_inv hs k, step_keeps_hosts (fun _ _ m => m.keeps_formed) k,
    step_keeps_hosts (fun _ _ m => m.keeps_varsWf) k⟩, fun _ _ hf k => step_refused_code hf k rfl⟩

/-! ### The reset state (R1003) -/

theorem reference_wf : Params.reference.wf = true := by decide

theorem inv_of_reset : State.reset.Inv where
  params := reference_wf
  uart := resetUart_inv ..
  banks := rfl
  iocWf := rfl
  iocSet := nofun

/-- The one host of the reset state has no program and no variables. -/
theorem forall_reset_hosts {P : HostCtx → Prop} (h : P (HostCtx.start [])) : ∀ c ∈ State.reset.hosts, P c :=
  List.forall_mem_singleton.mpr h

theorem variablesWf_of_reset : State.reset.VariablesWf := forall_reset_hosts ⟨rfl, nofun⟩

/-- Settles O42: the invariant by `inv_of_reset`, the launch state and the variables by its one host. -/
theorem resetStateMeetsInvariant : Obligations.ResetStateMeetsInvariant :=
  ⟨inv_of_reset, ⟨inv_of_reset, rfl, rfl, forall_reset_hosts rfl, forall_reset_hosts ⟨rfl, nofun⟩, variablesWf_of_reset,
    fun _ => rfl⟩, variablesWf_of_reset⟩

end Sys2Proof.Proofs
end

section
/-! PROOFS. The interrupt identification and the interrupt request, and when a driver that polls sees the request
(60_exceptions.md R911, R916, R917, R919). -/

namespace Sys2Proof.Proofs

open Sys2Proof.Machine Sys2Proof.Laws

/-! ### The identification and INTR (R911, R916, R917) -/

/-- In a chain of six conditions with a value each, all different, the value is that of the first condition that holds. -/
theorem first_of_six {a b c d e f : Prop} [Decidable a] [Decidable b] [Decidable c] [Decidable d] [Decidable e]
    [Decidable f] {i : BitVec 4} (hi : i = if a then 0b0110 else if b then 0b0100 else if c then 0b1100
      else if d then 0b0010 else if e then 0b0000 else if f then 0b0111 else 0b0001) :
    (i = 0b0110 ↔ a) ∧ (i = 0b0100 ↔ ¬a ∧ b) ∧ (i = 0b1100 ↔ ¬a ∧ ¬b ∧ c) ∧ (i = 0b0010 ↔ ¬a ∧ ¬b ∧ ¬c ∧ d) ∧
    (i = 0b0000 ↔ ¬a ∧ ¬b ∧ ¬c ∧ ¬d ∧ e) ∧ (i = 0b0111 ↔ ¬a ∧ ¬b ∧ ¬c ∧ ¬d ∧ ¬e ∧ f) ∧
    ((i != 0b0001) = true ↔ a ∨ b ∨ c ∨ d ∨ e ∨ f) := by
  subst hi
  split_ifs <;> simp [*]

section
variable (p : Params) (u : Uart)

theorem rlsPending_iff : u.rlsPending = true ↔ u.oe = true ∨ u.peS = true ∨ u.feS = true ∨ u.biS = true := by
  simp [Uart.rlsPending, or_assoc]

theorem rdaPending_iff :
    rdaPending p u = true ↔ if u.fifoe = true then trigger p u.rt ≤ u.rxq.length else u.rxq ≠ [] := by
  cases hf : u.fifoe <;> simp [rdaPending, hf]

theorem msPending_iff : u.msPending = true ↔ u.dcts = true ∨ u.ddsr = true ∨ u.teri = true ∨ u.ddcd = true := by
  simp [Uart.msPending, or_assoc]

end

/-- Settles O33: `iid` is the chain of `first_of_six`, its conditions those of R911. -/
theorem interruptPriority : Obligations.InterruptPriority := by
  intro s u level rls rda cto thre ms busy
  have hchain := first_of_six (i := iid s.cfg u) rfl
  simp only [Bool.and_eq_true, rlsPending_iff, rdaPending_iff, msPending_iff, and_assoc] at hchain
  exact hchain

/-! ### A driver that polls (R919) -/

section
variable {s t : State}

theorem busyIp_of_no_guard (hs : s.Inv) (hg : s.cfg.busyGuard = false) : s.uart.busyIp = false := by
  obtain ⟨-, -, -, -, -, hbusy, -⟩ := hs.uart
  rw [← Bool.not_eq_true]
  exact fun h => nomatch hg.symm.trans (hbusy h)

/-- With every source disabled and BUSY_IP clear nothing is pending and enabled. -/
theorem intr_of_ier_zero (hi : s.uart.ier = 0x00) (hb : s.uart.busyIp = false) : s.intr = false := by
  simp [State.intr, iid, hi, hb]

/-- With received data alone enabled and no FIFO, INTR is data ready. -/
theorem intr_of_ier_one (hi : s.uart.ier = 0x01) (hf : s.uart.fifoe = false) (hb : s.uart.busyIp = false) :
    s.intr = s.uart.dr := by
  cases hq : s.uart.rxq <;> simp [State.intr, iid, rdaPending, Uart.dr, hi, hf, hb, hq]

end

/-- `t` records one write of offset 0x004 of the UART more than `s`. -/
def IerOffsetWritten (s t : State) : Prop :=
  ∃ x : Txn, t.hlog = s.hlog ++ [x] ∧ x.block = .uart ∧ x.dir = .write ∧ x.offset = 0x004

/-- IER is as it was, or at its reset value. -/
def IerKeptOrReset (u v : Uart) : Prop := v.ier = u.ier ∨ v.ier = 0

section
variable {b : Block} {off : BitVec 12} {v : Word} {s s' t : State}

theorem readOk_ier (h : s'.readOk b off v = .next t) (k : s'.uart.ier = s.uart.ier) : IerKeptOrReset s.uart t.uart := by
  obtain rfl := readOk_next h
  exact .inl k

theorem writeOk_ier (h : s'.writeOk b off v = .next t) (k : IerKeptOrReset s.uart s'.uart) :
    IerKeptOrReset s.uart t.uart := by
  obtain rfl := writeOk_next h
  exact k

end

/-- IER changes by a write of its offset or by a reset of the UART only. -/
theorem exec_ier {i : Instr} {s t : State} (h : exec i s = .next t) :
    IerKeptOrReset s.uart t.uart ∨ IerOffsetWritten s t := by
  cases i
  case rdDll | rdIer | rdDlh | rdLcr | rdMcr | rdLsr | rdMsr | rdScr | rdLpdll | rdUsr | rdSrr | rdDlf =>
    exact .inl (readOk_ier h rfl)
  case wrScr | wrLpdll | wrDlf => exact .inl (writeOk_ier h (.inl rfl))
  case wrIer | wrDlh =>
    obtain rfl := writeOk_next h
    exact .inr ⟨_, rfl, rfl, rfl, rfl⟩
  case rdDrL | rdDrH | rdDdrL | rdDdrH | wrDrL | wrDrH | wrDdrL | wrDdrH =>
    exact .inl (.inl (congrArg Uart.ier (exec_uart_of_block_bit h (.inl (gpioT_bit29 ..))).1))
  case rdIoc | wrIoc => exact .inl (.inl (congrArg Uart.ier (exec_uart_of_block_bit h (.inr (iocT_bit30 ..))).1))
  case wrLsr | wrMsr | wrUsr => cases h
  case rdRbr =>
    simp only [exec, execRdRbr, popRx_eq] at h
    split at h <;> exact .inl (readOk_ier h rfl)
  case rdIir =>
    simp only [exec, execRdIir, threIp_cleared_if_reported] at h
    exact .inl (readOk_ier h rfl)
  case wrThr =>
    simp only [exec, execWrThr, enqueueTx_eq] at h
    exact .inl (writeOk_ier h (.inl rfl))
  case wrDll =>
    simp only [exec, execWrDll] at h
    split at h <;> exact .inl (writeOk_ier h (.inl rfl))
  case wrFcr =>
    simp only [exec, execWrFcr, raiseThreIfEmptied_eq, writeFcr_eq] at h
    exact .inl (writeOk_ier h (.inl rfl))
  case wrLcr =>
    simp only [exec, execWrLcr] at h
    split at h <;> exact .inl (writeOk_ier h (.inl rfl))
  case wrMcr =>
    simp only [exec, execWrMcr] at h
    split at h
    · cases h
    · exact .inl (writeOk_ier h (.inl rfl))
  case wrSrr =>
    simp only [exec, execWrSrr, uartReset_eq, raiseThreIfEmptied_eq, softFifoReset_eq] at h
    split at h
    · exact .inl (writeOk_ier h (.inr rfl))
    · exact .inl (writeOk_ier h (.inl rfl))

theorem hostStep_ier {h : Nat} {s t : State} (k : hostStep h s = .next t) :
    IerKeptOrReset s.uart t.uart ∨ IerOffsetWritten s t := by
  rcases hostStep_next k with rfl | ⟨m, c, rfl⟩ | ⟨i, s', c, he, rfl⟩
  · exact .inl (.inl rfl)
  · exact .inl (.inl rfl)
  · exact (exec_ier he :)

theorem pushRx_ier (p : Params) (e : RxEntry) (u : Uart) : (pushRx p e u).ier = u.ier := by rw [pushRx_frame]

theorem deviceStep_ier (a : AgentStep) (s : State) : (deviceStep a s).uart.ier = s.uart.ier := by
  cases a <;> simp only [deviceStep]
  case modemChange => rfl
  case txLoad =>
    split
    · simp only [txLoad]
      split <;> rfl
    · rfl
  case txDone =>
    split
    · simp only [txDone]
      split
      · exact pushRx_ier ..
      · rfl
    · rfl
  case rxFrame =>
    split
    · exact pushRx_ier ..
    · rfl
  case rxTimeout => split <;> rfl

theorem step_ier {s t : State} (k : step s = .next t) : IerKeptOrReset s.uart t.uart ∨ IerOffsetWritten s t := by
  rcases step_next k with ⟨h, -, hh⟩ | ⟨a, -, -, rfl⟩ | ⟨-, rfl⟩
  · simpa [IerOffsetWritten] using hostStep_ier hh
  · exact .inl (.inl (by rw [deviceStep_ier, taken_uart]))
  · exact .inl (.inr (by rw [hwReset_eq]; rfl))

/-- Settles O34: a step keeps IER = 0 (`step_ier`) and, by the invariant, BUSY_IP = 0. -/
theorem polledDriverInterrupts : Obligations.PolledDriverInterrupts := by
  intro s hs hg
  have hb := busyIp_of_no_guard hs hg
  refine ⟨fun hi => ⟨intr_of_ier_zero hi hb, fun t k hw => ?_⟩, fun hi hf => ?_⟩
  · have hkept : IerKeptOrReset s.uart t.uart :=
      (step_ier k).resolve_right fun ⟨x, hx, hblock, hdir, hoff⟩ => hw x hx hblock hdir hoff
    have hi' : t.uart.ier = 0x00 := hkept.elim (·.trans hi) id
    exact ⟨hi', intr_of_ier_zero hi' (busyIp_of_no_guard (step_inv hs k) ((congrArg _ (step_cfg k)).trans hg))⟩
  · rw [intr_of_ier_one hi hf hb, lsr, byteOf_getLsbD]
    rfl

end Sys2Proof.Proofs
end

section
/-! PROOFS. A transaction does not depend on the bus master that issues it (60_exceptions.md R930, R942). -/

namespace Sys2Proof.Proofs

open Sys2Proof.Machine Sys2Proof.Laws

/-- `o'` is the outcome `o` of a transaction on `s` as bus master `m` gets it: the state and the entry it records name `m`. -/
def ReissuedBy (m : Nat) (s : State) (o o' : Host.Outcome State Fault Refusal) : Prop :=
  (∀ t, o = .next t → ∃ x, t.hlog = s.hlog ++ [x] ∧
    o' = .next { t with master := m, hlog := s.hlog ++ [{ x with agent := m }] }) ∧
  ∀ r, o = .refused r → o' = .refused r

section
variable (m : Nat) {s s' s'' : State}

theorem reissued_refused (r : Refusal) : ReissuedBy m s (.refused r) (.refused r) := by
  refine ⟨fun t h => ?_, fun _ h => h⟩
  cases h

theorem reissued_readOk (b : Block) (off : BitVec 12) (v : Word) (hm : s'' = { s' with master := m })
    (hl : s'.hlog = s.hlog) : ReissuedBy m s (s'.readOk b off v) (s''.readOk b off v) := by
  subst hm
  refine ⟨fun t h => ⟨{ agent := s'.master, block := b, offset := off, dir := .read, value := v }, ?_⟩, nofun⟩
  obtain rfl := readOk_next h
  rw [← hl]
  exact ⟨rfl, rfl⟩

theorem reissued_writeOk (b : Block) (off : BitVec 12) (v : Word) (hm : s'' = { s' with master := m })
    (hl : s'.hlog = s.hlog) : ReissuedBy m s (s'.writeOk b off v) (s''.writeOk b off v) := by
  subst hm
  refine ⟨fun t h => ⟨{ agent := s'.master, block := b, offset := off, dir := .write, value := v }, ?_⟩, nofun⟩
  obtain rfl := writeOk_next h
  rw [← hl]
  exact ⟨rfl, rfl⟩

theorem reissued_readGpio (k : BitVec 7) (off : BitVec 12) (reg : GpioBank → Half) :
    ReissuedBy m s (s.readGpio k off reg) (State.readGpio k off reg { s with master := m }) := by
  unfold State.readGpio
  dsimp only
  split
  · exact reissued_readOk m _ _ _ rfl rfl
  · exact reissued_refused m _

theorem reissued_writeGpio (k : BitVec 7) (off : BitVec 12) (v : Word) (upd : GpioBank → GpioBank) :
    ReissuedBy m s (s.writeGpio k off v upd) (State.writeGpio k off v upd { s with master := m }) := by
  unfold State.writeGpio
  dsimp only
  split
  · exact reissued_writeOk m _ _ _ rfl rfl
  · exact reissued_refused m _

end

theorem exec_reissued (m : Nat) (i : Instr) (s : State) :
    ReissuedBy m s (exec i s) (exec i { s with master := m }) := by
  cases i
  case rdDll | rdIer | rdDlh | rdIir | rdLcr | rdMcr | rdLsr | rdMsr | rdScr | rdLpdll | rdUsr | rdSrr | rdDlf =>
    exact reissued_readOk m _ _ _ rfl rfl
  case wrThr | wrDll | wrIer | wrDlh | wrFcr | wrScr | wrLpdll | wrDlf => exact reissued_writeOk m _ _ _ rfl rfl
  case wrLsr | wrMsr | wrUsr => exact reissued_refused m _
  case rdDrL | rdDrH | rdDdrL | rdDdrH => exact reissued_readGpio m ..
  case wrDrL | wrDrH | wrDdrL | wrDdrH => exact reissued_writeGpio m ..
  case rdRbr =>
    simp only [exec, execRdRbr]
    split <;> exact reissued_readOk m _ _ _ rfl rfl
  case wrLcr =>
    have hg : State.guarded { s with master := m } = s.guarded := rfl
    simp only [exec, execWrLcr, hg, logBreak_eq]
    split <;> exact reissued_writeOk m _ _ _ rfl rfl
  case wrMcr =>
    simp only [exec, execWrMcr]
    split
    · exact reissued_refused m _
    · exact reissued_writeOk m _ _ _ rfl rfl
  case wrSrr =>
    simp only [exec, execWrSrr, uartReset_eq]
    split <;> exact reissued_writeOk m _ _ _ rfl rfl
  case rdIoc =>
    simp only [exec, execRdIoc]
    split
    · exact reissued_readOk m _ _ _ rfl rfl
    · exact reissued_refused m _
  case wrIoc =>
    simp only [exec, execWrIoc]
    split
    · exact reissued_writeOk m _ _ _ rfl rfl
    · exact reissued_refused m _

/-- Settles O47: whatever a transaction does, it ends in a recorded access or a refusal (`exec_reissued`). -/
theorem effectIndependentOfMaster : Obligations.EffectIndependentOfMaster := fun s i m => exec_reissued m i s

end Sys2Proof.Proofs
end
